-- ==== Sys2Proof/Word.lean ====
section
/-! DEFINITION. The words of the GCM core: bytes, byte strings, descriptor words and 128-bit blocks (00_scope.md R5). -/

namespace Sys2Proof

/-- 8 bits (R5). -/
abbrev Byte := BitVec 8

/-- A finite sequence of bytes; index 0 is the first byte of the string (R5). -/
abbrev Bytes := List Byte

/-- One 32-bit word of a descriptor (R40). -/
abbrev Word := BitVec 32

/-- A block: 16 bytes, equivalently the 128-bit value `int(B)` whose most significant byte is byte 0 (R5). -/
abbrev Block := BitVec 128

end Sys2Proof
end

