-- ==== Sys2Proof/Machine/Bytes.lean ====
section
/-! DEFINITION. Byte order and byte strings (00_scope.md R5, 20_memory.md R34): every integer is big-endian. -/

namespace Sys2Proof

/-- `int_be(b)` of R5: the natural number a byte string encodes big-endian. -/
def beNat (bs : Bytes) : Nat :=
  bs.foldl (fun acc b => 256 * acc + b.toNat) 0

/-- The `k`-byte big-endian encoding of `n` modulo `256 ^ k`. -/
def beBytes : Nat → Nat → Bytes
  | 0, _ => []
  | k + 1, n => BitVec.ofNat 8 (n / 256 ^ k) :: beBytes k n

/-- `be32` of R5. -/
def be32 (w : Word) : Bytes :=
  beBytes 4 w.toNat

/-- `be64` of R5. -/
def be64 (n : Nat) : Bytes :=
  beBytes 8 n

/-- The first `n` bytes of a string, zero bytes appended on the right where it is shorter. -/
def fitBytes (n : Nat) (bs : Bytes) : Bytes :=
  (bs ++ List.replicate n 0#8).take n

/-- A byte buffer of `n` bytes holding a string from its front, zero beyond (the canonical form of D31). -/
def vecOfBytes (n : Nat) (bs : Bytes) : Vector Byte n :=
  ⟨⟨fitBytes n bs⟩, by simp [fitBytes]⟩

/-- `n` zero bytes as a buffer. -/
def zeroBuf (n : Nat) : Vector Byte n :=
  vecOfBytes n []

/-- The block of a byte string: `pad16` of R5 (zero bytes appended on the right), read big-endian; a string longer than 16
bytes gives its first 16. -/
def blockOfBytes (bs : Bytes) : Block :=
  BitVec.ofNat 128 (beNat (fitBytes 16 bs))

/-- The 16 bytes of a block, byte 0 the most significant (R5). -/
def bytesOfBlock (b : Block) : Bytes :=
  beBytes 16 b.toNat

/-- Bytewise `xor` of R5, as long as the shorter string. -/
def xorBytes (a b : Bytes) : Bytes :=
  List.zipWith (· ^^^ ·) a b

/-- `pad` of R73: zero bytes appended to a multiple of 16. -/
def padBlocks (bs : Bytes) : Bytes :=
  bs ++ List.replicate ((16 - bs.length % 16) % 16) 0#8

end Sys2Proof
end

