-- ==== Sys2Proof/Syntax.lean ====
section
/-! DEFINITION. The eight commands of the GCM core, one constructor for each row of spec/opcode_table.json. A command is
the pair (descriptor, data) of 20_memory.md R31; the constructor carries the operands R52 assembles from the two. -/

namespace Sys2Proof

inductive Instr
  /-- `INIT` (R90): `DIR`, `KEYV`, `MACBITS`, then the data `key || nonce || aad` (R43). `dir = true` is encryption;
  `keyv = false` keeps the key already loaded. -/
  | init (dir keyv : Bool) (macbits : BitVec 8) (key nonce aad : Bytes)
  /-- `AAD` (R91): the associated-data bytes. -/
  | aad (data : Bytes)
  /-- `PROC` (R92): payload bytes. -/
  | proc (data : Bytes)
  /-- `FINAL` (R93): the last payload bytes. -/
  | final (data : Bytes)
  /-- `GETMAC` (R94). -/
  | getmac
  /-- `RESET` (R95). -/
  | reset
  /-- `OUTSZ` (R96): the length the host asks about. -/
  | outsz (len : Word)
  /-- `UPDSZ` (R97): the length the host asks about. -/
  | updsz (len : Word)
deriving DecidableEq, Repr

end Sys2Proof
end

