-- ==== Sys2Proof/WellFormed.lean ====
section
/-! DEFINITION. Which commands a descriptor can announce: every length fits its 32-bit field (30_encoding.md R42) and a
command that keeps the loaded key carries none (R45 (e)). -/

namespace Sys2Proof

/-- Why a command has no descriptor. -/
inductive IllFormed
  | keyWithoutKeyv
  | keyTooLong
  | nonceTooLong
  | aadTooLong
  | dataTooLong
deriving DecidableEq, Repr

/-- A byte string whose length a 32-bit descriptor word can hold (R42). -/
def lengthFits (b : Bytes) : Bool :=
  decide (b.length < 2 ^ 32)

/-- The first check a command fails, if any. -/
def illFormed : Instr → Option IllFormed
  | .init _ keyv _ key nonce aad =>
    if !keyv && !key.isEmpty then some .keyWithoutKeyv
    else if !lengthFits key then some .keyTooLong
    else if !lengthFits nonce then some .nonceTooLong
    else if !lengthFits aad then some .aadTooLong
    else none
  | .aad data => if lengthFits data then none else some .dataTooLong
  | .proc data => if lengthFits data then none else some .dataTooLong
  | .final data => if lengthFits data then none else some .dataTooLong
  | .getmac => none
  | .reset => none
  | .outsz _ => none
  | .updsz _ => none

/-- The commands a descriptor and its data can express. -/
abbrev WellFormed (i : Instr) : Prop :=
  illFormed i = none

end Sys2Proof
end

