-- ==== Sys2Proof/Decode.lean ====
section
/-! DEFINITION. Descriptors: decoding, total on any bytes and rejecting by name, and encoding (30_encoding.md R40 to R46,
R52). -/

namespace Sys2Proof

/-- The four words of a descriptor (R40). -/
structure Descriptor where
  w0 : Word
  w1 : Word
  w2 : Word
  w3 : Word
deriving DecidableEq, Repr

/-- Why a descriptor is illegal, the cases of R45. -/
inductive IllegalReason
  /-- R45 (a): `OP` is 0 or 9 to 15. -/
  | reservedOp
  /-- R45 (b): `RSV` is not zero. -/
  | reservedField
  /-- R45 (c): a field unused by the command is not zero. -/
  | unusedField
  /-- R45 (d): GETMAC or RESET with `W1` not zero. -/
  | lenNotZero
  /-- R45 (e): INIT with `KEYV == 0` and `W2` not zero. -/
  | klenWithoutKey
deriving DecidableEq, Repr

/-- What a legal descriptor announces, R46's results. -/
inductive Header
  | init (dir keyv : Bool) (macbits : BitVec 8) (nlen klen alen : Word)
  | aad (len : Word)
  | proc (len : Word)
  | final (len : Word)
  | getmac
  | reset
  | outsz (len : Word)
  | updsz (len : Word)
deriving DecidableEq, Repr

/-- `OP`, `W0` bits 31:28 (R41). -/
def fieldOp (w0 : Word) : BitVec 4 := w0.extractLsb' 28 4

/-- `DIR`, `W0` bit 27 (R41). -/
def fieldDir (w0 : Word) : Bool := w0.getLsbD 27

/-- `KEYV`, `W0` bit 26 (R41). -/
def fieldKeyv (w0 : Word) : Bool := w0.getLsbD 26

/-- `RSV`, `W0` bits 25:8 (R41). -/
def fieldRsv (w0 : Word) : BitVec 18 := w0.extractLsb' 8 18

/-- `MACBITS`, `W0` bits 7:0 (R41). -/
def fieldMacbits (w0 : Word) : BitVec 8 := w0.extractLsb' 0 8

/-- R45 (c): a field that only INIT uses is not zero. -/
def unusedFieldSet (d : Descriptor) : Bool :=
  fieldDir d.w0 || fieldKeyv d.w0 || fieldMacbits d.w0 != 0#8 || d.w2 != 0#32 || d.w3 != 0#32

/-- `decode` of R46, with the reason where R46 says ILLEGAL. -/
def decodeDescriptor (d : Descriptor) : Except IllegalReason Header :=
  let op := (fieldOp d.w0).toNat
  if op = 0 ∨ 9 ≤ op then .error .reservedOp
  else if fieldRsv d.w0 ≠ 0#18 then .error .reservedField
  else if op ≠ 1 ∧ unusedFieldSet d then .error .unusedField
  else if (op = 5 ∨ op = 6) ∧ d.w1 ≠ 0#32 then .error .lenNotZero
  else if op = 1 ∧ fieldKeyv d.w0 = false ∧ d.w2 ≠ 0#32 then .error .klenWithoutKey
  else match op with
    | 1 => .ok (.init (fieldDir d.w0) (fieldKeyv d.w0) (fieldMacbits d.w0) d.w1 d.w2 d.w3)
    | 2 => .ok (.aad d.w1)
    | 3 => .ok (.proc d.w1)
    | 4 => .ok (.final d.w1)
    | 5 => .ok .getmac
    | 6 => .ok .reset
    | 7 => .ok (.outsz d.w1)
    | 8 => .ok (.updsz d.w1)
    | _ => .error .reservedOp

/-- `dlen` of R43: how many data bytes a legal descriptor announces. -/
def headerDlen : Header → Nat
  | .init _ _ _ nlen klen alen => klen.toNat + nlen.toNat + alen.toNat
  | .aad len => len.toNat
  | .proc len => len.toNat
  | .final len => len.toNat
  | .getmac => 0
  | .reset => 0
  | .outsz _ => 0
  | .updsz _ => 0

/-- R43, R52: the operands of a command from its header and its data; INIT's data is `key || nonce || aad`. -/
def attachData (h : Header) (data : Bytes) : Instr :=
  match h with
  | .init dir keyv macbits nlen klen alen =>
    .init dir keyv macbits (data.take klen.toNat) ((data.drop klen.toNat).take nlen.toNat)
      ((data.drop (klen.toNat + nlen.toNat)).take alen.toNat)
  | .aad len => .aad (data.take len.toNat)
  | .proc len => .proc (data.take len.toNat)
  | .final len => .final (data.take len.toNat)
  | .getmac => .getmac
  | .reset => .reset
  | .outsz len => .outsz len
  | .updsz len => .updsz len

/-- The 16 bytes of a descriptor: `W0, W1, W2, W3`, each big-endian (R40). -/
def descriptorBytes (d : Descriptor) : Bytes :=
  be32 d.w0 ++ be32 d.w1 ++ be32 d.w2 ++ be32 d.w3

/-- Word `k` of a descriptor held as bytes (R40). -/
def wordAt (bs : Bytes) (k : Nat) : Word :=
  BitVec.ofNat 32 (beNat ((bs.drop (4 * k)).take 4))

/-- The descriptor in the first 16 bytes of a string (R40). -/
def parseDescriptor (bs : Bytes) : Descriptor :=
  { w0 := wordAt bs 0, w1 := wordAt bs 1, w2 := wordAt bs 2, w3 := wordAt bs 3 }

/-- What stands at the front of the command channel. -/
inductive Fetched
  /-- No byte has been offered: the core waits for a command (R29). -/
  | empty
  /-- Some, but fewer than 16, descriptor bytes. -/
  | shortDescriptor
  /-- An illegal descriptor: no data belongs to it (R45); the bytes after it follow. -/
  | illegal (reason : IllegalReason) (rest : Bytes)
  /-- A legal descriptor whose `dlen` data bytes are not all there (R139). -/
  | shortData (header : Header)
  /-- A command, and the bytes after it. -/
  | command (i : Instr) (rest : Bytes)
deriving DecidableEq, Repr

/-- Decode the command channel: the descriptor (R46), then exactly its `dlen` data bytes (R43). -/
def decode (bs : Bytes) : Fetched :=
  if bs.isEmpty then .empty
  else if bs.length < 16 then .shortDescriptor
  else match decodeDescriptor (parseDescriptor bs) with
    | .error reason => .illegal reason (bs.drop 16)
    | .ok h =>
      if bs.length < 16 + headerDlen h then .shortData h
      else .command (attachData h ((bs.drop 16).take (headerDlen h))) (bs.drop (16 + headerDlen h))

/-- R44: the operation code of a command. -/
def opcode : Instr → Nat
  | .init .. => 1
  | .aad _ => 2
  | .proc _ => 3
  | .final _ => 4
  | .getmac => 5
  | .reset => 6
  | .outsz _ => 7
  | .updsz _ => 8

/-- R41: `W0 = OP * 2^28 + DIR * 2^27 + KEYV * 2^26 + RSV * 2^8 + MACBITS`, `RSV` zero. -/
def encodeW0 (op : Nat) (dir keyv : Bool) (macbits : BitVec 8) : Word :=
  BitVec.ofNat 32 (op * 2 ^ 28 + dir.toNat * 2 ^ 27 + keyv.toNat * 2 ^ 26 + macbits.toNat)

/-- A byte count as a descriptor word (R42). -/
def lengthWord (b : Bytes) : Word :=
  BitVec.ofNat 32 b.length

/-- The descriptor of a command (R41, R42). -/
def encodeDescriptor (i : Instr) : Descriptor :=
  match i with
  | .init dir keyv macbits key nonce aad =>
    { w0 := encodeW0 (opcode i) dir keyv macbits, w1 := lengthWord nonce, w2 := lengthWord key, w3 := lengthWord aad }
  | .aad data => { w0 := encodeW0 (opcode i) false false 0, w1 := lengthWord data, w2 := 0, w3 := 0 }
  | .proc data => { w0 := encodeW0 (opcode i) false false 0, w1 := lengthWord data, w2 := 0, w3 := 0 }
  | .final data => { w0 := encodeW0 (opcode i) false false 0, w1 := lengthWord data, w2 := 0, w3 := 0 }
  | .getmac => { w0 := encodeW0 (opcode i) false false 0, w1 := 0, w2 := 0, w3 := 0 }
  | .reset => { w0 := encodeW0 (opcode i) false false 0, w1 := 0, w2 := 0, w3 := 0 }
  | .outsz len => { w0 := encodeW0 (opcode i) false false 0, w1 := len, w2 := 0, w3 := 0 }
  | .updsz len => { w0 := encodeW0 (opcode i) false false 0, w1 := len, w2 := 0, w3 := 0 }

/-- The data bytes of a command in channel order (R43). -/
def commandData : Instr → Bytes
  | .init _ _ _ key nonce aad => key ++ nonce ++ aad
  | .aad data => data
  | .proc data => data
  | .final data => data
  | .getmac => []
  | .reset => []
  | .outsz _ => []
  | .updsz _ => []

/-- A command as the bytes the host sends: descriptor, then data (R40, R43). -/
def encode (i : Instr) : Bytes :=
  descriptorBytes (encodeDescriptor i) ++ commandData i

/-- The descriptor whose bits, numbered as spec/opcode_table.json numbers them, are the low `nbits` of `w`. -/
def tableDescriptor (nbits w : Nat) : Descriptor :=
  let v := w % 2 ^ nbits
  { w0 := BitVec.ofNat 32 v, w1 := BitVec.ofNat 32 (v / 2 ^ 32), w2 := BitVec.ofNat 32 (v / 2 ^ 64),
    w3 := BitVec.ofNat 32 (v / 2 ^ 96) }

/-- The bytes of that descriptor, then as many zero data bytes as it announces. -/
def tableBytes (nbits w : Nat) : Bytes :=
  let d := tableDescriptor nbits w
  match decodeDescriptor d with
  | .error _ => descriptorBytes d
  | .ok h => descriptorBytes d ++ List.replicate (headerDlen h) 0#8

/-- The command the decoder reads from an instruction whose bits are `w`. -/
def decodeTableWord (nbits w : Nat) : Option Instr :=
  match decode (tableBytes nbits w) with
  | .command i _ => some i
  | _ => none

end Sys2Proof
end

