-- ==== Sys2Proof/Config.lean ====
section
/-! DEFINITION. What a build of the block fixes: the parameters of 00_scope.md R4, and the architectural constants. -/

namespace Sys2Proof

/-- `MULT_IMPL` of R4: which multiplier realisation the block was built with. -/
inductive MultImpl
  | bitwise
  | table4
  | table8
deriving DecidableEq, Repr

/-- Which instance of the parameter `E` of R4 is attached to the cipher port. -/
inductive CipherSel
  /-- The unknown cipher of R4: `Config.cipher`, of which nothing can be proved. -/
  | attached
  /-- The spec's own test double TOYX (95_test_vectors.md section 2); log entry 2. -/
  | toyx
deriving DecidableEq, Repr

/-- The parameters of R4, "fixed when the block is built". -/
structure Params where
  /-- `E`. -/
  cipher : CipherSel
  /-- `CBS`: the block size in bytes that the attached cipher reports. -/
  cbs : Nat
  /-- `MULT_IMPL`. -/
  multImpl : MultImpl
  /-- `LATE_AAD`: the AAD command is accepted in STREAM. -/
  lateAad : Bool
  /-- `NONCE_MAX`: the longest nonce in bytes. -/
  nonceMax : Nat
deriving DecidableEq, Repr

/-- The build that `State.reset` stands for: R4's defaults where it gives one; DESIGN CHOICE (log entry 3) for `CBS` and
`MULT_IMPL`, which R4 leaves open. -/
def Params.default : Params :=
  { cipher := .attached, cbs := 16, multImpl := .bitwise, lateAad := true, nonceMax := 2 ^ 32 - 1 }

/-- The parameter `E` of R4 and R32: a total, deterministic function of (key bytes, block), of which nothing else is
known (log entry 1). -/
opaque Config.cipher : Bytes → Block → Block

/-- `CEIL` of R25, in bytes. -/
def Config.ceil : Nat := 2 ^ 36 - 32

/-- `BUDGET0` of R19. -/
def Config.budget0 : BitVec 32 := 0xFFFFFFFE#32

end Sys2Proof
end

