-- ==== Sys2Proof/Machine/State.lean ====
section
/-! DEFINITION. Everything the core holds (10_state.md), its channels (20_memory.md R30), and its value after hardware
reset (R29). -/

namespace Sys2Proof.Machine

/-- The values of `st` (R10); the encodings 5 to 7 are never held (93_implementation_defined.md I3). -/
inductive FsmState
  | uninit
  | ready
  | stream
  | done
  | failed
deriving DecidableEq, Repr

/-- The status codes of R110, also the values of `err` (R11). -/
inductive Status
  | ok
  | invalidParameter
  | invalidState
  | inputTooLarge
  | authenticationFailed
  | nonceReuse
deriving DecidableEq, Repr

/-- A response (R47). -/
structure Response where
  status : Status
  rlen : BitVec 64
  rdata : Bytes
deriving DecidableEq, Repr

/-- A call on the cipher port (R33). -/
inductive PortEvent
  /-- `LoadKey(k)`. -/
  | load (key : Bytes)
  /-- `E(key, B)` under the key last loaded. -/
  | enc (block : Block)
deriving DecidableEq, Repr

/-- The state of one core: the build's parameters, the registers of 10_state.md under their own names, and the channels. -/
@[ext]
structure State where
  /-- R4: fixed when the block is built; no command writes it. -/
  params : Params
  /-- R10: the session state machine. -/
  st : FsmState
  /-- R11: the code of the failure that put the core in FAILED. -/
  err : Status
  /-- R12: 1 is encryption, 0 decryption. -/
  dir : Bool
  /-- R12: the tag length in bytes. -/
  macBytes : BitVec 5
  /-- R13: a key has been loaded. -/
  kv : Bool
  /-- R13: the key currently loaded in the cipher. -/
  key : Bytes
  /-- R14: the hash subkey. -/
  H : Block
  /-- R15: the multiplier's tables. -/
  M : List Block
  /-- R16: the nonce-reuse memory holds a pair. -/
  lev : Bool
  /-- R16: the key of the last encryption session. -/
  lastEncKey : Bytes
  /-- R16: the nonce of the last encryption session. -/
  lastEncNonce : Bytes
  /-- R17: `J0`, `dir` and `macBytes` describe a session that RESET may re-arm. -/
  cfgv : Bool
  /-- R17: the initial counter block. -/
  J0 : Block
  /-- R18: the running counter. -/
  ctr : Block
  /-- R19: the keystream block budget. -/
  blocksRem : BitVec 32
  /-- R20: the live GHASH accumulator. -/
  S : Block
  /-- R21: the AAD accumulator. -/
  S_at : Block
  /-- R22: the snapshot of the AAD hash. -/
  S_atPre : Block
  /-- R21: the AAD staging buffer. -/
  atBuf : Vector Byte 16
  /-- R21: the number of bytes staged. -/
  atPos : BitVec 4
  /-- R21: the number of AAD bytes folded into `S_at`. -/
  atLen : BitVec 64
  /-- R22: the number of AAD bytes the snapshot covers. -/
  atLenPre : BitVec 64
  /-- R23: the payload window. -/
  buf : Vector Byte 32
  /-- R23: the number of bytes held in the window. -/
  bufPos : BitVec 6
  /-- R24: the payload bytes that have gone through the cipher path. -/
  payLen : BitVec 64
  /-- R26: what GETMAC returns. -/
  macReg : Vector Byte 16
  /-- The command channel (R30, R31): bytes the host has offered and the core has not yet taken, descriptor then data
  (the model's own field; log entries 4 and 5). -/
  chan : Bytes
  /-- The response channel (R30, R47): the responses formed so far, oldest first (the model's own field; log entry 7). -/
  resp : List Response
  /-- The cipher-port trace (R33), oldest first (the model's own field; log entry 8). -/
  port : List PortEvent
  /-- The reset input of R130 as the core samples it (the model's own field; log entry 9). -/
  resetIn : Bool
deriving DecidableEq, Repr

/-- How the model stops at what the block cannot complete. Both are raised by the fetch of `step` only, and both are safe:
nothing is claimed of what the block does afterwards, and the spec says it makes no progress (log entry 6). -/
inductive Fault
  /-- R139, 93_implementation_defined.md I23 (`stuck`): a legal descriptor announced data bytes that the host did not
  deliver; "the core takes no further command until hardware reset". Raised by `step`; safe. -/
  | dataUnderrun
  /-- The same for a descriptor of which some but not all 16 bytes were delivered (R40: there is one command length).
  Raised by `step`; safe. -/
  | descriptorUnderrun
deriving DecidableEq, Repr

/-- Why the model gives an instruction no meaning. -/
inductive Refusal
  /-- The instruction of that name has no meaning yet. Raised by a refused arm of `exec`, of which there is none; safe. -/
  | notModelled (mnemonic : String)
deriving DecidableEq, Repr

/-- The outcome of one command. -/
abbrev StepResult := Host.Outcome State Fault Refusal

/-- What the work of a command comes to before its response is formed (43_engine_commands.md R81 step 4): it is done with a
result, or it has failed with a code in the state reached so far. -/
inductive Work (α : Type) where
  | done (s : State) (result : α)
  | fails (s : State) (code : Status)
deriving DecidableEq, Repr

/-- R29, `M` at hardware reset: the tables of `H = 0`, "all entries zero"; none for BITWISE (R15). -/
def zeroTables : MultImpl → List Block
  | .bitwise => []
  | .table4 => List.replicate 16 0#128
  | .table8 => List.replicate 256 0#128

/-- Every register at its hardware reset value (the table of R29), for a build with parameters `p`; the channels empty and
the reset input not asserted. -/
def State.resetWith (p : Params) : State :=
  { params := p
    st := .uninit
    err := .ok
    dir := false
    macBytes := 16#5
    kv := false
    key := []
    H := 0#128
    M := zeroTables p.multImpl
    lev := false
    lastEncKey := []
    lastEncNonce := []
    cfgv := false
    J0 := 0#128
    ctr := 0#128
    blocksRem := 0xFFFFFFFE#32
    S := 0#128
    S_at := 0#128
    S_atPre := 0#128
    atBuf := zeroBuf 16
    atPos := 0#4
    atLen := 0#64
    atLenPre := 0#64
    buf := zeroBuf 32
    bufPos := 0#6
    payLen := 0#64
    macReg := zeroBuf 16
    chan := []
    resp := []
    port := []
    resetIn := false }

/-- The machine right after hardware reset (R29, R130), for the build of `Params.default`. -/
def State.reset : State :=
  State.resetWith Params.default

end Sys2Proof.Machine
end

