-- ==== Sys2Proof/Machine/Cipher.lean ====
section
/-! DEFINITION. The cipher port (20_memory.md R32, R33). -/

namespace Sys2Proof.Machine

/-- TOYX (95_test_vectors.md section 2): `B xor pad16(key)`, of the key's first 16 bytes if it is longer. -/
def toyx (key : Bytes) (b : Block) : Block :=
  b ^^^ blockOfBytes key

/-- `E` of R32 for the cipher a build has attached. -/
def encryptWith (sel : CipherSel) (key : Bytes) (b : Block) : Block :=
  match sel with
  | .attached => Config.cipher key b
  | .toyx => toyx key b

/-- `E(key, B)` under the key the core mirrors (R32). -/
def cipherE (s : State) (b : Block) : Block :=
  encryptWith s.params.cipher s.key b

/-- The events of a run of calls (R33). -/
def portCalls (events : List PortEvent) (s : State) : State :=
  { s with port := s.port ++ events }

/-- The event of one `encryptBlock` call (R33). -/
def portEnc (b : Block) (s : State) : State :=
  portCalls [.enc b] s

/-- The event of one `LoadKey` call (R33); it never fails (R32). -/
def portLoad (k : Bytes) (s : State) : State :=
  portCalls [.load k] s

end Sys2Proof.Machine
end

