-- ==== Sys2Proof/Machine/Field.lean ====
section
/-! DEFINITION. Arithmetic in GF(2^128) (40_multiplier.md R60 to R63, R68). Addition is `^^^`. -/

namespace Sys2Proof.Machine

/-- `ONE`, the element 1: the block 80 00 .. 00 (R60). -/
def gfOne : Block := 1#128 <<< 127

/-- `R` of R61: `1 + x + x^2 + x^7`, the block e1 00 .. 00. -/
def reductionBlock : Block := 0xE1#128 <<< 120

/-- GCM bit `i` of a block, bit `127 - i` of its integer: the coefficient of `x^i` (R5, R60). -/
def gcmBit (b : Block) (i : Nat) : Bool :=
  b.getLsbD (127 - i)

/-- R62: multiply by `x`. -/
def mulX (v : Block) : Block :=
  if v.getLsbD 0 then (v >>> 1) ^^^ reductionBlock else v >>> 1

/-- `mulX` applied `n` times: multiply by `x^n`. -/
def mulXn : Nat → Block → Block
  | 0, v => v
  | n + 1, v => mulXn n (mulX v)

/-- The loop of R63 with `n` iterations left, those for `i = 128 - n` to 127. -/
def gfMulLoop (x : Block) : Nat → Block → Block → Block
  | 0, z, _ => z
  | n + 1, z, v => gfMulLoop x n (if gcmBit x (127 - n) then z ^^^ v else z) (mulX v)

/-- R63: the product of two elements, bitwise reference algorithm. -/
def gfMul (x y : Block) : Block :=
  gfMulLoop x 128 0#128 y

/-- The loop of R68, for at most `fuel` iterations. -/
def gfPowLoop : Nat → Block → Block → Nat → Block
  | 0, y, _, _ => y
  | fuel + 1, y, p, c =>
    if c = 0 then y
    else gfPowLoop fuel (if c % 2 = 1 then gfMul y p else y) (gfMul p p) (c / 2)

/-- R68: the power of an element, by square and multiply; `c` has at most `log2 c + 1` binary digits. -/
def gfPow (a : Block) (c : Nat) : Block :=
  gfPowLoop (Nat.log2 c + 1) gfOne a c

end Sys2Proof.Machine
end

