-- ==== Sys2Proof/Machine/Multiplier.lean ====
section
/-! DEFINITION. The Block Multiplier in its three realisations (40_multiplier.md R64 to R67). -/

namespace Sys2Proof.Machine

/-- The XOR of the blocks whose flag is set. -/
def xorSelected : List (Bool × Block) → Block
  | [] => 0#128
  | (b, v) :: rest => (if b then v else 0#128) ^^^ xorSelected rest

/-- `T[n]` of R66, `p(n) * H`: the XOR of `T[8] = H`, `T[4]`, `T[2]`, `T[1]` over the bits set in `n`. -/
def table4Entry (h : Block) (n : Nat) : Block :=
  xorSelected [(n.testBit 3, h), (n.testBit 2, mulXn 1 h), (n.testBit 1, mulXn 2 h), (n.testBit 0, mulXn 3 h)]

/-- `tables4` of R66. -/
def tables4 (h : Block) : List Block :=
  (List.range 16).map (table4Entry h)

/-- `T8[b]` of R67, `q(b) * H`: the XOR of `T8[0x80] = H` to `T8[0x01] = H * x^7` over the bits set in `b`. -/
def table8Entry (h : Block) (b : Nat) : Block :=
  xorSelected ((List.range 8).map fun k => (b.testBit (7 - k), mulXn k h))

/-- `tables8` of R67. -/
def tables8 (h : Block) : List Block :=
  (List.range 256).map (table8Entry h)

/-- The tables a build keeps for a subkey; none for BITWISE (R15). -/
def tablesFor : MultImpl → Block → List Block
  | .bitwise, _ => []
  | .table4, h => tables4 h
  | .table8, h => tables8 h

/-- `mulH_table4` of R66: `j` from 31 down to 0, Horner's rule in `x^4`. -/
def mulHTable4 (t : List Block) (x : Block) : Block :=
  (List.range 32).foldr (fun j z => mulXn 4 z ^^^ t.getD ((x >>> (124 - 4 * j)).toNat % 16) 0#128) 0#128

/-- `mulH_table8` of R67: `j` from 15 down to 0, Horner's rule in `x^8`. -/
def mulHTable8 (t : List Block) (x : Block) : Block :=
  (List.range 16).foldr (fun j z => mulXn 8 z ^^^ t.getD ((x >>> (120 - 8 * j)).toNat % 256) 0#128) 0#128

/-- `mulH` of R64 by the realisation the block was built with, from its subkey and tables. -/
def mulHWith (impl : MultImpl) (h : Block) (m : List Block) (x : Block) : Block :=
  match impl with
  | .bitwise => gfMul x h
  | .table4 => mulHTable4 m x
  | .table8 => mulHTable8 m x

/-- R64: `mulH(X)`; reads `H` and `M`, writes nothing. -/
def mulH (s : State) (x : Block) : Block :=
  mulHWith s.params.multImpl s.H s.M x

/-- `multInit` of R64: `H` and its tables are written together. -/
def multInit (h : Block) (s : State) : State :=
  { s with H := h, M := tablesFor s.params.multImpl h }

end Sys2Proof.Machine
end

