-- ==== Sys2Proof/Machine/Ghash.lean ====
section
/-! DEFINITION. The GHASH accumulator and the ingestion of associated data (41_ghash.md). -/

namespace Sys2Proof.Machine

/-- R70: fold a full block into an accumulator value. -/
def ghashBlock (s : State) (y b : Block) : Block :=
  mulH s (y ^^^ b)

/-- R71: fold the first `n` bytes of a string, zero-padded, into an accumulator value. -/
def ghashPartial (s : State) (y : Block) (bs : Bytes) (n : Nat) : Block :=
  mulH s (y ^^^ blockOfBytes (bs.take n))

/-- The first `q` blocks of a string folded in order, with `mul` for the multiplication by `H` (R73). -/
def ghashRunWith (mul : Block → Block) : Nat → Block → Bytes → Block
  | 0, y, _ => y
  | q + 1, y, m => ghashRunWith mul q (mul (y ^^^ blockOfBytes (m.take 16))) (m.drop 16)

/-- R73, `GHASH_H(Y, m)`: each full block in order, then the last bytes zero-padded if any are left. -/
def ghashWith (mul : Block → Block) (y : Block) (m : Bytes) : Block :=
  let q := m.length / 16
  let r := m.length % 16
  let y' := ghashRunWith mul q y m
  if r > 0 then mul (y' ^^^ blockOfBytes ((m.drop (16 * q)).take r)) else y'

/-- `GHASH_H(Y, m)` by the core's own multiplier. -/
def ghashBytes (s : State) (y : Block) (m : Bytes) : Block :=
  ghashWith (mulH s) y m

/-- Write the AAD accumulator and the staging buffer (R21). -/
def setAad (hash : Block) (len : BitVec 64) (staged : Vector Byte 16) (pos : BitVec 4) (s : State) : State :=
  { s with S_at := hash, atLen := len, atBuf := staged, atPos := pos }

/-- One iteration of the loop of R72. -/
def aadIngestByte (s : State) (b : Byte) : State :=
  let staged := s.atBuf.setIfInBounds s.atPos.toNat b
  if s.atPos.toNat + 1 = 16 then
    setAad (ghashBlock s s.S_at (blockOfBytes staged.toList)) (s.atLen + 16#64) (zeroBuf 16) 0#4 s
  else
    setAad s.S_at s.atLen staged (s.atPos + 1#4) s

/-- R72: ingest associated data, byte by byte. -/
def aadIngest (data : Bytes) (s : State) : State :=
  data.foldl aadIngestByte s

end Sys2Proof.Machine
end

