-- ==== Sys2Proof/Machine/Counter.lean ====
section
/-! DEFINITION. The counter generator (42_counter.md R75 to R77). -/

namespace Sys2Proof.Machine

/-- The last block of R75's general path: bytes 0 to 7 zero, then `be64(8 * n)`. -/
def nonceLengthBlock (n : Nat) : Block :=
  blockOfBytes (List.replicate 8 0#8 ++ be64 (8 * n))

/-- R75, with `mul` for the multiplication by `H`. -/
def deriveJ0With (mul : Block → Block) (nonce : Bytes) : Block :=
  if nonce.length = 12 then blockOfBytes (nonce ++ be32 1#32)
  else mul (ghashWith mul 0#128 nonce ^^^ nonceLengthBlock nonce.length)

/-- R75: the initial counter block of a nonce. -/
def deriveJ0 (s : State) (nonce : Bytes) : Block :=
  deriveJ0With (mulH s) nonce

/-- R76: the last four bytes of a counter block plus one modulo 2^32, big-endian; bytes 0 to 11 kept. -/
def inc32 (c : Block) : Block :=
  c.extractLsb' 32 96 ++ (c.extractLsb' 0 32 + 1#32)

/-- R76, R77: the next keystream block, or the failure of an exhausted budget. -/
def nextKeystreamBlock (s : State) : Work Block :=
  if s.blocksRem = 0#32 then .fails s .invalidState
  else
    let c := inc32 s.ctr
    .done (portEnc c { s with ctr := c, blocksRem := s.blocksRem - 1#32 }) (cipherE s c)

end Sys2Proof.Machine
end

