-- ==== Sys2Proof/Machine/Operands.lean ====
section
/-! DEFINITION. Operands: how a command's operands are formed from its fields and the registers (30_encoding.md R52), the
counts of 43_engine_commands.md R82, and the serialised forms of responses and status (R47 to R49, R110). -/

namespace Sys2Proof.Machine

/-- R90: the key INIT uses, the one in its data or the one already loaded. -/
def effKey (keyv : Bool) (key : Bytes) (s : State) : Bytes :=
  if keyv then key else s.key

/-- R52: `macBytes := MACBITS / 8`. -/
def macBytesOf (macbits : BitVec 8) : BitVec 5 :=
  BitVec.ofNat 5 (macbits.toNat / 8)

/-- R82: `aadTotal`. -/
def aadTotal (s : State) : Nat :=
  s.atLen.toNat + s.atPos.toNat

/-- R82: `payEff(n)`; in decryption the last `macBytes` bytes of the stream are not payload. -/
def payEff (s : State) (n : Nat) : Nat :=
  if s.dir then n else n - s.macBytes.toNat

/-- R85: the capacity of the payload window. -/
def windowCap (s : State) : Nat :=
  if s.dir then 16 else 16 + s.macBytes.toNat

/-- The bytes held in the payload window, `buf[0..bufPos)` (R23). -/
def windowBytes (s : State) : Bytes :=
  s.buf.toList.take s.bufPos.toNat

/-- The bytes staged, `atBuf[0..atPos)` (R21). -/
def stagedBytes (s : State) : Bytes :=
  s.atBuf.toList.take s.atPos.toNat

/-- R87: `ceil(n / 16)`. -/
def blocksOf (n : Nat) : Nat :=
  (n + 15) / 16

/-- R96: the size OUTSZ computes. -/
def outSize (n : Nat) (s : State) : Nat :=
  let total := n + s.bufPos.toNat
  if s.dir then total + s.macBytes.toNat
  else if total < s.macBytes.toNat then 0 else total - s.macBytes.toNat

/-- R97: the size UPDSZ computes. -/
def updSize (n : Nat) (s : State) : Nat :=
  let total := n + s.bufPos.toNat
  if s.dir then total - total % 16
  else if total < s.macBytes.toNat then 0
  else (total - s.macBytes.toNat) - (total - s.macBytes.toNat) % 16

/-- R94: the bytes GETMAC returns. -/
def macOut (s : State) : Bytes :=
  s.macReg.toList.take s.macBytes.toNat

/-- R10: the encoding of `st`. -/
def fsmCode : FsmState → BitVec 3
  | .uninit => 0#3
  | .ready => 1#3
  | .stream => 2#3
  | .done => 3#3
  | .failed => 4#3

/-- R48, R110: the 8-bit status codes. -/
def statusCode : Status → BitVec 8
  | .ok => 0#8
  | .invalidParameter => 1#8
  | .invalidState => 2#8
  | .inputTooLarge => 3#8
  | .authenticationFailed => 4#8
  | .nonceReuse => 5#8

/-- R10, R11: the two sideband outputs, `st` and `err`, the only registers the host sees. -/
def sideband (s : State) : BitVec 3 × BitVec 3 :=
  (fsmCode s.st, (statusCode s.err).setWidth 3)

/-- R47, R49: a response as bytes, `status`, `rlen` big-endian, `rdata`. -/
def responseBytes (r : Response) : Bytes :=
  statusCode r.status :: (be64 r.rlen.toNat ++ r.rdata)

end Sys2Proof.Machine
end

