-- ==== Sys2Proof/Machine/Flags.lean ====
section
/-! DEFINITION. The conditions the commands test: legal states (43_engine_commands.md R81), INIT's checks in their order
(R90, R113), the ceiling (R82), the tag comparison (R89). -/

namespace Sys2Proof.Machine

/-- R81: the legal states of PROC and FINAL. -/
def streamLegal (s : State) : Bool :=
  match s.st with
  | .ready => true
  | .stream => true
  | .uninit => false
  | .done => false
  | .failed => false

/-- R81, R91: the legal states of AAD. -/
def aadLegal (s : State) : Bool :=
  match s.st with
  | .ready => true
  | .stream => s.params.lateAad
  | .uninit => false
  | .done => false
  | .failed => false

/-- R90, R52: the legal tag lengths in bits. -/
def macBitsLegal (macbits : BitVec 8) : Bool :=
  decide (32 ≤ macbits.toNat ∧ macbits.toNat ≤ 128 ∧ macbits.toNat % 8 = 0)

/-- R90: the legal nonce lengths. -/
def nonceLegal (nonce : Bytes) (s : State) : Bool :=
  decide (1 ≤ nonce.length ∧ nonce.length ≤ s.params.nonceMax)

/-- R90, R119: an encryption INIT repeats the pair of the last encryption session. -/
def nonceReused (dir keyv : Bool) (key nonce : Bytes) (s : State) : Bool :=
  dir && s.lev && nonce == s.lastEncNonce && effKey keyv key s == s.lastEncKey

/-- R90, D35: INIT carries a key that differs from the loaded one. -/
def keyChanged (keyv : Bool) (key : Bytes) (s : State) : Bool :=
  keyv && (!s.kv || key != s.key)

/-- R82 for AAD. -/
def aadTooLarge (len : Nat) (s : State) : Bool :=
  decide (Config.ceil < aadTotal s + len + payEff s (s.payLen.toNat + s.bufPos.toNat))

/-- R82 for PROC and FINAL. -/
def payTooLarge (len : Nat) (s : State) : Bool :=
  decide (Config.ceil < aadTotal s + payEff s (s.payLen.toNat + s.bufPos.toNat + len))

/-- R90's checks in R113's order; every one precedes every write. -/
def initFailure (dir keyv : Bool) (macbits : BitVec 8) (key nonce aad : Bytes) (s : State) : Option Status :=
  if s.params.cbs ≠ 16 then some .invalidParameter
  else if !macBitsLegal macbits then some .invalidParameter
  else if !nonceLegal nonce s then some .invalidParameter
  else if !keyv && !s.kv then some .invalidParameter
  else if nonceReused dir keyv key nonce s then some .nonceReuse
  else if Config.ceil < aad.length then some .inputTooLarge
  else none

/-- R91's checks in order. -/
def aadFailure (data : Bytes) (s : State) : Option Status :=
  if !aadLegal s then some .invalidState
  else if aadTooLarge data.length s then some .inputTooLarge
  else none

/-- R92's and R93's checks before any data is used, in order. -/
def payFailure (data : Bytes) (s : State) : Option Status :=
  if !streamLegal s then some .invalidState
  else if payTooLarge data.length s then some .inputTooLarge
  else none

/-- R89: every byte pair is combined, and the result is formed once, after the last. -/
def tagEqual (t r : Bytes) : Bool :=
  (List.zipWith (fun x y => x ^^^ y) t r).foldl (fun acc b => acc ||| b) 0#8 == 0#8

end Sys2Proof.Machine
end

