-- ==== Sys2Proof/Machine/Ops.lean ====
section
/-! DEFINITION. The operations every command shares: ClearSession (43_engine_commands.md R80), the response (R47), the
failure entry `Fail` (60_exceptions.md R112) and the return from it (R120), the snapshot (R83), hardware reset (R130). -/

namespace Sys2Proof.Machine

/-- R80. `ctr` takes the value of `J0` at that moment. -/
def clearSession (s : State) : State :=
  { s with
    ctr := s.J0
    blocksRem := Config.budget0
    S := 0#128
    S_at := 0#128
    S_atPre := 0#128
    atBuf := zeroBuf 16
    atPos := 0#4
    atLen := 0#64
    atLenPre := 0#64
    buf := zeroBuf 32
    bufPos := 0#6
    payLen := 0#64
    macReg := zeroBuf 16 }

/-- R47: a response carries the number of bytes of its data. -/
def mkResponse (status : Status) (rdata : Bytes) : Response :=
  { status := status, rlen := BitVec.ofNat 64 rdata.length, rdata := rdata }

/-- R81 step 5: form the response of the command. -/
def respond (status : Status) (rdata : Bytes) (s : State) : State :=
  { s with resp := s.resp ++ [mkResponse status rdata] }

/-- R112, `Fail(code)`, the one failure entry: the session cleared, `st` FAILED, `err` the code, an empty response. -/
def fail (code : Status) (s : State) : State :=
  respond code [] { clearSession s with st := .failed, err := code }

/-- R95, R120: end the session and leave FAILED. A configured decryption session is re-armed; anything else goes to UNINIT
with `J0` zeroed first. -/
def resetSession (s : State) : State :=
  if s.cfgv = true ∧ s.dir = false then
    { clearSession s with st := .ready, err := .ok }
  else
    { clearSession { s with cfgv := false, J0 := 0#128 } with st := .uninit, err := .ok }

/-- R83: the document's `initCipher()`. The staged partial block is folded into the copy only. -/
def snapshot (s : State) : State :=
  let folded := 0 < s.atPos.toNat
  let pre := if folded then ghashPartial s s.S_at s.atBuf.toList s.atPos.toNat else s.S_at
  let len := if folded then s.atLen + s.atPos.setWidth 64 else s.atLen
  { s with S_atPre := pre, atLenPre := len, S := pre, st := .stream }

/-- R83: the snapshot runs once, before the first payload goes through the cipher path. -/
def ensureSnapshot (s : State) : State :=
  if s.st = .stream then s else snapshot s

/-- R130: every register takes its reset value; the parameters of the build, the responses already given and the calls
already made on the port stay (no port call is made by reset); a command in progress, that is what stands on the command
channel, is abandoned with no response (log entry 9). -/
def hardwareReset (s : State) : State :=
  { State.resetWith s.params with resp := s.resp, port := s.port }

end Sys2Proof.Machine
end

