-- ==== Sys2Proof/Machine/Engine.lean ====
section
/-! DEFINITION. The engine's shared internal steps on the payload and the tag (43_engine_commands.md R84 to R88, R93). -/

namespace Sys2Proof.Machine

/-- Write the payload window (R23). -/
def setWindow (held : Vector Byte 32) (pos : BitVec 6) (s : State) : State :=
  { s with buf := held, bufPos := pos }

/-- Write the registers of the cipher path (R18 to R20, R24) and the port trace. -/
def setPath (hash ctr : Block) (rem : BitVec 32) (len : BitVec 64) (port : List PortEvent) (s : State) : State :=
  { s with S := hash, ctr := ctr, blocksRem := rem, payLen := len, port := port }

/-- Write the GHASH accumulator (R20). -/
def setHash (hash : Block) (s : State) : State :=
  { s with S := hash }

/-- R84, R86: count payload bytes that have gone through the cipher path (R24). -/
def addPayload (n : Nat) (s : State) : State :=
  { s with payLen := s.payLen + BitVec.ofNat 64 n }

/-- R84 with the snapshot taken: one full block through the cipher path. In both directions the ciphertext is hashed; in
decryption before the keystream block is made. -/
def cipherBlock (b : Block) (s : State) : Work Bytes :=
  if s.dir then
    match nextKeystreamBlock s with
    | .fails s' code => .fails s' code
    | .done s' ks =>
      let c := b ^^^ ks
      .done (addPayload 16 (setHash (ghashBlock s' s'.S c) s')) (bytesOfBlock c)
  else
    match nextKeystreamBlock (setHash (ghashBlock s s.S b) s) with
    | .fails s' code => .fails s' code
    | .done s' ks => .done (addPayload 16 s') (bytesOfBlock (b ^^^ ks))

/-- R84, `processBlock(B)`. -/
def processBlock (b : Block) (s : State) : Work Bytes :=
  cipherBlock b (ensureSnapshot s)

/-- R85: the window after a block has left it; in decryption the bytes behind the block move to the front. -/
def shiftWindow (held : Bytes) (s : State) : State :=
  if s.dir then setWindow (zeroBuf 32) 0#6 s
  else setWindow (vecOfBytes 32 ((held.take (windowCap s)).drop 16)) (s.macBytes.setWidth 6) s

/-- One iteration of the loop of R85. -/
def absorbByte (b : Byte) (s : State) : Work Bytes :=
  let held := s.buf.setIfInBounds s.bufPos.toNat b
  if s.bufPos.toNat + 1 = windowCap s then
    match processBlock (blockOfBytes (held.toList.take 16)) s with
    | .fails s' code => .fails s' code
    | .done s' out => .done (shiftWindow held.toList s') out
  else
    .done (setWindow held (s.bufPos + 1#6) s) []

/-- R85, `absorb(d)`: the output bytes of all blocks completed. -/
def absorb : Bytes → State → Work Bytes
  | [], s => .done s []
  | b :: rest, s =>
    match absorbByte b s with
    | .fails s' code => .fails s' code
    | .done s' out =>
      match absorb rest s' with
      | .fails s'' code => .fails s'' code
      | .done s'' outs => .done s'' (out ++ outs)

/-- R86 with the snapshot taken: the last, partial block, `buf[0..n)`. -/
def cipherPartial (n : Nat) (s : State) : Work Bytes :=
  let src := s.buf.toList.take n
  let s1 := if s.dir then s else setHash (ghashPartial s s.S src n) s
  match nextKeystreamBlock s1 with
  | .fails s' code => .fails s' code
  | .done s' ks =>
    let res := xorBytes src ((bytesOfBlock ks).take n)
    .done (addPayload n (if s'.dir then setHash (ghashPartial s' s'.S res n) s' else s')) res

/-- R86, `processPartial(n)`; nothing when no byte is left (R93). -/
def processPartial (n : Nat) (s : State) : Work Bytes :=
  if n = 0 then .done s [] else cipherPartial n (ensureSnapshot s)

/-- R87: the hash of all associated data, its last block zero-padded. -/
def finalAadHash (s : State) : Block :=
  if 0 < s.atPos.toNat then ghashPartial s s.S_at s.atBuf.toList s.atPos.toNat else s.S_at

/-- R87: reconciliation of late associated data. -/
def reconcile (s : State) : State :=
  if s.atLenPre.toNat < aadTotal s then
    setHash (s.S ^^^ gfMul (finalAadHash s ^^^ s.S_atPre) (gfPow s.H (blocksOf s.payLen.toNat))) s
  else s

/-- R88: the length block of an AAD length and a payload length in bytes. -/
def lengthBlock (aadLen payLen : Nat) : Block :=
  blockOfBytes (be64 (8 * aadLen) ++ be64 (8 * payLen))

/-- R88: fold the length block. -/
def foldLengths (s : State) : State :=
  setHash (ghashBlock s s.S (lengthBlock (aadTotal s) s.payLen.toNat)) s

/-- R88, `ComputeTag`: the tag, and the state after the length block and the call on `J0`. -/
def computeTag (s : State) : State × Bytes :=
  let s' := foldLengths s
  (portEnc s'.J0 s', (bytesOfBlock (cipherE s' s'.J0 ^^^ s'.S)).take s'.macBytes.toNat)

/-- R93: the payload bytes left in the window after all input is in; in decryption the tag stands behind them. -/
def extraBytes (s : State) : Nat :=
  if s.dir then s.bufPos.toNat else s.bufPos.toNat - s.macBytes.toNat

/-- R93: the received tag, `buf[extra .. extra + macBytes)`. -/
def receivedTag (s : State) : Bytes :=
  (s.buf.toList.drop (extraBytes s)).take s.macBytes.toNat

/-- R93 from the partial block to the tag: the ending's output and the tag. -/
def finishPayload (s : State) : Work (Bytes × Bytes) :=
  match processPartial (extraBytes s) (ensureSnapshot s) with
  | .fails s' code => .fails s' code
  | .done s' out =>
    let r := computeTag (reconcile s')
    if r.1.dir then .done r.1 (out ++ r.2, r.2)
    else if tagEqual r.2 (receivedTag s) then .done r.1 (out, r.2)
    else .fails r.1 .authenticationFailed

/-- R93: all of FINAL's work; the output bytes and the tag. -/
def finalWork (data : Bytes) (s : State) : Work (Bytes × Bytes) :=
  match absorb data s with
  | .fails s' code => .fails s' code
  | .done s' out1 =>
    if s'.dir = false ∧ s'.bufPos.toNat < s'.macBytes.toNat then .fails s' .authenticationFailed
    else
      match finishPayload s' with
      | .fails s'' code => .fails s'' code
      | .done s'' r => .done s'' (out1 ++ r.1, r.2)

/-- R93's ending: the session cleared, the tag kept in `macReg`, `st` DONE. -/
def endSession (tag : Bytes) (s : State) : State :=
  { clearSession s with macReg := vecOfBytes 16 tag, st := .done }

end Sys2Proof.Machine
end

