-- ==== Sys2Proof/Machine/Payload.lean ====
section
/-! DEFINITION. The streaming commands: AAD (43_engine_commands.md R91), PROC (R92) and FINAL (R93). -/

namespace Sys2Proof.Machine

/-- `AAD` (R91). -/
def execAad (data : Bytes) (s : State) : Host.Outcome State Fault Refusal :=
  match aadFailure data s with
  | some code => .next (fail code s)
  | none => .next (respond .ok [] (aadIngest data s))

/-- `PROC` (R92). -/
def execProc (data : Bytes) (s : State) : Host.Outcome State Fault Refusal :=
  match payFailure data s with
  | some code => .next (fail code s)
  | none =>
    match absorb data s with
    | .fails s' code => .next (fail code s')
    | .done s' out => .next (respond .ok out s')

/-- `FINAL` (R93). -/
def execFinal (data : Bytes) (s : State) : Host.Outcome State Fault Refusal :=
  match payFailure data s with
  | some code => .next (fail code s)
  | none =>
    match finalWork data s with
    | .fails s' code => .next (fail code s')
    | .done s' r => .next (respond .ok r.1 (endSession r.2 s'))

end Sys2Proof.Machine
end

