-- ==== Sys2Proof/Machine/Query.lean ====
section
/-! DEFINITION. The queries: GETMAC (43_engine_commands.md R94), OUTSZ (R96) and UPDSZ (R97). They are legal in every state,
never fail and change no register. -/

namespace Sys2Proof.Machine

/-- `GETMAC` (R94). -/
def execGetmac (s : State) : Host.Outcome State Fault Refusal :=
  .next (respond .ok (macOut s) s)

/-- `OUTSZ` (R96). -/
def execOutsz (len : Word) (s : State) : Host.Outcome State Fault Refusal :=
  .next (respond .ok (be64 (outSize len.toNat s)) s)

/-- `UPDSZ` (R97). -/
def execUpdsz (len : Word) (s : State) : Host.Outcome State Fault Refusal :=
  .next (respond .ok (be64 (updSize len.toNat s)) s)

end Sys2Proof.Machine
end

