-- ==== Sys2Proof/Machine/Session.lean ====
section
/-! DEFINITION. The commands that begin and end a session: INIT (43_engine_commands.md R90) and RESET (R95). -/

namespace Sys2Proof.Machine

/-- R90's key step: the key, `LoadKey`, `H = E(key, 0^128)` and the tables. -/
def loadNewKey (key : Bytes) (s : State) : State :=
  let loaded := portLoad key { s with key := key, kv := true }
  multInit (cipherE loaded 0#128) (portEnc 0#128 loaded)

/-- R90: the key in force after the key step. -/
def initKey (keyv : Bool) (key : Bytes) (s : State) : State :=
  if keyChanged keyv key s then loadNewKey key s else s

/-- R90: the configuration of the session, with `J0` from the subkey now in force, and the session registers cleared. -/
def initConfigure (dir : Bool) (macbits : BitVec 8) (nonce : Bytes) (s : State) : State :=
  clearSession { s with dir := dir, macBytes := macBytesOf macbits, J0 := deriveJ0 s nonce, cfgv := true }

/-- R90, R16: the nonce-reuse memory, written by an encryption INIT only. -/
def initRemember (dir : Bool) (nonce : Bytes) (s : State) : State :=
  if dir then { s with lastEncKey := s.key, lastEncNonce := nonce, lev := true } else s

/-- R90 after the checks. -/
def initCommit (dir keyv : Bool) (macbits : BitVec 8) (key nonce aad : Bytes) (s : State) : State :=
  let s1 := initConfigure dir macbits nonce (initKey keyv key s)
  let s2 := initRemember dir nonce { s1 with err := .ok }
  aadIngest aad { s2 with st := .ready }

/-- `INIT` (R90). -/
def execInit (dir keyv : Bool) (macbits : BitVec 8) (key nonce aad : Bytes) (s : State) :
    Host.Outcome State Fault Refusal :=
  match initFailure dir keyv macbits key nonce aad s with
  | some code => .next (fail code s)
  | none => .next (respond .ok [] (initCommit dir keyv macbits key nonce aad s))

/-- `RESET` (R95). -/
def execReset (s : State) : Host.Outcome State Fault Refusal :=
  .next (respond .ok [] (resetSession s))

end Sys2Proof.Machine
end

