-- ==== Sys2Proof/Machine/Dispatch.lean ====
section
/-! DEFINITION. One arm for each command. -/

namespace Sys2Proof.Machine

def exec (i : Instr) (s : State) : Host.Outcome State Fault Refusal :=
  match i with
  | .init dir keyv macbits key nonce aad => Sys2Proof.Machine.execInit dir keyv macbits key nonce aad s
  | .aad data => Sys2Proof.Machine.execAad data s
  | .proc data => Sys2Proof.Machine.execProc data s
  | .final data => Sys2Proof.Machine.execFinal data s
  | .getmac => Sys2Proof.Machine.execGetmac s
  | .reset => Sys2Proof.Machine.execReset s
  | .outsz len => Sys2Proof.Machine.execOutsz len s
  | .updsz len => Sys2Proof.Machine.execUpdsz len s

end Sys2Proof.Machine
end

