-- ==== Sys2Proof/Machine/Run.lean ====
section
/-! DEFINITION. Taking the next command from the command channel (20_memory.md R31, R36; 43_engine_commands.md R81). -/

namespace Sys2Proof.Machine

/-- What stands at the front of the command channel. -/
def fetch (s : State) : Fetched :=
  decode s.chan

/-- Run what was fetched. A command's `dlen` data bytes leave the channel with it whatever its outcome (R31, R114); an
illegal descriptor takes no data and ends in `Fail(InvalidParameter)` (R45). An empty channel leaves the core waiting
(R29). -/
def runFetched (f : Fetched) (s : State) : Host.Outcome State Fault Refusal :=
  match f with
  | .empty => .next s
  | .shortDescriptor => .fault .descriptorUnderrun
  | .shortData _ => .fault .dataUnderrun
  | .illegal _ rest => .next (fail .invalidParameter { s with chan := rest })
  | .command i rest => exec i { s with chan := rest }

/-- One step: hardware reset if its input is asserted (R130), else the next command, whole (R36). -/
def runNext (s : State) : Host.Outcome State Fault Refusal :=
  if s.resetIn then .next (hardwareReset s) else runFetched (fetch s) s

/-- The host offers bytes on the command channel (R31). -/
def offer (bs : Bytes) (s : State) : State :=
  { s with chan := s.chan ++ bs }

/-- The command a table word stands for, put where the next fetch finds it: at the front of the command channel, with the
zero data bytes it announces, the reset input not asserted (log entry 5). -/
def placeTableWord (nbits w : Nat) (s : State) : State :=
  { s with chan := tableBytes nbits w ++ s.chan, resetIn := false }

end Sys2Proof.Machine
end

