-- ==== Sys2Proof/Machine/Step.lean ====
section
/-! DEFINITION. The step of the machine, and where it fetches its next instruction. -/

namespace Sys2Proof.Machine

/-- One step of the core: one command, or one hardware reset, or waiting for a command. -/
def step (s : State) : Host.Outcome State Fault Refusal :=
  runNext s

/-- `s` with the instruction whose bits are `w` standing where `step` fetches its next instruction. -/
def State.withFetchWord (s : State) (nbits w : Nat) : State :=
  placeTableWord nbits w s

end Sys2Proof.Machine
end

