-- ==== Sys2Proof/Machine/Assembler.lean ====
section
/-! DEFINITION. The textual syntax of 30_encoding.md R50 and the pseudo-commands of R51. -/

namespace Sys2Proof.Machine

/-- One line of R50 or R51. `key = none` is `key=keep`. -/
inductive AsmLine
  | init (dir : Bool) (key : Option Bytes) (nonce aad : Bytes) (mac : Nat)
  | aad (data : Bytes)
  | proc (data : Bytes)
  | final (data : Bytes)
  | getmac
  | reset
  | outsz (n : Nat)
  | updsz (n : Nat)
  | seal (key : Option Bytes) (nonce aad : Bytes) (mac : Nat) (plaintext : Bytes)
  | unseal (key : Option Bytes) (nonce aad : Bytes) (mac : Nat) (stream : Bytes)
  | raw (d : Descriptor) (data : Bytes)
deriving DecidableEq, Repr

/-- R50: the INIT command of a line; `enc` sets `DIR`, a given key sets `KEYV`. -/
def asmInit (dir : Bool) (key : Option Bytes) (nonce aad : Bytes) (mac : Nat) : Instr :=
  .init dir key.isSome (BitVec.ofNat 8 mac) (key.getD []) nonce aad

/-- R50, R51: the commands of a line, with the bounds its numbers must meet; RAW stands for bytes, not for commands. -/
def asmCommands : AsmLine → List Instr × Bool
  | .init dir key nonce aad mac => ([asmInit dir key nonce aad mac], decide (mac < 2 ^ 8))
  | .aad data => ([.aad data], true)
  | .proc data => ([.proc data], true)
  | .final data => ([.final data], true)
  | .getmac => ([.getmac], true)
  | .reset => ([.reset], true)
  | .outsz n => ([.outsz (BitVec.ofNat 32 n)], decide (n < 2 ^ 32))
  | .updsz n => ([.updsz (BitVec.ofNat 32 n)], decide (n < 2 ^ 32))
  | .seal key nonce aad mac plaintext =>
    ([asmInit true key nonce aad mac, .final plaintext], decide (mac < 2 ^ 8))
  | .unseal key nonce aad mac stream =>
    ([asmInit false key nonce aad mac, .final stream], decide (mac < 2 ^ 8))
  | .raw _ _ => ([], true)

/-- The bytes a line sends: each command's descriptor and data; nothing where a number or a length does not fit. -/
def assemble (l : AsmLine) : Option Bytes :=
  match l with
  | .raw d data => some (descriptorBytes d ++ data)
  | l =>
    if (asmCommands l).2 && (asmCommands l).1.all (fun i => decide (illFormed i = none)) then
      some ((asmCommands l).1.flatMap encode)
    else none

/-- The words of a line, split at spaces. -/
def splitSpaces : List Char → List (List Char)
  | [] => []
  | c :: rest =>
    if c = ' ' then splitSpaces rest
    else match rest with
      | [] => [[c]]
      | c' :: _ =>
        if c' = ' ' then [c] :: splitSpaces rest
        else match splitSpaces rest with
          | [] => [[c]]
          | w :: ws => (c :: w) :: ws

/-- One hex digit, in either case. -/
def hexDigit (c : Char) : Option Nat :=
  let n := c.toNat
  if 48 ≤ n ∧ n ≤ 57 then some (n - 48)
  else if 97 ≤ n ∧ n ≤ 102 then some (n - 87)
  else if 65 ≤ n ∧ n ≤ 70 then some (n - 55)
  else none

/-- A byte string in hex, an even number of digits, leftmost byte first. -/
def hexPairs : List Char → Option Bytes
  | [] => some []
  | [_] => none
  | a :: b :: rest =>
    match hexDigit a, hexDigit b, hexPairs rest with
    | some x, some y, some bs => some (BitVec.ofNat 8 (16 * x + y) :: bs)
    | _, _, _ => none

/-- A byte string of R50: hex, or `-` for the empty string. -/
def parseBytes (w : List Char) : Option Bytes :=
  if w = ['-'] then some [] else if w.isEmpty then none else hexPairs w

/-- A number in a base, at least one digit. -/
def parseNat (base : Nat) (w : List Char) : Option Nat :=
  if w.isEmpty then none
  else w.foldl (fun acc c =>
    match acc, hexDigit c with
    | some n, some d => if d < base then some (base * n + d) else none
    | _, _ => none) (some 0)

/-- The value of a `name=value` word. -/
def valueOf (name w : List Char) : Option (List Char) :=
  if (name ++ ['=']).isPrefixOf w then some (w.drop (name.length + 1)) else none

/-- The value that the first word of that name gives. -/
def fieldOf (name : List Char) (ws : List (List Char)) : Option (List Char) :=
  ws.findSome? (valueOf name)

/-- The words of a line that are no `name=value`. -/
def plainWords (ws : List (List Char)) : List (List Char) :=
  ws.filter fun w => !w.contains '='

/-- The `key=`, `nonce=`, `aad=` and `mac=` of a line, with R50's defaults: no associated data, 128 bits. -/
def parseInitFields (ws : List (List Char)) : Option (Option Bytes × Bytes × Bytes × Nat) :=
  match fieldOf "key".toList ws, (fieldOf "nonce".toList ws).bind parseBytes with
  | some k, some nonce =>
    match (if k = "keep".toList then some none else (parseBytes k).map some),
      parseBytes ((fieldOf "aad".toList ws).getD ['-']),
      parseNat 10 ((fieldOf "mac".toList ws).getD "128".toList) with
    | some key, some aad, some mac => some (key, nonce, aad, mac)
    | _, _, _ => none
  | _, _ => none

/-- The operand of a data command; FINAL may have none. -/
def parseOperand (ws : List (List Char)) (optional : Bool) : Option Bytes :=
  match ws with
  | [] => if optional then some [] else none
  | [w] => parseBytes w
  | _ => none

/-- The number a size query asks about. -/
def parseSize (ws : List (List Char)) : Option Nat :=
  match ws with
  | [w] => parseNat 10 w
  | _ => none

/-- The line of an INIT, SEAL or OPEN from its fields and its one plain word. -/
def parseSession (make : Option Bytes → Bytes → Bytes → Nat → List Char → Option AsmLine) (ws : List (List Char)) :
    Option AsmLine :=
  match parseInitFields ws, plainWords ws with
  | some (key, nonce, aad, mac), [w] => make key nonce aad mac w
  | _, _ => none

/-- `RAW <W0> <W1> <W2> <W3> [<hex>]` (R50), the words in hex. -/
def parseRaw (ws : List (List Char)) : Option AsmLine :=
  match (ws.take 4).map (parseNat 16), parseOperand (ws.drop 4) true with
  | [some a, some b, some c, some d], some data =>
    if a < 2 ^ 32 ∧ b < 2 ^ 32 ∧ c < 2 ^ 32 ∧ d < 2 ^ 32 then
      some (.raw { w0 := BitVec.ofNat 32 a, w1 := BitVec.ofNat 32 b, w2 := BitVec.ofNat 32 c, w3 := BitVec.ofNat 32 d } data)
    else none
  | _, _ => none

/-- The direction word of INIT. -/
def parseDirection (w : List Char) : Option Bool :=
  if w = "enc".toList then some true else if w = "dec".toList then some false else none

/-- A line from its mnemonic and its other words (R50, R51). -/
def parseWords (mnemonic : List Char) (ws : List (List Char)) : Option AsmLine :=
  if mnemonic = "INIT".toList then
    parseSession (fun key nonce aad mac w => (parseDirection w).map fun dir => .init dir key nonce aad mac) ws
  else if mnemonic = "AAD".toList then (parseOperand ws false).map .aad
  else if mnemonic = "PROC".toList then (parseOperand ws false).map .proc
  else if mnemonic = "FINAL".toList then (parseOperand ws true).map .final
  else if mnemonic = "GETMAC".toList then if ws.isEmpty then some .getmac else none
  else if mnemonic = "RESET".toList then if ws.isEmpty then some .reset else none
  else if mnemonic = "OUTSZ".toList then (parseSize ws).map .outsz
  else if mnemonic = "UPDSZ".toList then (parseSize ws).map .updsz
  else if mnemonic = "SEAL".toList then
    parseSession (fun key nonce aad mac w => (parseBytes w).map fun p => .seal key nonce aad mac p) ws
  else if mnemonic = "OPEN".toList then
    parseSession (fun key nonce aad mac w => (parseBytes w).map fun c => .unseal key nonce aad mac c) ws
  else if mnemonic = "RAW".toList then parseRaw ws
  else none

/-- A line of text (R50, R51). -/
def parseLine (line : String) : Option AsmLine :=
  match splitSpaces line.toList with
  | [] => none
  | mnemonic :: ws => parseWords mnemonic ws

/-- The bytes a program of text lines sends on the command channel. -/
def assembleText : List String → Option Bytes
  | [] => some []
  | line :: rest =>
    match (parseLine line).bind assemble, assembleText rest with
    | some b, some bs => some (b ++ bs)
    | _, _ => none

end Sys2Proof.Machine
end

