-- ==== Sys2Proof/Machine/Cores.lean ====
section
/-! DEFINITION. Several cores (60_exceptions.md R125): independent copies of the state, one command addressed to one copy at
a time. -/

namespace Sys2Proof.Machine

/-- Core number `i` takes one step; the others keep their states. DESIGN CHOICE, both in log entry 15: a number no core has
changes nothing; and where core `i` is stuck (its channel is short, 70_reset_and_hazards.md R139), its fault is the outcome
for all the cores. Input I23 lets a model refuse; that the other cores stop with it is the model's choice. -/
def stepCore (i : Nat) (cores : List State) : Host.Outcome (List State) Fault Refusal :=
  match cores[i]? with
  | none => .next cores
  | some s =>
    match step s with
    | .next s' => .next (cores.set i s')
    | .fault reason => .fault reason
    | .refused reason => .refused reason

/-- The cores step in the order a schedule names them, while every step gives a next state. A schedule that steps a stuck
core gives nothing for any core (DESIGN CHOICE, log entry 15). -/
def runCores : List Nat → List State → Option (List State)
  | [], cores => some cores
  | i :: schedule, cores =>
    match stepCore i cores with
    | .next cores' => runCores schedule cores'
    | .fault _ => none
    | .refused _ => none

/-- One core takes `n` steps, while every step gives a next state. -/
def runCore : Nat → State → Option State
  | 0, s => some s
  | n + 1, s =>
    match step s with
    | .next s' => runCore n s'
    | .fault _ => none
    | .refused _ => none

end Sys2Proof.Machine
end

