-- ==== Sys2Proof/Machine/Reference.lean ====
section
/-! DEFINITION. What the rules say a whole run comes to, written without the machine's loops: the counter-mode stream and
the hash of a byte string (42_counter.md R76, 41_ghash.md R73), the effect of PROC and FINAL on the window's bytes
(43_engine_commands.md R84 to R88, R92, R93), and the function of a whole session (R100). -/

namespace Sys2Proof.Machine

/-- `GHASH_H(Y, m)` of R73 with the product of R63. -/
def ghashRef (h y : Block) (m : Bytes) : Block :=
  ghashWith (fun x => gfMul x h) y m

/-- `inc32` of R76 applied `n` times. -/
def inc32n : Nat → Block → Block
  | 0, c => c
  | n + 1, c => inc32n n (inc32 c)

/-- R100: byte `i` of the keystream that follows a counter block, under the cipher `e`. -/
def keystreamByte (e : Block → Block) (c : Block) (i : Nat) : Byte :=
  (bytesOfBlock (e (inc32n (i / 16 + 1) c))).getD (i % 16) 0#8

/-- R100: a byte string XORed with the keystream that follows a counter block. -/
def gctr (e : Block → Block) (c : Block) (m : Bytes) : Bytes :=
  m.mapIdx fun i b => b ^^^ keystreamByte e c i

/-- R33: the cipher-port events of `n` keystream blocks after a counter block. -/
def keystreamEvents (n : Nat) (c : Block) : List PortEvent :=
  (List.range n).map fun i => .enc (inc32n (i + 1) c)

/-- R85: how many blocks a window of `total` bytes releases. -/
def blocksReleased (s : State) (total : Nat) : Nat :=
  if s.dir then total / 16 else (total - s.macBytes.toNat) / 16

/-- The associated data staged, then that of a command. -/
def pendingAad (data : Bytes) (s : State) : Bytes :=
  stagedBytes s ++ data

/-- The state that ingesting associated data leaves (R72): the full blocks of what was staged and what came folded into
`S_at`, the rest staged. -/
def aadState (data : Bytes) (s : State) : State :=
  let m := pendingAad data s
  let q := m.length / 16
  setAad (ghashRunWith (mulH s) q s.S_at m) (s.atLen + BitVec.ofNat 64 (16 * q)) (vecOfBytes 16 (m.drop (16 * q)))
    (BitVec.ofNat 4 (m.length - 16 * q)) s

/-- The state a successful INIT leaves before it ingests its associated data (R90): every register but the build's
parameters and the channels, `h` being the subkey now in force. -/
def initState (dir keyv : Bool) (macbits : BitVec 8) (key nonce : Bytes) (s : State) : State :=
  let k := if keyv then key else s.key
  let changed := keyv && (!s.kv || key != s.key)
  let h := if changed then encryptWith s.params.cipher key 0#128 else s.H
  let j0 := deriveJ0With (fun x => gfMul x h) nonce
  { params := s.params, st := .ready, err := .ok, dir := dir, macBytes := BitVec.ofNat 5 (macbits.toNat / 8), kv := true
    key := k, H := h, M := tablesFor s.params.multImpl h, lev := dir || s.lev
    lastEncKey := if dir then k else s.lastEncKey, lastEncNonce := if dir then nonce else s.lastEncNonce, cfgv := true
    J0 := j0, ctr := j0, blocksRem := 0xFFFFFFFE#32, S := 0#128, S_at := 0#128, S_atPre := 0#128, atBuf := zeroBuf 16
    atPos := 0#4, atLen := 0#64, atLenPre := 0#64, buf := zeroBuf 32, bufPos := 0#6, payLen := 0#64, macReg := zeroBuf 16
    chan := s.chan, resp := s.resp, port := s.port ++ (if changed then [.load key, .enc 0#128] else [])
    resetIn := s.resetIn }

/-- The payload bytes that are in the window, then those of the command. -/
def pending (data : Bytes) (s : State) : Bytes :=
  windowBytes s ++ data

/-- The ciphertext of payload bytes that go through the cipher path from state `s` (R84). -/
def ciphertextOf (x : Bytes) (s : State) : Bytes :=
  if s.dir then gctr (cipherE s) s.ctr x else x

/-- The state after the payload bytes `x`, `n` blocks of them, have gone through the cipher path from state `s` (R84, R33):
the snapshot taken, the ciphertext hashed, the counters and the port trace moved on. -/
def pathState (n : Nat) (x : Bytes) (s : State) : State :=
  setPath (ghashWith (mulH s) (ensureSnapshot s).S (ciphertextOf x s)) (inc32n n s.ctr) (s.blocksRem - BitVec.ofNat 32 n)
    (s.payLen + BitVec.ofNat 64 x.length) (s.port ++ keystreamEvents n s.ctr) (ensureSnapshot s)

/-- The output bytes of PROC (R92). -/
def procOutput (data : Bytes) (s : State) : Bytes :=
  gctr (cipherE s) s.ctr ((pending data s).take (16 * blocksReleased s (pending data s).length))

/-- The state PROC leaves before its response (R84, R85, R92): the bytes of the released blocks hashed as ciphertext, the
counters moved, the rest kept in the window; with no block released only the window changes. -/
def procState (data : Bytes) (s : State) : State :=
  let m := pending data s
  let n := blocksReleased s m.length
  setWindow (vecOfBytes 32 (m.drop (16 * n))) (BitVec.ofNat 6 (m.length - 16 * n))
    (if n = 0 then s else pathState n (m.take (16 * n)) s)

/-- The last payload bytes that FINAL sends through the cipher path; in decryption the tag behind them is not payload. -/
def finalPayload (data : Bytes) (s : State) : Bytes :=
  if s.dir then pending data s else (pending data s).take ((pending data s).length - s.macBytes.toNat)

/-- The received tag of a decryption stream: its last `macBytes` bytes (R93). -/
def finalReceived (data : Bytes) (s : State) : Bytes :=
  (pending data s).drop ((pending data s).length - s.macBytes.toNat)

/-- The accumulator after the last payload bytes `x` (R84, R86), before reconciliation. -/
def finalHash (x : Bytes) (s : State) : Block :=
  ghashWith (mulH s) (ensureSnapshot s).S (ciphertextOf x s)

/-- The accumulator after reconciliation of late associated data (R87). -/
def finalReconciled (x : Bytes) (s : State) : Block :=
  if (ensureSnapshot s).atLenPre.toNat < aadTotal s then
    finalHash x s ^^^
      gfMul (finalAadHash s ^^^ (ensureSnapshot s).S_atPre) (gfPow s.H (blocksOf (s.payLen.toNat + x.length)))
  else finalHash x s

/-- The tag FINAL computes when `x` are the last payload bytes (R88). -/
def finalTag (x : Bytes) (s : State) : Bytes :=
  (bytesOfBlock
    (cipherE s s.J0 ^^^ mulH s (finalReconciled x s ^^^ lengthBlock (aadTotal s) (s.payLen.toNat + x.length)))).take
    s.macBytes.toNat

/-- The cipher-port events of FINAL when `x` are the last payload bytes (R33). -/
def finalEvents (x : Bytes) (s : State) : List PortEvent :=
  keystreamEvents (blocksOf x.length) s.ctr ++ [.enc s.J0]

/-- R100: the tag of GCM, before truncation, from the cipher under the key, the initial counter block, all associated data
and all ciphertext. -/
def gcmTagBlock (e : Block → Block) (j0 : Block) (aad ciphertext : Bytes) : Block :=
  e j0 ^^^ ghashRef (e 0#128) 0#128
    (padBlocks aad ++ padBlocks ciphertext ++ be64 (8 * aad.length) ++ be64 (8 * ciphertext.length))

/-- R100: `T`. -/
def gcmTag (e : Block → Block) (j0 : Block) (aad ciphertext : Bytes) (t : Nat) : Bytes :=
  (bytesOfBlock (gcmTagBlock e j0 aad ciphertext)).take t

/-- R100, R75: `J0` from the cipher under the key and the nonce. -/
def gcmJ0 (e : Block → Block) (nonce : Bytes) : Block :=
  deriveJ0With (fun x => gfMul x (e 0#128)) nonce

/-- R100: the output stream of an encryption session, `C || T`. -/
def gcmSeal (e : Block → Block) (nonce aad plaintext : Bytes) (t : Nat) : Bytes :=
  let c := gctr e (gcmJ0 e nonce) plaintext
  c ++ gcmTag e (gcmJ0 e nonce) aad c t

end Sys2Proof.Machine
end

