-- ==== Sys2Proof/Safety.lean ====
section
/-! DEFINITION. The terms claims use: the invariants that hold between commands (10_state.md R27), and runs in which every
command succeeds. -/

namespace Sys2Proof.Machine

/-- Every register that ClearSession writes, `macReg` apart, holds its cleared value (R27 item 6, R80). -/
structure SessionCleared (s : State) : Prop where
  ctr : s.ctr = s.J0
  blocksRem : s.blocksRem = Config.budget0
  S : s.S = 0#128
  S_at : s.S_at = 0#128
  S_atPre : s.S_atPre = 0#128
  atBuf : s.atBuf = zeroBuf 16
  atPos : s.atPos = 0#4
  atLen : s.atLen = 0#64
  atLenPre : s.atLenPre = 0#64
  buf : s.buf = zeroBuf 32
  bufPos : s.bufPos = 0#6
  payLen : s.payLen = 0#64

/-- No payload has gone through the cipher path (R27 item 3). -/
structure NoPayloadYet (s : State) : Prop where
  payLen : s.payLen = 0#64
  S : s.S = 0#128
  S_atPre : s.S_atPre = 0#128
  atLenPre : s.atLenPre = 0#64
  ctr : s.ctr = s.J0
  blocksRem : s.blocksRem = Config.budget0

/-- Payload has gone through the cipher path, and the counters agree on how much (R27 items 4 and 11). -/
structure Streaming (s : State) : Prop where
  whole_blocks : s.payLen.toNat % 16 = 0
  one_block : 16 ≤ s.payLen.toNat
  budget : s.blocksRem.toNat + s.payLen.toNat / 16 = Config.budget0.toNat
  counter : s.ctr = inc32n (s.payLen.toNat / 16) s.J0
  held : s.dir = false → s.macBytes.toNat ≤ s.bufPos.toNat

/-- The invariants of R27 (with those of R11, R22 and R78, and what their induction needs): they hold at reset and every
step keeps them. The second sentence of item 12 speaks of the session's associated data, which no register holds: it is
`HoldsAad`. -/
structure Inv (s : State) : Prop where
  /-- Item 1. -/
  atLen_blocks : s.atLen.toNat % 16 = 0
  /-- Item 2. -/
  window : s.bufPos.toNat < windowCap s
  /-- Item 9. -/
  macBytes_range : 4 ≤ s.macBytes.toNat ∧ s.macBytes.toNat ≤ 16
  /-- Item 3. -/
  ready : s.st = .ready → NoPayloadYet s
  /-- Items 4 and 11. -/
  stream : s.st = .stream → Streaming s
  /-- Item 5; in DONE too (43_engine_commands.md R98, the note under its table). -/
  configured : s.st = .ready ∨ s.st = .stream ∨ s.st = .done → s.cfgv = true
  /-- R17, R29, R95: UNINIT is entered with no session configured and `J0` zero. -/
  unconfigured : s.st = .uninit → s.cfgv = false ∧ s.J0 = 0#128
  /-- Item 5, for every configured session. -/
  keyed : s.cfgv = true → s.kv = true
  /-- Item 6. -/
  cleared : s.st = .uninit ∨ s.st = .done ∨ s.st = .failed → SessionCleared s
  /-- Item 6 and R26: `macReg` is zero except between a successful FINAL and the next command that clears it. -/
  macReg_zero : s.st ≠ .done → s.macReg = zeroBuf 16
  /-- Item 7. -/
  ceiling : s.st = .ready ∨ s.st = .stream →
    aadTotal s + payEff s (s.payLen.toNat + s.bufPos.toNat) ≤ Config.ceil
  /-- Item 8, R14. -/
  subkey : s.kv = true → s.H = cipherE s 0#128
  /-- Item 8. -/
  remembered_key : s.lev = true → s.kv = true
  /-- R15: the tables are those of the subkey. -/
  tables : s.M = tablesFor s.params.multImpl s.H
  /-- Item 10. -/
  atBuf_canonical : s.atBuf = vecOfBytes 16 (stagedBytes s)
  /-- Item 10. -/
  buf_canonical : s.buf = vecOfBytes 32 (windowBytes s)
  /-- Item 12, first sentence. -/
  snapshot_covers : s.atLenPre.toNat ≤ aadTotal s
  /-- R22. -/
  snapshot_empty : s.atLenPre = 0#64 → s.S_atPre = 0#128
  /-- R21, R72: with no full block ingested the accumulator is still zero. -/
  accumulator_empty : s.atLen = 0#64 → s.S_at = 0#128
  /-- R11. -/
  err_failed : s.err ≠ .ok ↔ s.st = .failed
  /-- R16. -/
  remembered_nonce : s.lev = true → 1 ≤ s.lastEncNonce.length ∧ s.lastEncNonce.length ≤ s.params.nonceMax

/-- The AAD registers are those of a session whose associated data so far are `a` (R21, R22, R72): its full blocks are in
`S_at`, the rest is staged, and in STREAM the snapshot is the GHASH of the first `atLenPre` bytes, the last block
zero-padded (R27 item 12, second sentence; R83). Outside a session `a` is empty. -/
structure HoldsAad (a : Bytes) (s : State) : Prop where
  total : aadTotal s = a.length
  accumulator : s.S_at = ghashRef s.H 0#128 (a.take s.atLen.toNat)
  staged : stagedBytes s = a.drop s.atLen.toNat
  /-- Item 12, second sentence. -/
  snapshot : s.st = .stream → s.S_atPre = ghashRef s.H 0#128 (a.take s.atLenPre.toNat)

/-- The ceiling test of AAD is not true (43_engine_commands.md R82). -/
abbrev aadFits (s : State) (len : Nat) : Prop :=
  aadTotal s + len + payEff s (s.payLen.toNat + s.bufPos.toNat) ≤ 2 ^ 36 - 32

/-- The ceiling test of PROC and FINAL is not true (R82). -/
abbrev payFits (s : State) (len : Nat) : Prop :=
  aadTotal s + payEff s (s.payLen.toNat + s.bufPos.toNat + len) ≤ 2 ^ 36 - 32

/-- The states in which PROC and FINAL are legal (R81). -/
abbrev inSession (s : State) : Prop :=
  s.st = .ready ∨ s.st = .stream

/-- The states in which AAD is legal (R81, R91). -/
abbrev takesAad (s : State) : Prop :=
  s.st = .ready ∨ (s.st = .stream ∧ s.params.lateAad = true)

/-- None of INIT's parameter checks fails (R90, the four `InvalidParameter` lines). -/
structure InitParametersLegal (keyv : Bool) (macbits : BitVec 8) (nonce : Bytes) (s : State) : Prop where
  cbs : s.params.cbs = 16
  mac : 32 ≤ macbits.toNat ∧ macbits.toNat ≤ 128 ∧ macbits.toNat % 8 = 0
  nonce : 1 ≤ nonce.length ∧ nonce.length ≤ s.params.nonceMax
  key : keyv = true ∨ s.kv = true

/-- An encryption INIT that repeats the pair of the last one (R90, R119). -/
abbrev RepeatsPair (dir keyv : Bool) (key nonce : Bytes) (s : State) : Prop :=
  dir = true ∧ s.lev = true ∧ nonce = s.lastEncNonce ∧ (if keyv then key else s.key) = s.lastEncKey

/-- INIT carries a key that differs from the loaded one (R90, D35). -/
abbrev ChangesKey (keyv : Bool) (key : Bytes) (s : State) : Prop :=
  keyv = true ∧ (s.kv = false ∨ key ≠ s.key)

/-- The same core built with another multiplier (R65). -/
def withMultiplier (m : MultImpl) (s : State) : State :=
  { s with params := { s.params with multImpl := m }, M := tablesFor m s.H }

/-- The status of the last response, if there is one. -/
def lastStatus (s : State) : Option Status :=
  s.resp.getLast?.map Response.status

/-- The data of the last response. -/
def lastData (s : State) : Bytes :=
  (s.resp.getLast?.map Response.rdata).getD []

/-- Run commands one after the other as long as each answers OK. -/
def runOk : List Instr → State → Option State
  | [], s => some s
  | i :: rest, s =>
    match exec i s with
    | .next t => if lastStatus t = some .ok then runOk rest t else none
    | .fault _ => none
    | .refused _ => none

/-- Run commands one after the other, whatever they answer. -/
def runAll : List Instr → State → Option State
  | [], s => some s
  | i :: rest, s =>
    match exec i s with
    | .next t => runAll rest t
    | .fault _ => none
    | .refused _ => none

/-- An encryption INIT. -/
def isEncInit : Instr → Bool
  | .init dir _ _ _ _ _ => dir
  | .aad _ => false
  | .proc _ => false
  | .final _ => false
  | .getmac => false
  | .reset => false
  | .outsz _ => false
  | .updsz _ => false

/-- The data of all responses formed since `s`, in order. -/
def outputSince (s t : State) : Bytes :=
  (t.resp.drop s.resp.length).flatMap Response.rdata

/-- AAD and PROC: the commands that may stand between INIT and FINAL in a session (R99). -/
def isStreaming : Instr → Bool
  | .aad _ => true
  | .proc _ => true
  | .init .. => false
  | .final _ => false
  | .getmac => false
  | .reset => false
  | .outsz _ => false
  | .updsz _ => false

/-- The associated data a command carries (R90, R91). -/
def aadOf : Instr → Bytes
  | .init _ _ _ _ _ aad => aad
  | .aad data => data
  | .proc _ => []
  | .final _ => []
  | .getmac => []
  | .reset => []
  | .outsz _ => []
  | .updsz _ => []

/-- The session's associated data after a command that answered in `t`, `a` being those before it: INIT starts them, AAD adds
to them (R90, R91), and whatever clears the session ends them (FINAL, RESET, any failure: R93, R95, R112). -/
def sessionAadAfter (i : Instr) (t : State) (a : Bytes) : Bytes :=
  if lastStatus t = some .ok then
    match i with
    | .init _ _ _ _ _ aad => aad
    | .aad data => a ++ data
    | .proc _ => a
    | .final _ => []
    | .getmac => a
    | .reset => []
    | .outsz _ => a
    | .updsz _ => a
  else []

/-- The session's associated data after a step from `s` to `t`: hardware reset and an illegal descriptor end them too (R130,
R45), and a step that takes nothing keeps them. -/
def stepAadAfter (s t : State) (a : Bytes) : Bytes :=
  if s.resetIn then []
  else
    match fetch s with
    | .empty => a
    | .shortDescriptor => a
    | .shortData _ => a
    | .illegal _ _ => []
    | .command i _ => sessionAadAfter i t a

/-- The payload-stream bytes a command carries (R92, R93). -/
def payloadOf : Instr → Bytes
  | .init .. => []
  | .aad _ => []
  | .proc data => data
  | .final data => data
  | .getmac => []
  | .reset => []
  | .outsz _ => []
  | .updsz _ => []

end Sys2Proof.Machine
end

