-- ==== Sys2Proof/Certificates/Slice0/Obligations.lean ====
section
/-! DEFINITION. The statements for the provers. Each docstring names the rules of spec/ it formalises. -/

open Sys2Proof Sys2Proof.Machine

/-! ## Descriptors (30_encoding.md) -/

/-- The bytes R40 to R43 give a command decode to that command, whatever follows them. -/
def Obligations.DecodeOfEncode : Prop :=
  ∀ (i : Instr) (rest : Bytes), WellFormed i → decode (encode i ++ rest) = .command i rest

/-- Only those bytes do: each command has one encoding, and every command decoded can be announced by a descriptor. -/
def Obligations.EncodeOfDecode : Prop :=
  ∀ (bs : Bytes) (i : Instr) (rest : Bytes), decode bs = .command i rest → WellFormed i ∧ bs = encode i ++ rest

/-- R41: the fields of `W0`, by its equation; `RSV` zero in every legal descriptor, and `DIR`, `KEYV`, `MACBITS` zero in
every legal one but INIT's, which has them as its operands. -/
def Obligations.DescriptorWordFields : Prop :=
  ∀ d : Descriptor,
    d.w0.toNat = (fieldOp d.w0).toNat * 2 ^ 28 + (fieldDir d.w0).toNat * 2 ^ 27 + (fieldKeyv d.w0).toNat * 2 ^ 26
      + (fieldRsv d.w0).toNat * 2 ^ 8 + (fieldMacbits d.w0).toNat ∧
    ∀ h, decodeDescriptor d = .ok h →
      fieldRsv d.w0 = 0#18 ∧
      (fieldOp d.w0 = 1#4 → h = .init (fieldDir d.w0) (fieldKeyv d.w0) (fieldMacbits d.w0) d.w1 d.w2 d.w3) ∧
      (fieldOp d.w0 ≠ 1#4 → fieldDir d.w0 = false ∧ fieldKeyv d.w0 = false ∧ fieldMacbits d.w0 = 0#8)

/-- R45: the illegal descriptors are exactly those of (a) to (e), written in the arithmetic of the words; one takes no data,
changes the state only through `Fail(InvalidParameter)` and returns that status with no data; a legal INIT descriptor with
a tag length or a nonce length INIT rejects gives the same status. -/
def Obligations.IllegalDescriptors : Prop :=
  (∀ d : Descriptor,
    let op := d.w0.toNat / 2 ^ 28
    let dir := d.w0.toNat / 2 ^ 27 % 2
    let keyv := d.w0.toNat / 2 ^ 26 % 2
    let rsv := d.w0.toNat / 2 ^ 8 % 2 ^ 18
    let macbits := d.w0.toNat % 2 ^ 8
    (∃ reason, decodeDescriptor d = .error reason) ↔
      (op = 0 ∨ op ≥ 9) ∨ rsv ≠ 0 ∨
      (op ≠ 1 ∧ (dir ≠ 0 ∨ keyv ≠ 0 ∨ macbits ≠ 0 ∨ d.w2 ≠ 0#32 ∨ d.w3 ≠ 0#32)) ∨
      ((op = 5 ∨ op = 6) ∧ d.w1 ≠ 0#32) ∨
      (op = 1 ∧ keyv = 0 ∧ d.w2 ≠ 0#32)) ∧
  (∀ (s : State) (d : Descriptor) (reason : IllegalReason) (rest : Bytes),
    s.resetIn = false → s.chan = descriptorBytes d ++ rest → decodeDescriptor d = .error reason →
    ∃ t, step s = .next t ∧ t = fail .invalidParameter { s with chan := rest } ∧
      lastStatus t = some .invalidParameter ∧ lastData t = []) ∧
  (∀ (dir keyv : Bool) (macbits : BitVec 8) (key nonce aad : Bytes) (s : State),
    ¬(32 ≤ macbits.toNat ∧ macbits.toNat ≤ 128 ∧ macbits.toNat % 8 = 0) ∨ nonce = [] →
    exec (.init dir keyv macbits key nonce aad) s = .next (fail .invalidParameter s))

/-- R42, R43, R44, R46: what each legal descriptor announces: the command of its `OP`, its operands in `W1` to `W3`, and
how many data bytes follow. -/
def Obligations.LegalDescriptors : Prop :=
  ∀ (d : Descriptor) (h : Header), decodeDescriptor d = .ok h →
    match d.w0.toNat / 2 ^ 28 with
    | 1 => h = .init (fieldDir d.w0) (fieldKeyv d.w0) (fieldMacbits d.w0) d.w1 d.w2 d.w3 ∧
        headerDlen h = d.w1.toNat + d.w2.toNat + d.w3.toNat
    | 2 => h = .aad d.w1 ∧ headerDlen h = d.w1.toNat
    | 3 => h = .proc d.w1 ∧ headerDlen h = d.w1.toNat
    | 4 => h = .final d.w1 ∧ headerDlen h = d.w1.toNat
    | 5 => h = .getmac ∧ headerDlen h = 0
    | 6 => h = .reset ∧ headerDlen h = 0
    | 7 => h = .outsz d.w1 ∧ headerDlen h = 0
    | 8 => h = .updsz d.w1 ∧ headerDlen h = 0
    | _ => False

/-- R53: the spec's worked encodings, word by word. -/
def Obligations.WorkedEncodings : Prop :=
  decode (descriptorBytes ⟨0x1C000080#32, 0x0000000C#32, 0x00000010#32, 0#32⟩ ++
      ((List.range 16).map (BitVec.ofNat 8) ++ List.replicate 12 0#8))
    = .command (.init true true 128#8 ((List.range 16).map (BitVec.ofNat 8)) (List.replicate 12 0#8) []) [] ∧
  decode (descriptorBytes ⟨0x10000060#32, 0x00000004#32, 0#32, 0x00000004#32⟩ ++
      [0xca#8, 0xfe#8, 0xba#8, 0xbe#8, 0xfe#8, 0xed#8, 0xfa#8, 0xce#8])
    = .command (.init false false 96#8 [] [0xca#8, 0xfe#8, 0xba#8, 0xbe#8] [0xfe#8, 0xed#8, 0xfa#8, 0xce#8]) [] ∧
  decode (descriptorBytes ⟨0x20000000#32, 0x00000008#32, 0#32, 0#32⟩ ++
      [0xfe#8, 0xed#8, 0xfa#8, 0xce#8, 0xde#8, 0xad#8, 0xbe#8, 0xef#8])
    = .command (.aad [0xfe#8, 0xed#8, 0xfa#8, 0xce#8, 0xde#8, 0xad#8, 0xbe#8, 0xef#8]) [] ∧
  decode (descriptorBytes ⟨0x30000000#32, 0x00000004#32, 0#32, 0#32⟩ ++ [0x00#8, 0x11#8, 0x22#8, 0x33#8])
    = .command (.proc [0x00#8, 0x11#8, 0x22#8, 0x33#8]) [] ∧
  decode (descriptorBytes ⟨0x40000000#32, 0#32, 0#32, 0#32⟩) = .command (.final []) [] ∧
  decode (descriptorBytes ⟨0x50000000#32, 0#32, 0#32, 0#32⟩) = .command .getmac [] ∧
  decode (descriptorBytes ⟨0x60000000#32, 0#32, 0#32, 0#32⟩) = .command .reset [] ∧
  decode (descriptorBytes ⟨0x70000000#32, 0x00000064#32, 0#32, 0#32⟩) = .command (.outsz 100#32) [] ∧
  decode (descriptorBytes ⟨0x80000000#32, 0x00000064#32, 0#32, 0#32⟩) = .command (.updsz 100#32) []

/-- R50: a line gives the bytes of its commands in order, each of them well-formed, so the first one decodes; the fields
follow the line. -/
def Obligations.AssembledLinesAreLegal : Prop :=
  ∀ (l : AsmLine) (bs : Bytes), assemble l = some bs → (∀ d data, l ≠ .raw d data) →
    (∀ i ∈ (asmCommands l).1, WellFormed i) ∧ bs = (asmCommands l).1.flatMap encode ∧
    (∃ i more, (asmCommands l).1 = i :: more ∧ ∀ rest, decode (bs ++ rest) = .command i (more.flatMap encode ++ rest)) ∧
    (∀ dir key nonce aad mac, l = .init dir key nonce aad mac →
      ∃ macbits : BitVec 8, macbits.toNat = mac ∧
        (asmCommands l).1 = [.init dir key.isSome macbits (key.getD []) nonce aad])

/-- R51: SEAL and OPEN are an INIT and a FINAL, which two steps run; if the INIT fails the FINAL is still issued and fails
with `InvalidState`. -/
def Obligations.PseudoCommands : Prop :=
  ∀ (dir : Bool) (key : Option Bytes) (nonce aad data bs rest : Bytes) (mac : Nat) (s : State),
    assemble (if dir then .seal key nonce aad mac data else .unseal key nonce aad mac data) = some bs →
    s.resetIn = false → s.chan = bs ++ rest →
    let first := step s
    first = exec (asmInit dir key nonce aad mac) { s with chan := encode (.final data) ++ rest } ∧
    ∀ t, first = .next t →
      step t = exec (.final data) { t with chan := rest } ∧
      (lastStatus t ≠ some .ok → ∃ u, step t = .next u ∧ lastStatus u = some .invalidState)

/-- R48 with R110, and the encodings of R10: the codes, none above 5, and the form R47 gives a response as bytes. -/
def Obligations.StatusCodes : Prop :=
  statusCode .ok = 0#8 ∧ statusCode .invalidParameter = 1#8 ∧ statusCode .invalidState = 2#8 ∧
  statusCode .inputTooLarge = 3#8 ∧ statusCode .authenticationFailed = 4#8 ∧ statusCode .nonceReuse = 5#8 ∧
  (∀ c, (statusCode c).toNat ≤ 5) ∧
  fsmCode .uninit = 0#3 ∧ fsmCode .ready = 1#3 ∧ fsmCode .stream = 2#3 ∧ fsmCode .done = 3#3 ∧ fsmCode .failed = 4#3 ∧
  (∀ s, (sideband s).1 = fsmCode s.st ∧ (sideband s).2.toNat = (statusCode s.err).toNat) ∧
  (∀ r, responseBytes r = [statusCode r.status] ++ be64 r.rlen.toNat ++ r.rdata ∧ beNat (be64 r.rlen.toNat) = r.rlen.toNat)

/-! ## The step and hardware reset -/

/-- R31, R36: when the command channel holds a command, a step runs that command whole, on the state with the command's own
bytes taken from the channel, whatever the command then answers. -/
def Obligations.StepRunsDecodedCommand : Prop :=
  (∀ (s : State) (i : Instr) (rest : Bytes),
    s.resetIn = false → decode s.chan = .command i rest → step s = exec i { s with chan := rest }) ∧
  (∀ (s : State) (i : Instr) (rest : Bytes),
    s.resetIn = false → WellFormed i → s.chan = encode i ++ rest → step s = exec i { s with chan := rest })

/-- THE MODEL'S CHOICE (log entries 4, 5, 6): on an empty channel a step changes nothing, and a descriptor or data that
are not all there stop the machine by name. -/
def Obligations.StepOutsideCommands : Prop :=
  ∀ s : State, s.resetIn = false →
    (s.chan = [] → step s = .next s) ∧
    (0 < s.chan.length → s.chan.length < 16 → step s = .fault .descriptorUnderrun) ∧
    (∀ (d : Descriptor) (h : Header) (data : Bytes), decodeDescriptor d = .ok h → s.chan = descriptorBytes d ++ data →
      data.length < headerDlen h → step s = .fault .dataUnderrun)

/-- R130 with the table of R29: the registers after hardware reset. What becomes of the channels is the model's choice (log
entry 9). -/
def Obligations.HardwareReset : Prop :=
  ∀ s : State, s.resetIn = true → ∃ t, step s = .next t ∧
    t.st = .uninit ∧ t.err = .ok ∧ t.dir = false ∧ t.macBytes = 16#5 ∧ t.kv = false ∧ t.key = [] ∧ t.H = 0#128 ∧
    t.M = tablesFor s.params.multImpl 0#128 ∧ t.lev = false ∧ t.lastEncKey = [] ∧ t.lastEncNonce = [] ∧ t.cfgv = false ∧
    t.J0 = 0#128 ∧ t.ctr = 0#128 ∧ t.blocksRem = 0xFFFFFFFE#32 ∧ t.S = 0#128 ∧ t.S_at = 0#128 ∧ t.S_atPre = 0#128 ∧
    t.atBuf = zeroBuf 16 ∧ t.atPos = 0#4 ∧ t.atLen = 0#64 ∧ t.atLenPre = 0#64 ∧ t.buf = zeroBuf 32 ∧ t.bufPos = 0#6 ∧
    t.payLen = 0#64 ∧ t.macReg = zeroBuf 16 ∧
    t.params = s.params ∧ t.port = s.port ∧ t.resp = s.resp ∧ t.chan = [] ∧ t.resetIn = false

/-- The invariants of R27 hold at hardware reset, of every build, with no associated data given. -/
def Obligations.ResetMeetsInvariant : Prop :=
  Inv State.reset ∧ ∀ p : Params, Inv (State.resetWith p) ∧ HoldsAad [] (State.resetWith p)

/-- The invariants of R27 (with those of R11, R15, R16, R17, R22): every step keeps them, from every state that has them. -/
def Obligations.StepKeepsInvariant : Prop :=
  ∀ s t : State, Inv s → step s = .next t → Inv t

/-- R4: the parameters are fixed when the block is built; no command and no reset changes them. -/
def Obligations.BuildParametersFixed : Prop :=
  (∀ s t : State, step s = .next t → t.params = s.params) ∧
  (∀ (i : Instr) (s t : State), exec i s = .next t → t.params = s.params)

/-! ## Responses, the state machine, failures -/

/-- R47: every command, legal or not, gives exactly one response, of this form and with this data. -/
def Obligations.EveryCommandAnswersOnce : Prop :=
  (∀ (i : Instr) (s : State), Inv s → ∃ t r, exec i s = .next t ∧ t.resp = s.resp ++ [r] ∧
    r.rlen.toNat = r.rdata.length ∧
    responseBytes r = [statusCode r.status] ++ be64 r.rdata.length ++ r.rdata ∧
    (r.status ≠ .ok → r.rdata = []) ∧
    (r.status = .ok →
      match i with
      | .init .. => r.rdata = []
      | .aad _ => r.rdata = []
      | .reset => r.rdata = []
      | .proc data =>
        r.rdata = procOutput data s ∧ r.rdata.length % 16 = 0 ∧ r.rdata.length = updSize data.length s
      | .final data =>
        r.rdata = gctr (cipherE s) s.ctr (finalPayload data s) ++ (if s.dir then finalTag (finalPayload data s) s else []) ∧
        r.rdata.length = outSize data.length s
      | .getmac => r.rdata = s.macReg.toList.take s.macBytes.toNat ∧ r.rdata.length = s.macBytes.toNat
      | .outsz n => r.rdata = be64 (outSize n.toNat s) ∧ r.rdata.length = 8
      | .updsz n => r.rdata = be64 (updSize n.toNat s) ∧ r.rdata.length = 8)) ∧
  (∀ (s : State) (reason : IllegalReason) (rest : Bytes), s.resetIn = false → decode s.chan = .illegal reason rest →
    ∃ t, step s = .next t ∧ t.resp = s.resp ++ [{ status := .invalidParameter, rlen := 0#64, rdata := [] }])

/-- R98: the state machine, complete. -/
def Obligations.StateMachineTable : Prop :=
  (∀ (i : Instr) (s t : State), Inv s → exec i s = .next t →
    (lastStatus t ≠ some .ok → t.st = .failed) ∧
    (lastStatus t = some .ok →
      match i with
      | .init .. => t.st = .ready
      | .aad _ => takesAad s ∧ t.st = s.st
      | .proc _ =>
        (s.st = .ready ∧ t.st = if lastData t = [] then .ready else .stream) ∨ (s.st = .stream ∧ t.st = .stream)
      | .final _ => inSession s ∧ t.st = .done
      | .getmac => t.st = s.st
      | .outsz _ => t.st = s.st
      | .updsz _ => t.st = s.st
      | .reset =>
        (s.st = .uninit → t.st = .uninit) ∧
        (s.st = .ready ∨ s.st = .stream ∨ s.st = .done → t.st = if s.dir then .uninit else .ready) ∧
        (s.st = .failed → t.st = if s.cfgv && !s.dir then .ready else .uninit)) ∧
    (i = .getmac ∨ i = .reset ∨ (∃ n, i = .outsz n) ∨ (∃ n, i = .updsz n) → lastStatus t = some .ok)) ∧
  (∀ (s : State) (reason : IllegalReason) (rest : Bytes), s.resetIn = false → decode s.chan = .illegal reason rest →
    ∃ t, step s = .next t ∧ t.st = .failed)

/-- R112 with R114: after any failing command the state is the one before it with exactly `Fail` run on it; only the calls
a FINAL made on the cipher port survive beside that; in FAILED the streaming commands fail. -/
def Obligations.FailureEffects : Prop :=
  ∀ (i : Instr) (s t : State) (code : Status), exec i s = .next t → lastStatus t = some code → code ≠ .ok →
    t = fail code { s with port := t.port } ∧
    t.st = .failed ∧ t.err = code ∧ SessionCleared t ∧ t.macReg = zeroBuf 16 ∧
    t.resp = s.resp ++ [{ status := code, rlen := 0#64, rdata := [] }] ∧
    t.dir = s.dir ∧ t.macBytes = s.macBytes ∧ t.kv = s.kv ∧ t.key = s.key ∧ t.H = s.H ∧ t.M = s.M ∧ t.lev = s.lev ∧
    t.lastEncKey = s.lastEncKey ∧ t.lastEncNonce = s.lastEncNonce ∧ t.cfgv = s.cfgv ∧ t.J0 = s.J0 ∧
    (∀ data, exec (.aad data) t = .next (fail .invalidState t) ∧ exec (.proc data) t = .next (fail .invalidState t) ∧
      exec (.final data) t = .next (fail .invalidState t)) ∧
    (Inv s → (∀ data, i ≠ .final data) → t.port = s.port)

/-- R115: `InvalidParameter` is not retryable: the same command gives the same status again, be it an INIT or an illegal
descriptor; a failed INIT, of whatever status, leaves the key, the configuration and the nonce-reuse memory, and loses the
session. -/
def Obligations.FailedInitKeepsConfiguration : Prop :=
  (∀ (dir keyv : Bool) (macbits : BitVec 8) (key nonce aad : Bytes) (s t : State) (code : Status),
    exec (.init dir keyv macbits key nonce aad) s = .next t → lastStatus t = some code → code ≠ .ok →
    t.kv = s.kv ∧ t.key = s.key ∧ t.H = s.H ∧ t.M = s.M ∧ t.dir = s.dir ∧ t.macBytes = s.macBytes ∧ t.J0 = s.J0 ∧
    t.cfgv = s.cfgv ∧ t.lev = s.lev ∧ t.lastEncKey = s.lastEncKey ∧ t.lastEncNonce = s.lastEncNonce ∧
    t.st = .failed ∧ SessionCleared t ∧ t.port = s.port ∧
    ∃ u, exec (.init dir keyv macbits key nonce aad) t = .next u ∧ lastStatus u = some code) ∧
  (∀ (s t : State) (d : Descriptor) (reason : IllegalReason) (rest : Bytes), s.resetIn = false →
    decodeDescriptor d = .error reason → s.chan = descriptorBytes d ++ (descriptorBytes d ++ rest) → step s = .next t →
    lastStatus t = some .invalidParameter ∧ ∃ u, step t = .next u ∧ lastStatus u = some .invalidParameter)

/-- R120: two commands leave FAILED, RESET and a successful INIT; nothing of the failed session remains. -/
def Obligations.ReturnFromFailure : Prop :=
  ∀ (i : Instr) (s t : State), Inv s → s.st = .failed → exec i s = .next t →
    (t.st ≠ .failed ↔
      lastStatus t = some .ok ∧ (i = .reset ∨ ∃ dir keyv macbits key nonce aad, i = .init dir keyv macbits key nonce aad)) ∧
    (t.st ≠ .failed →
      t.err = .ok ∧ (i = .reset → t.st = if s.cfgv && !s.dir then .ready else .uninit) ∧ (i ≠ .reset → t.st = .ready) ∧
      t.ctr = t.J0 ∧ t.blocksRem = 0xFFFFFFFE#32 ∧ t.S = 0#128 ∧ t.S_atPre = 0#128 ∧ t.atLenPre = 0#64 ∧ t.bufPos = 0#6 ∧
      t.buf = zeroBuf 32 ∧ t.payLen = 0#64 ∧ t.macReg = zeroBuf 16)

/-- R121: a failure while already in FAILED clears what is clear already and replaces `err`; nothing escalates. -/
def Obligations.FailureWhileFailed : Prop :=
  (∀ (i : Instr) (s t : State) (code : Status), Inv s → s.st = .failed → exec i s = .next t →
    lastStatus t = some code → code ≠ .ok →
    t = { s with err := code, resp := s.resp ++ [{ status := code, rlen := 0#64, rdata := [] }] }) ∧
  (∀ (s : State) (reason : IllegalReason) (rest : Bytes), Inv s → s.st = .failed → s.resetIn = false →
    decode s.chan = .illegal reason rest →
    step s = .next { s with chan := rest, err := .invalidParameter, resp := s.resp ++ [{ status := .invalidParameter, rlen := 0#64, rdata := [] }] })

/-! ## INIT -/

/-- R90's checks in the order of R113: which status INIT answers, for every operand and every state. -/
def Obligations.InitStatus : Prop :=
  ∀ (dir keyv : Bool) (macbits : BitVec 8) (key nonce aad : Bytes) (s : State),
    (¬InitParametersLegal keyv macbits nonce s →
      exec (.init dir keyv macbits key nonce aad) s = .next (fail .invalidParameter s)) ∧
    (InitParametersLegal keyv macbits nonce s → RepeatsPair dir keyv key nonce s →
      exec (.init dir keyv macbits key nonce aad) s = .next (fail .nonceReuse s)) ∧
    (InitParametersLegal keyv macbits nonce s → ¬RepeatsPair dir keyv key nonce s → 2 ^ 36 - 32 < aad.length →
      exec (.init dir keyv macbits key nonce aad) s = .next (fail .inputTooLarge s)) ∧
    (InitParametersLegal keyv macbits nonce s → ¬RepeatsPair dir keyv key nonce s → aad.length ≤ 2 ^ 36 - 32 →
      ∃ t, exec (.init dir keyv macbits key nonce aad) s = .next t ∧ lastStatus t = some .ok)

/-- R90: a successful INIT, in every state: every register, the calls on the cipher port, and the associated data. -/
def Obligations.InitStartsSession : Prop :=
  ∀ (dir keyv : Bool) (macbits : BitVec 8) (key nonce aad : Bytes) (s : State), Inv s →
    InitParametersLegal keyv macbits nonce s → ¬RepeatsPair dir keyv key nonce s → aad.length ≤ 2 ^ 36 - 32 →
    exec (.init dir keyv macbits key nonce aad) s =
      .next (respond .ok [] (aadState aad (initState dir keyv macbits key nonce s))) ∧
    (initState dir keyv macbits key nonce s).macBytes.toNat * 8 = macbits.toNat ∧
    (aadState aad (initState dir keyv macbits key nonce s)).atLen.toNat = 16 * (aad.length / 16) ∧
    (aadState aad (initState dir keyv macbits key nonce s)).atPos.toNat = aad.length % 16

/-- R16 and R119: the nonce-reuse memory holds the pair of the last successful encryption INIT; only such an INIT writes it
and only hardware reset clears it; no other command reads it; an INIT that repeats the pair is refused, whatever commands
but an encryption INIT came between. -/
def Obligations.NonceMemory : Prop :=
  (∀ (i : Instr) (s t : State), exec i s = .next t →
    (t.lev = s.lev ∧ t.lastEncKey = s.lastEncKey ∧ t.lastEncNonce = s.lastEncNonce) ∨
    ∃ keyv macbits key nonce aad, i = .init true keyv macbits key nonce aad ∧ lastStatus t = some .ok ∧
      t.lev = true ∧ t.lastEncKey = t.key ∧ t.lastEncKey = (if keyv then key else s.key) ∧ t.lastEncNonce = nonce) ∧
  (∀ (keyv : Bool) (macbits : BitVec 8) (key nonce aad : Bytes) (s t : State),
    exec (.init true keyv macbits key nonce aad) s = .next t → lastStatus t = some .ok →
    t.lev = true ∧ t.lastEncKey = (if keyv then key else s.key) ∧ t.lastEncNonce = nonce) ∧
  (∀ (i : Instr) (s t : State) (b : Bool) (k n : Bytes), isEncInit i = false → exec i s = .next t →
    exec i { s with lev := b, lastEncKey := k, lastEncNonce := n } =
      .next { t with lev := b, lastEncKey := k, lastEncNonce := n }) ∧
  (∀ s : State, s.resetIn = true →
    ∃ t, step s = .next t ∧ t.lev = false ∧ t.lastEncKey = [] ∧ t.lastEncNonce = []) ∧
  (∀ (keyv : Bool) (macbits macbits' : BitVec 8) (key nonce aad aad' : Bytes) (between : List Instr) (s t u : State),
    exec (.init true keyv macbits key nonce aad) s = .next t → lastStatus t = some .ok →
    (∀ i ∈ between, isEncInit i = false) → runAll between t = some u →
    InitParametersLegal true macbits' nonce u →
    exec (.init true true macbits' (if keyv then key else s.key) nonce aad') u = .next (fail .nonceReuse u))

/-- R12, R13, R14, R15, R17, R78: who writes the key, the subkey, the tables, the configuration and `J0`, and what. -/
def Obligations.KeyAndConfigurationWriters : Prop :=
  ∀ (i : Instr) (s t : State), exec i s = .next t →
    ((t.kv = s.kv ∧ t.key = s.key ∧ t.H = s.H ∧ t.M = s.M) ∨
      ∃ dir keyv macbits key nonce aad, i = .init dir keyv macbits key nonce aad ∧ lastStatus t = some .ok ∧
        ChangesKey keyv key s ∧ t.kv = true ∧ t.key = key ∧ t.H = encryptWith s.params.cipher key 0#128 ∧
        t.M = tablesFor s.params.multImpl t.H) ∧
    ((t.dir = s.dir ∧ t.macBytes = s.macBytes) ∨
      ∃ dir keyv macbits key nonce aad, i = .init dir keyv macbits key nonce aad ∧ lastStatus t = some .ok ∧
        t.dir = dir ∧ t.macBytes.toNat * 8 = macbits.toNat) ∧
    ((t.cfgv = s.cfgv ∧ t.J0 = s.J0) ∨
      (∃ dir keyv macbits key nonce aad, i = .init dir keyv macbits key nonce aad ∧ lastStatus t = some .ok ∧
        t.cfgv = true ∧ t.J0 = deriveJ0 t nonce) ∨
      (i = .reset ∧ ¬(s.cfgv = true ∧ s.dir = false) ∧ t.cfgv = false ∧ t.J0 = 0#128))

/-! ## AAD, PROC, FINAL -/

/-- R91 with R72: a successful AAD, exactly when it is legal and within the ceiling, and what it leaves: the staged bytes
and the new ones, their full blocks hashed into `S_at`, the rest staged. -/
def Obligations.AadResult : Prop :=
  ∀ (data : Bytes) (s : State), Inv s → takesAad s → aadFits s data.length →
    exec (.aad data) s = .next (respond .ok [] (aadState data s)) ∧
    aadTotal (aadState data s) = aadTotal s + data.length ∧
    (aadState data s).S_at =
      ghashRef s.H s.S_at ((stagedBytes s ++ data).take (16 * ((stagedBytes s ++ data).length / 16))) ∧
    stagedBytes (aadState data s) = (stagedBytes s ++ data).drop (16 * ((stagedBytes s ++ data).length / 16))

/-- R81, R82, R113: the statuses with which AAD, PROC and FINAL refuse their data unused. -/
def Obligations.StreamingRefused : Prop :=
  ∀ (data : Bytes) (s : State),
    (¬takesAad s → exec (.aad data) s = .next (fail .invalidState s)) ∧
    (takesAad s → ¬aadFits s data.length → exec (.aad data) s = .next (fail .inputTooLarge s)) ∧
    (¬inSession s →
      exec (.proc data) s = .next (fail .invalidState s) ∧ exec (.final data) s = .next (fail .invalidState s)) ∧
    (inSession s → ¬payFits s data.length →
      exec (.proc data) s = .next (fail .inputTooLarge s) ∧ exec (.final data) s = .next (fail .inputTooLarge s))

/-- R92 with R83 to R85: a successful PROC, exactly when it is legal and within the ceiling: the blocks released go through
the cipher path, the rest stays in the window. -/
def Obligations.ProcResult : Prop :=
  ∀ (data : Bytes) (s : State), Inv s → inSession s → payFits s data.length →
    exec (.proc data) s = .next (respond .ok (procOutput data s) (procState data s)) ∧
    (procOutput data s).length = 16 * blocksReleased s (s.bufPos.toNat + data.length) ∧
    windowBytes (procState data s) =
      (windowBytes s ++ data).drop (16 * blocksReleased s (s.bufPos.toNat + data.length))

/-- R93 with R86 to R88, encryption: the rest of the ciphertext, then the tag; the session cleared but for the tag. -/
def Obligations.FinalEncrypts : Prop :=
  ∀ (data : Bytes) (s : State), Inv s → inSession s → payFits s data.length → s.dir = true →
    exec (.final data) s =
      .next (respond .ok
        (gctr (cipherE s) s.ctr (windowBytes s ++ data) ++ finalTag (windowBytes s ++ data) s)
        (endSession (finalTag (windowBytes s ++ data) s) (portCalls (finalEvents (windowBytes s ++ data) s) s)))

/-- R93 with R86 to R89, decryption: OK when the last `macBytes` bytes of the stream are the tag computed; the rest of the
plaintext, the session cleared but for the tag. -/
def Obligations.FinalDecrypts : Prop :=
  ∀ (data : Bytes) (s : State), Inv s → inSession s → payFits s data.length → s.dir = false →
    s.macBytes.toNat ≤ s.bufPos.toNat + data.length →
    finalTag (finalPayload data s) s = finalReceived data s →
    exec (.final data) s =
      .next (respond .ok (gctr (cipherE s) s.ctr (finalPayload data s))
        (endSession (finalReceived data s) (portCalls (finalEvents (finalPayload data s) s) s)))

/-- R93, R118, decryption: a stream shorter than a tag fails before any cipher call; any other tag fails after all of them;
either way nothing is emitted. -/
def Obligations.FinalRejects : Prop :=
  ∀ (data : Bytes) (s : State), Inv s → inSession s → payFits s data.length → s.dir = false →
    (s.bufPos.toNat + data.length < s.macBytes.toNat →
      exec (.final data) s = .next (fail .authenticationFailed s)) ∧
    (s.macBytes.toNat ≤ s.bufPos.toNat + data.length → finalTag (finalPayload data s) s ≠ finalReceived data s →
      exec (.final data) s =
        .next (fail .authenticationFailed (portCalls (finalEvents (finalPayload data s) s) s)))

/-- R137: the answer to a mismatching FINAL, the state it leaves and the calls it makes on the cipher port do not depend on
where the received tag differs. -/
def Obligations.MismatchPositionHidden : Prop :=
  ∀ (data r r' : Bytes) (s t t' : State), Inv s → s.dir = false →
    r.length = s.macBytes.toNat → r'.length = s.macBytes.toNat →
    exec (.final (data ++ r)) s = .next t → lastStatus t = some .authenticationFailed →
    exec (.final (data ++ r')) s = .next t' → lastStatus t' = some .authenticationFailed → t = t'

/-- R99: a streaming command with no data answers OK and changes nothing but the response channel. -/
def Obligations.ZeroLengthCommands : Prop :=
  ∀ s : State, Inv s →
    (takesAad s → exec (.aad []) s = .next (respond .ok [] s)) ∧
    (inSession s → exec (.proc []) s = .next (respond .ok [] s))

/-! ## GETMAC, RESET, OUTSZ, UPDSZ -/

/-- R94: GETMAC, in every state: the first `macBytes` bytes of `macReg` and no register changed; the tag of the last
successful FINAL, in either direction, right after it; zero bytes in every other state, as many as the last successful INIT
said, 16 after hardware reset. -/
def Obligations.GetmacResult : Prop :=
  (∀ s : State, exec .getmac s = .next (respond .ok (s.macReg.toList.take s.macBytes.toNat) s)) ∧
  (∀ s : State, Inv s → s.st ≠ .done →
    exec .getmac s = .next (respond .ok (List.replicate s.macBytes.toNat 0#8) s)) ∧
  (∀ (data : Bytes) (s t : State), Inv s → exec (.final data) s = .next t → lastStatus t = some .ok →
    exec .getmac t = .next (respond .ok (finalTag (finalPayload data s) s) t)) ∧
  (∀ (dir keyv : Bool) (macbits : BitVec 8) (key nonce aad : Bytes) (s t : State),
    exec (.init dir keyv macbits key nonce aad) s = .next t → lastStatus t = some .ok →
    exec .getmac t = .next (respond .ok (List.replicate (macbits.toNat / 8) 0#8) t)) ∧
  exec .getmac State.reset = .next (respond .ok (List.replicate 16 0#8) State.reset)

/-- R95: RESET, in every state. -/
def Obligations.ResetResult : Prop :=
  (∀ s : State,
    let cleared (j0 : Block) (st : FsmState) (cfgv : Bool) : State :=
      { s with
        st := st, err := .ok, cfgv := cfgv, J0 := j0, ctr := j0, blocksRem := 0xFFFFFFFE#32, S := 0#128, S_at := 0#128
        S_atPre := 0#128, atBuf := zeroBuf 16, atPos := 0#4, atLen := 0#64, atLenPre := 0#64, buf := zeroBuf 32
        bufPos := 0#6, payLen := 0#64, macReg := zeroBuf 16 }
    exec .reset s =
      .next (respond .ok [] (if s.cfgv && !s.dir then cleared s.J0 .ready true else cleared 0#128 .uninit false))) ∧
  (∀ s : State, Inv s → s.st = .uninit → exec .reset s = .next (respond .ok [] s))

/-- R96: OUTSZ, in every state, and that its answer is the length of what a successful FINAL of that many bytes emits next;
it is 0 where that FINAL cannot succeed for want of a tag. -/
def Obligations.OutszResult : Prop :=
  ∀ (n : Word) (s : State),
    let total := n.toNat + s.bufPos.toNat
    let v := if s.dir then total + s.macBytes.toNat else if total < s.macBytes.toNat then 0 else total - s.macBytes.toNat
    exec (.outsz n) s = .next (respond .ok (be64 v) s) ∧ beNat (be64 v) = v ∧
    (∀ (data : Bytes) (t : State), Inv s → data.length = n.toNat → exec (.final data) s = .next t →
      (lastStatus t = some .ok → (lastData t).length = v) ∧
      (s.dir = false → total < s.macBytes.toNat → lastStatus t ≠ some .ok ∧ lastData t = []))

/-- R97: UPDSZ, in every state, and that its answer is the length of what a successful PROC of that many bytes emits
next. -/
def Obligations.UpdszResult : Prop :=
  ∀ (n : Word) (s : State),
    let total := n.toNat + s.bufPos.toNat
    let v := if s.dir then total - total % 16
      else if total < s.macBytes.toNat then 0 else (total - s.macBytes.toNat) - (total - s.macBytes.toNat) % 16
    exec (.updsz n) s = .next (respond .ok (be64 v) s) ∧ beNat (be64 v) = v ∧
    (∀ (data : Bytes) (t : State), Inv s → data.length = n.toNat → exec (.proc data) s = .next t →
      lastStatus t = some .ok → (lastData t).length = v)

/-! ## Frames -/

/-- What each successful command leaves unchanged, register by register: the state after it is the state before it with
only the registers listed written (a register of the list may keep its value). The core has no memory. -/
def Obligations.CommandFrames : Prop :=
  ∀ (i : Instr) (s t : State), exec i s = .next t → lastStatus t = some .ok →
    match i with
    | .init .. =>
      t = { s with
        st := t.st, err := t.err, dir := t.dir, macBytes := t.macBytes, kv := t.kv, key := t.key, H := t.H, M := t.M
        lev := t.lev, lastEncKey := t.lastEncKey, lastEncNonce := t.lastEncNonce, cfgv := t.cfgv, J0 := t.J0
        ctr := t.ctr, blocksRem := t.blocksRem, S := t.S, S_at := t.S_at, S_atPre := t.S_atPre, atBuf := t.atBuf
        atPos := t.atPos, atLen := t.atLen, atLenPre := t.atLenPre, buf := t.buf, bufPos := t.bufPos, payLen := t.payLen
        macReg := t.macReg, resp := t.resp, port := t.port }
    | .aad _ =>
      t = { s with S_at := t.S_at, atBuf := t.atBuf, atPos := t.atPos, atLen := t.atLen, resp := t.resp }
    | .proc _ =>
      t = { s with
        st := t.st, ctr := t.ctr, blocksRem := t.blocksRem, S := t.S, S_atPre := t.S_atPre, atLenPre := t.atLenPre
        buf := t.buf, bufPos := t.bufPos, payLen := t.payLen, resp := t.resp, port := t.port }
    | .final _ =>
      t = { s with
        st := t.st, ctr := s.J0, blocksRem := 0xFFFFFFFE#32, S := 0#128, S_at := 0#128, S_atPre := 0#128
        atBuf := zeroBuf 16, atPos := 0#4, atLen := 0#64, atLenPre := 0#64, buf := zeroBuf 32, bufPos := 0#6
        payLen := 0#64, macReg := t.macReg, resp := t.resp, port := t.port }
    | .getmac => t = { s with resp := t.resp }
    | .reset =>
      t = { s with
        st := t.st, err := .ok, cfgv := t.cfgv, J0 := t.J0, ctr := t.J0, blocksRem := 0xFFFFFFFE#32, S := 0#128
        S_at := 0#128, S_atPre := 0#128, atBuf := zeroBuf 16, atPos := 0#4, atLen := 0#64, atLenPre := 0#64
        buf := zeroBuf 32, bufPos := 0#6, payLen := 0#64, macReg := zeroBuf 16, resp := t.resp }
    | .outsz _ => t = { s with resp := t.resp }
    | .updsz _ => t = { s with resp := t.resp }

/-- R33: the calls on the cipher port, the whole of them, by command; and `J0` is never the counter of a keystream block. -/
def Obligations.CipherPortTrace : Prop :=
  (∀ (i : Instr) (s t : State), Inv s → exec i s = .next t →
    match i with
    | .init _ keyv _ key _ _ =>
      (lastStatus t = some .ok → ChangesKey keyv key s → t.port = s.port ++ [.load key, .enc 0#128]) ∧
      (lastStatus t ≠ some .ok ∨ ¬ChangesKey keyv key s → t.port = s.port)
    | .proc data =>
      (lastStatus t = some .ok →
        t.port = s.port ++ keystreamEvents (blocksReleased s (s.bufPos.toNat + data.length)) s.ctr) ∧
      (lastStatus t ≠ some .ok → t.port = s.port)
    | .final data =>
      (lastStatus t = some .ok ∨
          (lastStatus t = some .authenticationFailed ∧ s.macBytes.toNat ≤ s.bufPos.toNat + data.length) →
        t.port = s.port ++ keystreamEvents (blocksOf (finalPayload data s).length) s.ctr ++ [.enc s.J0]) ∧
      (lastStatus t = some .invalidState ∨ lastStatus t = some .inputTooLarge ∨
          (lastStatus t = some .authenticationFailed ∧ s.bufPos.toNat + data.length < s.macBytes.toNat) →
        t.port = s.port)
    | .aad _ => t.port = s.port
    | .getmac => t.port = s.port
    | .reset => t.port = s.port
    | .outsz _ => t.port = s.port
    | .updsz _ => t.port = s.port) ∧
  (∀ (s : State) (n : Nat), Inv s → inSession s → n ≤ s.blocksRem.toNat → .enc s.J0 ∉ keystreamEvents n s.ctr)

/-! ## The multiplier and the field (40_multiplier.md) -/

/-- R65: every realisation computes the bitwise product, and which one was built cannot be observed: the same core with
another one answers every command alike and reaches the same state but for its tables. -/
def Obligations.MultiplierRealisationsAgree : Prop :=
  (∀ (impl : MultImpl) (h x : Block), mulHWith impl h (tablesFor impl h) x = gfMul x h) ∧
  (∀ (i : Instr) (s t : State) (impl : MultImpl), Inv s → exec i s = .next t →
    exec i (withMultiplier impl s) = .next (withMultiplier impl t))

/-- R66, R67: the entries of the tables are the products with the elements their index stands for. -/
def Obligations.TableEntries : Prop :=
  ∀ h : Block,
    (tables4 h).length = 16 ∧
    (∀ n < 16, (tables4 h).getD n 0#128 = gfMul (BitVec.ofNat 128 (n * 2 ^ 124)) h) ∧
    (tables8 h).length = 256 ∧
    (∀ b < 256, (tables8 h).getD b 0#128 = gfMul (BitVec.ofNat 128 (b * 2 ^ 120)) h)

/-- R62: `mulX` in the arithmetic of the block's integer, its corner cases and its example. The constant `0xE1 * 2^120` is
the reduction polynomial of R61, which the spec takes from general knowledge (PRESUMED, log entry 17). -/
def Obligations.MulXRule : Prop :=
  (∀ v : Block,
    (mulX v).toNat = if v.toNat % 2 = 1 then (v.toNat / 2) ^^^ (0xE1 * 2 ^ 120) else v.toNat / 2) ∧
  mulX 0#128 = 0#128 ∧ mulX 1#128 = 0xE1#128 <<< 120 ∧ mulX (0x80#128 <<< 120) = 0x40#128 <<< 120 ∧
  mulX 0x66e94bd4ef8a2c3b884cfa59ca342b2e#128 = 0x3374a5ea77c5161dc4267d2ce51a1597#128

/-- R69, the laws of the field (marked there as general knowledge). -/
def Obligations.FieldLaws : Prop :=
  ∀ a b c : Block,
    gfMul a b = gfMul b a ∧ gfMul (gfMul a b) c = gfMul a (gfMul b c) ∧
    gfMul (a ^^^ b) c = gfMul a c ^^^ gfMul b c ∧ gfMul gfOne a = a ∧ gfMul 0#128 a = 0#128 ∧ a ^^^ a = 0#128

/-- R60, R61, R63: `gfMul` is the product of polynomials over the field of two elements, reduced modulo
`x^128 + x^7 + x^2 + x + 1` (the polynomial is marked there as general knowledge: PRESUMED, log entry 17). -/
def Obligations.GfMulIsPolynomialProduct : Prop :=
  let poly (b : Block) : Polynomial (ZMod 2) :=
    ∑ i ∈ Finset.range 128, if gcmBit b i then (Polynomial.X : Polynomial (ZMod 2)) ^ i else 0
  ∀ a b : Block,
    ((Polynomial.X : Polynomial (ZMod 2)) ^ 128 + Polynomial.X ^ 7 + Polynomial.X ^ 2 + Polynomial.X + 1) ∣
      poly (gfMul a b) - poly a * poly b

/-- R68: what the power is, by its corner cases and the law of exponents. -/
def Obligations.PowerLaws : Prop :=
  ∀ (a : Block) (m n : Nat),
    gfPow a 0 = gfOne ∧ gfPow a 1 = a ∧ (1 ≤ n → gfPow 0#128 n = 0#128) ∧
    gfPow a (m + n) = gfMul (gfPow a m) (gfPow a n)

/-! ## GHASH and the counter (41_ghash.md, 42_counter.md) -/

/-- R71: a partial block: the first `n` bytes of the accumulator XORed, its tail kept, whatever bytes stand behind the
`n`; as if the block were padded with zero bytes. -/
def Obligations.GhashPartialRule : Prop :=
  ∀ (s : State) (y : Block) (bs : Bytes) (n : Nat), Inv s → 1 ≤ n → n ≤ 15 → n ≤ bs.length →
    ghashPartial s y bs n =
      gfMul (blockOfBytes (xorBytes ((bytesOfBlock y).take n) (bs.take n) ++ (bytesOfBlock y).drop n)) s.H ∧
    ghashPartial s y bs n = ghashBlock s y (blockOfBytes (bs.take n ++ List.replicate (16 - n) 0#8)) ∧
    ghashPartial s 0#128 [0x80#8] 1 = s.H

/-- R73's closed form and R74: GHASH as a polynomial in `H`, and its linearity in the seed. -/
def Obligations.GhashLinear : Prop :=
  ∀ (h y y' : Block) (m : Bytes),
    let k := (m.length + 15) / 16
    ghashRef h y m ^^^ ghashRef h y' m = gfMul (y ^^^ y') (gfPow h k) ∧
    ghashRef h y m =
      (List.range k).foldl
        (fun acc j => acc ^^^ gfMul (blockOfBytes ((m.drop (16 * j)).take 16)) (gfPow h (k - j))) (gfMul y (gfPow h k))

/-- R76: one keystream block: the last four bytes of `ctr` count up, big-endian, modulo 2^32; bytes 0 to 11 stay; the cipher
is called once, on the counter after its increment. -/
def Obligations.KeystreamBlock : Prop :=
  ∀ s : State, s.blocksRem ≠ 0#32 →
    ∃ t, nextKeystreamBlock s = .done t (cipherE s t.ctr) ∧
      bytesOfBlock t.ctr = (bytesOfBlock s.ctr).take 12 ++
        beBytes 4 ((beNat ((bytesOfBlock s.ctr).drop 12) + 1) % 2 ^ 32) ∧
      t = { s with ctr := t.ctr, blocksRem := s.blocksRem - 1#32, port := s.port ++ [.enc t.ctr] } ∧
      t.blocksRem.toNat = s.blocksRem.toNat - 1

/-- R77: an exhausted budget is `InvalidState` with no call on the cipher; no command of a session meets it, and no counter
value comes back. -/
def Obligations.BudgetNeverRunsOut : Prop :=
  (∀ s : State, s.blocksRem = 0#32 → nextKeystreamBlock s = .fails s .invalidState) ∧
  (∀ (data : Bytes) (s t : State), Inv s → inSession s →
    exec (.proc data) s = .next t ∨ exec (.final data) s = .next t → lastStatus t ≠ some .invalidState) ∧
  (∀ (c : Block) (j k : Nat), j < k → k < 2 ^ 32 → inc32n j c ≠ inc32n k c)

/-- R75: the initial counter block, of a 12-byte nonce and of any other. -/
def Obligations.DeriveJ0Rule : Prop :=
  ∀ (s : State) (nonce : Bytes), Inv s →
    (nonce.length = 12 → bytesOfBlock (deriveJ0 s nonce) = nonce ++ [0x00#8, 0x00#8, 0x00#8, 0x01#8]) ∧
    (nonce.length ≠ 12 →
      deriveJ0 s nonce =
        ghashRef s.H 0#128 (padBlocks nonce ++ List.replicate 8 0#8 ++ be64 (8 * nonce.length)))

/-- R83: what the snapshot writes, that the staged bytes stay, and that of PROC's commands the first that releases a block
takes it and no other touches it. -/
def Obligations.SnapshotRule : Prop :=
  (∀ s : State, Inv s →
    snapshot s = { s with
      st := .stream, S := ghashRef s.H s.S_at (stagedBytes s), S_atPre := ghashRef s.H s.S_at (stagedBytes s)
      atLenPre := (snapshot s).atLenPre } ∧
    (inSession s → (snapshot s).atLenPre.toNat = aadTotal s)) ∧
  (∀ (data : Bytes) (s t : State), Inv s → exec (.proc data) s = .next t → lastStatus t = some .ok →
    (s.st = .stream ∨ lastData t = [] → t.S_atPre = s.S_atPre ∧ t.atLenPre = s.atLenPre ∧ t.st = s.st) ∧
    (s.st = .ready → lastData t ≠ [] →
      t.S_atPre = (snapshot s).S_atPre ∧ t.atLenPre = (snapshot s).atLenPre ∧ t.st = .stream))

/-! ## Whole sessions -/

/-- R99: how a stream is cut into commands changes neither the bytes that come out nor the state that is left. -/
def Obligations.ChunkingInvariance : Prop :=
  (∀ (a b : Bytes) (s t u : State), Inv s →
    exec (.proc a) s = .next t → lastStatus t = some .ok → exec (.proc b) t = .next u → lastStatus u = some .ok →
    ∃ v, exec (.proc (a ++ b)) s = .next v ∧ lastStatus v = some .ok ∧ lastData v = lastData t ++ lastData u ∧
      { v with resp := u.resp } = u) ∧
  (∀ (a b : Bytes) (s t u : State), Inv s →
    exec (.proc a) s = .next t → lastStatus t = some .ok → exec (.final b) t = .next u → lastStatus u = some .ok →
    ∃ v, exec (.final (a ++ b)) s = .next v ∧ lastStatus v = some .ok ∧ lastData v = lastData t ++ lastData u ∧
      { v with resp := u.resp } = u) ∧
  (∀ (a b : Bytes) (s t u : State), Inv s →
    exec (.aad a) s = .next t → lastStatus t = some .ok → exec (.aad b) t = .next u → lastStatus u = some .ok →
    ∃ v, exec (.aad (a ++ b)) s = .next v ∧ lastStatus v = some .ok ∧ { v with resp := u.resp } = u)

/-- R99, R87: associated data that comes after payload gives the same output, the same status and the same tag as if it had
come before: reconciliation is right. -/
def Obligations.LateAadCommutes : Prop :=
  ∀ (a p f : Bytes) (s t u v : State), Inv s →
    exec (.proc p) s = .next t → lastStatus t = some .ok → exec (.aad a) t = .next u → lastStatus u = some .ok →
    exec (.final f) u = .next v → lastStatus v = some .ok →
    ∃ t' u' v', exec (.aad a) s = .next t' ∧ lastStatus t' = some .ok ∧
      exec (.proc p) t' = .next u' ∧ lastStatus u' = some .ok ∧ lastData u' = lastData t ∧
      exec (.final f) u' = .next v' ∧ lastStatus v' = some .ok ∧ lastData v' = lastData v ∧ v'.macReg = v.macReg

/-- R99, R100: every encryption session computes GCM: from any state the invariants allow, however its bytes are cut into
commands and its associated data interleaved with payload. -/
def Obligations.EncryptionSessionIsGcm : Prop :=
  ∀ (keyv : Bool) (macbits : BitVec 8) (key nonce aad : Bytes) (between : List Instr) (data : Bytes) (s t : State),
    Inv s → (∀ i ∈ between, isStreaming i = true) →
    runOk (.init true keyv macbits key nonce aad :: (between ++ [.final data])) s = some t →
    let e := encryptWith s.params.cipher (if keyv then key else s.key)
    let a := aad ++ between.flatMap aadOf
    let p := between.flatMap payloadOf ++ data
    outputSince s t = gcmSeal e nonce a p (macbits.toNat / 8) ∧
    t.macReg = vecOfBytes 16 (gcmTag e (gcmJ0 e nonce) a (gctr e (gcmJ0 e nonce) p) (macbits.toNat / 8))

/-- R100: a decryption session succeeds exactly when the last bytes of its stream are the tag of GCM, and then its output is
the plaintext. -/
def Obligations.DecryptionSessionIsGcm : Prop :=
  ∀ (keyv : Bool) (macbits : BitVec 8) (key nonce aad : Bytes) (between : List Instr) (data : Bytes) (s t : State),
    Inv s → (∀ i ∈ between, isStreaming i = true) →
    runOk (.init false keyv macbits key nonce aad :: between) s = some t →
    let e := encryptWith s.params.cipher (if keyv then key else s.key)
    let n := macbits.toNat / 8
    let a := aad ++ between.flatMap aadOf
    let x := between.flatMap payloadOf ++ data
    let c := x.take (x.length - n)
    a.length + (x.length - n) ≤ 2 ^ 36 - 32 →
    ∃ u, exec (.final data) t = .next u ∧
      (lastStatus u = some .ok ↔ n ≤ x.length ∧ x.drop (x.length - n) = gcmTag e (gcmJ0 e nonce) a c n) ∧
      (lastStatus u = some .ok → outputSince s u = gctr e (gcmJ0 e nonce) c ∧
        u.macReg = vecOfBytes 16 (gcmTag e (gcmJ0 e nonce) a c n)) ∧
      (lastStatus u ≠ some .ok → lastStatus u = some .authenticationFailed ∧ lastData u = [])

/-- R90 to R93, R100: a session whose INIT is accepted, whose totals are within the ceiling and whose build takes late
associated data runs to its end. -/
def Obligations.SessionsRun : Prop :=
  ∀ (dir keyv : Bool) (macbits : BitVec 8) (key nonce aad : Bytes) (between : List Instr) (data : Bytes) (s : State),
    Inv s → InitParametersLegal keyv macbits nonce s → ¬RepeatsPair dir keyv key nonce s → s.params.lateAad = true →
    (∀ i ∈ between, isStreaming i = true) →
    (aad ++ between.flatMap aadOf).length +
      ((between.flatMap payloadOf ++ data).length - (if dir then 0 else macbits.toNat / 8)) ≤ 2 ^ 36 - 32 →
    ∃ t, runOk (.init dir keyv macbits key nonce aad :: between) s = some t ∧ inSession t ∧
      (dir = true → ∃ u, exec (.final data) t = .next u ∧ lastStatus u = some .ok)

/-- R100, "`decrypt(encrypt(plaintext)) == plaintext`": on any core with the same cipher, under the same key, nonce and
associated data, however either stream is cut. -/
def Obligations.OpenAfterSeal : Prop :=
  ∀ (keyv keyv' : Bool) (macbits : BitVec 8) (key key' nonce aad aad' data data' : Bytes) (between between' : List Instr)
    (s s' t t' : State),
    Inv s → Inv s' → s'.params.cipher = s.params.cipher →
    (if keyv' then key' else s'.key) = (if keyv then key else s.key) →
    (∀ i ∈ between, isStreaming i = true) → (∀ i ∈ between', isStreaming i = true) →
    runOk (.init true keyv macbits key nonce aad :: (between ++ [.final data])) s = some t →
    runOk (.init false keyv' macbits key' nonce aad' :: between') s' = some t' →
    aad' ++ between'.flatMap aadOf = aad ++ between.flatMap aadOf →
    between'.flatMap payloadOf ++ data' = outputSince s t →
    ∃ u, exec (.final data') t' = .next u ∧ lastStatus u = some .ok ∧
      outputSince s' u = between.flatMap payloadOf ++ data

/-- R125: cores are independent: whatever the order in which several cores step, each ends where its own steps alone take
it. It speaks of schedules in which every step gives a next state: one that steps a stuck core is refused (log entry 15). -/
def Obligations.CoresAreIndependent : Prop :=
  ∀ (schedule : List Nat) (cores cores' : List State), runCores schedule cores = some cores' →
    cores'.length = cores.length ∧
    ∀ (k : Nat) (s : State), cores[k]? = some s →
      ∃ s', cores'[k]? = some s' ∧ runCore (schedule.count k) s = some s'

/-! ## The associated data of a session -/

/-- R27 item 12 with R83, and R21, R72: the AAD registers are those of the session's associated data, the snapshot the GHASH
of the bytes it covers, and every step keeps this, whatever it does to the session; `a` is the session's associated data up
to the step. -/
def Obligations.SnapshotHashesSessionAad : Prop :=
  ∀ (a : Bytes) (s t : State), Inv s → HoldsAad a s → step s = .next t → HoldsAad (stepAadAfter s t a) t

/-- R27 item 12, R83, R87: after an INIT and any AAD and PROC commands the snapshot is the GHASH of the first `atLenPre` bytes
of all the associated data these commands carried, its last block zero-padded, and the hash FINAL reconciles with is that of
all of them; nothing of an earlier session is in either. -/
def Obligations.SessionHashesItsAad : Prop :=
  ∀ (dir keyv : Bool) (macbits : BitVec 8) (key nonce aad : Bytes) (between : List Instr) (s t : State),
    Inv s → (∀ i ∈ between, isStreaming i = true) →
    runOk (.init dir keyv macbits key nonce aad :: between) s = some t →
    let a := aad ++ between.flatMap aadOf
    aadTotal t = a.length ∧ finalAadHash t = ghashRef t.H 0#128 a ∧
    (t.st = .stream → t.atLenPre.toNat ≤ a.length ∧ t.S_atPre = ghashRef t.H 0#128 (a.take t.atLenPre.toNat))
end

