-- ==== Sys2Proof/Laws/Bytes.lean ====
section
/-! SUPPORT. The byte-order helpers: lengths, and that encoding and reading agree. -/

namespace Sys2Proof

@[simp] theorem length_beBytes (k n : Nat) : (beBytes k n).length = k := by
  induction k with
  | zero => rfl
  | succ k ih => simp [beBytes, ih]

@[simp] theorem length_be32 (w : Word) : (be32 w).length = 4 := length_beBytes 4 w.toNat

@[simp] theorem length_be64 (n : Nat) : (be64 n).length = 8 := length_beBytes 8 n

@[simp] theorem length_bytesOfBlock (b : Block) : (bytesOfBlock b).length = 16 := length_beBytes 16 b.toNat

@[simp] theorem length_fitBytes (n : Nat) (bs : Bytes) : (fitBytes n bs).length = n := by
  simp [fitBytes]

theorem beNat_foldl (bs : Bytes) (a : Nat) :
    bs.foldl (fun acc b => 256 * acc + b.toNat) a = a * 256 ^ bs.length + beNat bs := by
  unfold beNat
  induction bs generalizing a with
  | nil => simp
  | cons b bs ih =>
    simp only [List.foldl_cons, List.length_cons]
    rw [ih, ih (256 * 0 + b.toNat)]
    ring

@[simp] theorem beNat_nil : beNat [] = 0 := rfl

theorem beNat_cons (b : Byte) (bs : Bytes) : beNat (b :: bs) = b.toNat * 256 ^ bs.length + beNat bs := by
  rw [beNat, List.foldl_cons, beNat_foldl]
  simp

theorem beNat_append (a b : Bytes) : beNat (a ++ b) = beNat a * 256 ^ b.length + beNat b := by
  rw [beNat, List.foldl_append, beNat_foldl]
  rfl

theorem beNat_lt (bs : Bytes) : beNat bs < 256 ^ bs.length := by
  induction bs with
  | nil => simp
  | cons b bs ih =>
    rw [beNat_cons, List.length_cons, pow_succ]
    have hb : b.toNat ≤ 255 := by have := b.isLt; omega
    calc b.toNat * 256 ^ bs.length + beNat bs < b.toNat * 256 ^ bs.length + 256 ^ bs.length := by omega
      _ = (b.toNat + 1) * 256 ^ bs.length := by ring
      _ ≤ 256 * 256 ^ bs.length := Nat.mul_le_mul_right _ (by omega)
      _ = 256 ^ bs.length * 256 := by ring

/-- Reading back a big-endian encoding. -/
theorem beNat_beBytes (k n : Nat) : beNat (beBytes k n) = n % 256 ^ k := by
  induction k with
  | zero => simp [beBytes, Nat.mod_one]
  | succ k ih =>
    have h : (n / 256 ^ k % 2 ^ 8) = n / 256 ^ k % 256 := rfl
    rw [beBytes, beNat_cons, length_beBytes, ih, BitVec.toNat_ofNat, h, pow_succ 256 k, Nat.mod_mul]
    ring

theorem beBytes_mod (k n : Nat) : beBytes k (n % 256 ^ k) = beBytes k n := by
  have key : ∀ j, j ≤ k → beBytes j (n % 256 ^ k) = beBytes j n := by
    intro j hj
    induction j with
    | zero => rfl
    | succ j ih =>
      rw [beBytes, beBytes, ih (by omega)]
      congr 1
      apply BitVec.eq_of_toNat_eq
      simp only [BitVec.toNat_ofNat]
      obtain ⟨m, rfl⟩ : ∃ m, k = j + (m + 1) := ⟨k - j - 1, by omega⟩
      rw [pow_add, Nat.mod_mul_right_div_self, pow_succ, Nat.mul_comm (256 ^ m)]
      exact Nat.mod_mul_right_mod _ _ _
  exact key k le_rfl

/-- A byte string is the big-endian encoding of the number it encodes. -/
theorem beBytes_beNat (bs : Bytes) : beBytes bs.length (beNat bs) = bs := by
  induction bs with
  | nil => rfl
  | cons b bs ih =>
    rw [List.length_cons, beBytes, beNat_cons]
    congr 1
    · have h := beNat_lt bs
      have hp : 0 < 256 ^ bs.length := by positivity
      rw [Nat.mul_comm, Nat.mul_add_div hp, Nat.div_eq_of_lt h]
      simp
    · rw [← beBytes_mod, Nat.mul_comm, Nat.mul_add_mod, Nat.mod_eq_of_lt (beNat_lt bs), ih]

theorem beNat_inj {a b : Bytes} (hl : a.length = b.length) (h : beNat a = beNat b) : a = b := by
  rw [← beBytes_beNat a, ← beBytes_beNat b, hl, h]

theorem fitBytes_of_length {n : Nat} {bs : Bytes} (h : bs.length = n) : fitBytes n bs = bs := by
  simp [fitBytes, ← h]

theorem fitBytes_of_le {n : Nat} {bs : Bytes} (h : bs.length ≤ n) :
    fitBytes n bs = bs ++ List.replicate (n - bs.length) 0#8 := by
  simp [fitBytes, List.take_append, List.take_of_length_le h, List.take_replicate]

@[simp] theorem toList_vecOfBytes (n : Nat) (bs : Bytes) : (vecOfBytes n bs).toList = fitBytes n bs := rfl

@[simp] theorem toList_zeroBuf (n : Nat) : (zeroBuf n).toList = List.replicate n 0#8 := by
  simp [zeroBuf, fitBytes]

theorem vec_ext {n : Nat} {a b : Vector Byte n} (h : a.toList = b.toList) : a = b :=
  Vector.toList_inj.mp h

theorem vecOfBytes_toList {n : Nat} (v : Vector Byte n) : vecOfBytes n v.toList = v :=
  vec_ext (by rw [toList_vecOfBytes, fitBytes_of_length (by simp)])

/-- The bytes of a buffer's own front are read back. -/
theorem take_fitBytes {n k : Nat} {bs : Bytes} (h : bs.length = k) (hk : k ≤ n) : (fitBytes n bs).take k = bs := by
  subst h
  rw [fitBytes_of_le hk]
  simp

theorem blockOfBytes_toNat {bs : Bytes} (h : bs.length = 16) : (blockOfBytes bs).toNat = beNat bs := by
  have := beNat_lt bs
  rw [h] at this
  rw [blockOfBytes, fitBytes_of_length h, BitVec.toNat_ofNat, Nat.mod_eq_of_lt (lt_of_lt_of_eq this (by norm_num))]

@[simp] theorem blockOfBytes_bytesOfBlock (b : Block) : blockOfBytes (bytesOfBlock b) = b := by
  apply BitVec.eq_of_toNat_eq
  rw [blockOfBytes_toNat (length_bytesOfBlock b), bytesOfBlock, beNat_beBytes]
  exact Nat.mod_eq_of_lt (lt_of_lt_of_eq b.isLt (by norm_num))

theorem bytesOfBlock_blockOfBytes {bs : Bytes} (h : bs.length = 16) : bytesOfBlock (blockOfBytes bs) = bs := by
  rw [bytesOfBlock, blockOfBytes_toNat h, ← h, beBytes_beNat]

theorem blockOfBytes_fit (bs : Bytes) : blockOfBytes (fitBytes 16 bs) = blockOfBytes bs := by
  rw [blockOfBytes, blockOfBytes, fitBytes_of_length (length_fitBytes 16 bs)]

theorem bytesOfBlock_injective : Function.Injective bytesOfBlock := fun a b h => by
  rw [← blockOfBytes_bytesOfBlock a, h, blockOfBytes_bytesOfBlock]

@[simp] theorem length_xorBytes (a b : Bytes) : (xorBytes a b).length = min a.length b.length := by
  simp [xorBytes]

theorem beBytes_xor (k m n : Nat) : beBytes k (m ^^^ n) = xorBytes (beBytes k m) (beBytes k n) := by
  induction k with
  | zero => rfl
  | succ k ih =>
    simp only [beBytes, ih, xorBytes, List.zipWith_cons_cons]
    congr 1
    apply BitVec.eq_of_toNat_eq
    have h : (256 : Nat) ^ k = 2 ^ (8 * k) := by rw [pow_mul]; norm_num
    simp only [BitVec.toNat_xor, BitVec.toNat_ofNat, h, ← Nat.shiftRight_eq_div_pow, Nat.shiftRight_xor_distrib]
    exact Nat.xor_mod_two_pow

/-- XOR of blocks is XOR of their bytes (R5). -/
theorem bytesOfBlock_xor (a b : Block) : bytesOfBlock (a ^^^ b) = xorBytes (bytesOfBlock a) (bytesOfBlock b) := by
  rw [bytesOfBlock, BitVec.toNat_xor, beBytes_xor]
  rfl

end Sys2Proof
end

