-- ==== Sys2Proof/Laws/State.lean ====
section
/-! SUPPORT. One lemma for each field and each shared update of State, true by rfl, so that no proof unfolds an update. -/

namespace Sys2Proof.Machine

/-! ClearSession (R80). -/

@[simp] theorem clearSession_params (s : State) :
    (clearSession s).params = s.params := rfl

@[simp] theorem clearSession_st (s : State) :
    (clearSession s).st = s.st := rfl

@[simp] theorem clearSession_err (s : State) :
    (clearSession s).err = s.err := rfl

@[simp] theorem clearSession_dir (s : State) :
    (clearSession s).dir = s.dir := rfl

@[simp] theorem clearSession_macBytes (s : State) :
    (clearSession s).macBytes = s.macBytes := rfl

@[simp] theorem clearSession_kv (s : State) :
    (clearSession s).kv = s.kv := rfl

@[simp] theorem clearSession_key (s : State) :
    (clearSession s).key = s.key := rfl

@[simp] theorem clearSession_H (s : State) :
    (clearSession s).H = s.H := rfl

@[simp] theorem clearSession_M (s : State) :
    (clearSession s).M = s.M := rfl

@[simp] theorem clearSession_lev (s : State) :
    (clearSession s).lev = s.lev := rfl

@[simp] theorem clearSession_lastEncKey (s : State) :
    (clearSession s).lastEncKey = s.lastEncKey := rfl

@[simp] theorem clearSession_lastEncNonce (s : State) :
    (clearSession s).lastEncNonce = s.lastEncNonce := rfl

@[simp] theorem clearSession_cfgv (s : State) :
    (clearSession s).cfgv = s.cfgv := rfl

@[simp] theorem clearSession_J0 (s : State) :
    (clearSession s).J0 = s.J0 := rfl

@[simp] theorem clearSession_ctr (s : State) :
    (clearSession s).ctr = s.J0 := rfl

@[simp] theorem clearSession_blocksRem (s : State) :
    (clearSession s).blocksRem = Config.budget0 := rfl

@[simp] theorem clearSession_S (s : State) :
    (clearSession s).S = 0#128 := rfl

@[simp] theorem clearSession_S_at (s : State) :
    (clearSession s).S_at = 0#128 := rfl

@[simp] theorem clearSession_S_atPre (s : State) :
    (clearSession s).S_atPre = 0#128 := rfl

@[simp] theorem clearSession_atBuf (s : State) :
    (clearSession s).atBuf = zeroBuf 16 := rfl

@[simp] theorem clearSession_atPos (s : State) :
    (clearSession s).atPos = 0#4 := rfl

@[simp] theorem clearSession_atLen (s : State) :
    (clearSession s).atLen = 0#64 := rfl

@[simp] theorem clearSession_atLenPre (s : State) :
    (clearSession s).atLenPre = 0#64 := rfl

@[simp] theorem clearSession_buf (s : State) :
    (clearSession s).buf = zeroBuf 32 := rfl

@[simp] theorem clearSession_bufPos (s : State) :
    (clearSession s).bufPos = 0#6 := rfl

@[simp] theorem clearSession_payLen (s : State) :
    (clearSession s).payLen = 0#64 := rfl

@[simp] theorem clearSession_macReg (s : State) :
    (clearSession s).macReg = zeroBuf 16 := rfl

@[simp] theorem clearSession_chan (s : State) :
    (clearSession s).chan = s.chan := rfl

@[simp] theorem clearSession_resp (s : State) :
    (clearSession s).resp = s.resp := rfl

@[simp] theorem clearSession_port (s : State) :
    (clearSession s).port = s.port := rfl

@[simp] theorem clearSession_resetIn (s : State) :
    (clearSession s).resetIn = s.resetIn := rfl

/-! The response (R47). -/

@[simp] theorem respond_params (c : Status) (d : Bytes) (s : State) :
    (respond c d s).params = s.params := rfl

@[simp] theorem respond_st (c : Status) (d : Bytes) (s : State) :
    (respond c d s).st = s.st := rfl

@[simp] theorem respond_err (c : Status) (d : Bytes) (s : State) :
    (respond c d s).err = s.err := rfl

@[simp] theorem respond_dir (c : Status) (d : Bytes) (s : State) :
    (respond c d s).dir = s.dir := rfl

@[simp] theorem respond_macBytes (c : Status) (d : Bytes) (s : State) :
    (respond c d s).macBytes = s.macBytes := rfl

@[simp] theorem respond_kv (c : Status) (d : Bytes) (s : State) :
    (respond c d s).kv = s.kv := rfl

@[simp] theorem respond_key (c : Status) (d : Bytes) (s : State) :
    (respond c d s).key = s.key := rfl

@[simp] theorem respond_H (c : Status) (d : Bytes) (s : State) :
    (respond c d s).H = s.H := rfl

@[simp] theorem respond_M (c : Status) (d : Bytes) (s : State) :
    (respond c d s).M = s.M := rfl

@[simp] theorem respond_lev (c : Status) (d : Bytes) (s : State) :
    (respond c d s).lev = s.lev := rfl

@[simp] theorem respond_lastEncKey (c : Status) (d : Bytes) (s : State) :
    (respond c d s).lastEncKey = s.lastEncKey := rfl

@[simp] theorem respond_lastEncNonce (c : Status) (d : Bytes) (s : State) :
    (respond c d s).lastEncNonce = s.lastEncNonce := rfl

@[simp] theorem respond_cfgv (c : Status) (d : Bytes) (s : State) :
    (respond c d s).cfgv = s.cfgv := rfl

@[simp] theorem respond_J0 (c : Status) (d : Bytes) (s : State) :
    (respond c d s).J0 = s.J0 := rfl

@[simp] theorem respond_ctr (c : Status) (d : Bytes) (s : State) :
    (respond c d s).ctr = s.ctr := rfl

@[simp] theorem respond_blocksRem (c : Status) (d : Bytes) (s : State) :
    (respond c d s).blocksRem = s.blocksRem := rfl

@[simp] theorem respond_S (c : Status) (d : Bytes) (s : State) :
    (respond c d s).S = s.S := rfl

@[simp] theorem respond_S_at (c : Status) (d : Bytes) (s : State) :
    (respond c d s).S_at = s.S_at := rfl

@[simp] theorem respond_S_atPre (c : Status) (d : Bytes) (s : State) :
    (respond c d s).S_atPre = s.S_atPre := rfl

@[simp] theorem respond_atBuf (c : Status) (d : Bytes) (s : State) :
    (respond c d s).atBuf = s.atBuf := rfl

@[simp] theorem respond_atPos (c : Status) (d : Bytes) (s : State) :
    (respond c d s).atPos = s.atPos := rfl

@[simp] theorem respond_atLen (c : Status) (d : Bytes) (s : State) :
    (respond c d s).atLen = s.atLen := rfl

@[simp] theorem respond_atLenPre (c : Status) (d : Bytes) (s : State) :
    (respond c d s).atLenPre = s.atLenPre := rfl

@[simp] theorem respond_buf (c : Status) (d : Bytes) (s : State) :
    (respond c d s).buf = s.buf := rfl

@[simp] theorem respond_bufPos (c : Status) (d : Bytes) (s : State) :
    (respond c d s).bufPos = s.bufPos := rfl

@[simp] theorem respond_payLen (c : Status) (d : Bytes) (s : State) :
    (respond c d s).payLen = s.payLen := rfl

@[simp] theorem respond_macReg (c : Status) (d : Bytes) (s : State) :
    (respond c d s).macReg = s.macReg := rfl

@[simp] theorem respond_chan (c : Status) (d : Bytes) (s : State) :
    (respond c d s).chan = s.chan := rfl

@[simp] theorem respond_resp (c : Status) (d : Bytes) (s : State) :
    (respond c d s).resp = s.resp ++ [mkResponse c d] := rfl

@[simp] theorem respond_port (c : Status) (d : Bytes) (s : State) :
    (respond c d s).port = s.port := rfl

@[simp] theorem respond_resetIn (c : Status) (d : Bytes) (s : State) :
    (respond c d s).resetIn = s.resetIn := rfl

/-! `Fail` (R112). -/

@[simp] theorem fail_params (c : Status) (s : State) :
    (fail c s).params = s.params := rfl

@[simp] theorem fail_st (c : Status) (s : State) :
    (fail c s).st = .failed := rfl

@[simp] theorem fail_err (c : Status) (s : State) :
    (fail c s).err = c := rfl

@[simp] theorem fail_dir (c : Status) (s : State) :
    (fail c s).dir = s.dir := rfl

@[simp] theorem fail_macBytes (c : Status) (s : State) :
    (fail c s).macBytes = s.macBytes := rfl

@[simp] theorem fail_kv (c : Status) (s : State) :
    (fail c s).kv = s.kv := rfl

@[simp] theorem fail_key (c : Status) (s : State) :
    (fail c s).key = s.key := rfl

@[simp] theorem fail_H (c : Status) (s : State) :
    (fail c s).H = s.H := rfl

@[simp] theorem fail_M (c : Status) (s : State) :
    (fail c s).M = s.M := rfl

@[simp] theorem fail_lev (c : Status) (s : State) :
    (fail c s).lev = s.lev := rfl

@[simp] theorem fail_lastEncKey (c : Status) (s : State) :
    (fail c s).lastEncKey = s.lastEncKey := rfl

@[simp] theorem fail_lastEncNonce (c : Status) (s : State) :
    (fail c s).lastEncNonce = s.lastEncNonce := rfl

@[simp] theorem fail_cfgv (c : Status) (s : State) :
    (fail c s).cfgv = s.cfgv := rfl

@[simp] theorem fail_J0 (c : Status) (s : State) :
    (fail c s).J0 = s.J0 := rfl

@[simp] theorem fail_ctr (c : Status) (s : State) :
    (fail c s).ctr = s.J0 := rfl

@[simp] theorem fail_blocksRem (c : Status) (s : State) :
    (fail c s).blocksRem = Config.budget0 := rfl

@[simp] theorem fail_S (c : Status) (s : State) :
    (fail c s).S = 0#128 := rfl

@[simp] theorem fail_S_at (c : Status) (s : State) :
    (fail c s).S_at = 0#128 := rfl

@[simp] theorem fail_S_atPre (c : Status) (s : State) :
    (fail c s).S_atPre = 0#128 := rfl

@[simp] theorem fail_atBuf (c : Status) (s : State) :
    (fail c s).atBuf = zeroBuf 16 := rfl

@[simp] theorem fail_atPos (c : Status) (s : State) :
    (fail c s).atPos = 0#4 := rfl

@[simp] theorem fail_atLen (c : Status) (s : State) :
    (fail c s).atLen = 0#64 := rfl

@[simp] theorem fail_atLenPre (c : Status) (s : State) :
    (fail c s).atLenPre = 0#64 := rfl

@[simp] theorem fail_buf (c : Status) (s : State) :
    (fail c s).buf = zeroBuf 32 := rfl

@[simp] theorem fail_bufPos (c : Status) (s : State) :
    (fail c s).bufPos = 0#6 := rfl

@[simp] theorem fail_payLen (c : Status) (s : State) :
    (fail c s).payLen = 0#64 := rfl

@[simp] theorem fail_macReg (c : Status) (s : State) :
    (fail c s).macReg = zeroBuf 16 := rfl

@[simp] theorem fail_chan (c : Status) (s : State) :
    (fail c s).chan = s.chan := rfl

@[simp] theorem fail_resp (c : Status) (s : State) :
    (fail c s).resp = s.resp ++ [mkResponse c []] := rfl

@[simp] theorem fail_port (c : Status) (s : State) :
    (fail c s).port = s.port := rfl

@[simp] theorem fail_resetIn (c : Status) (s : State) :
    (fail c s).resetIn = s.resetIn := rfl

/-! FINAL's ending (R93). -/

@[simp] theorem endSession_params (t : Bytes) (s : State) :
    (endSession t s).params = s.params := rfl

@[simp] theorem endSession_st (t : Bytes) (s : State) :
    (endSession t s).st = .done := rfl

@[simp] theorem endSession_err (t : Bytes) (s : State) :
    (endSession t s).err = s.err := rfl

@[simp] theorem endSession_dir (t : Bytes) (s : State) :
    (endSession t s).dir = s.dir := rfl

@[simp] theorem endSession_macBytes (t : Bytes) (s : State) :
    (endSession t s).macBytes = s.macBytes := rfl

@[simp] theorem endSession_kv (t : Bytes) (s : State) :
    (endSession t s).kv = s.kv := rfl

@[simp] theorem endSession_key (t : Bytes) (s : State) :
    (endSession t s).key = s.key := rfl

@[simp] theorem endSession_H (t : Bytes) (s : State) :
    (endSession t s).H = s.H := rfl

@[simp] theorem endSession_M (t : Bytes) (s : State) :
    (endSession t s).M = s.M := rfl

@[simp] theorem endSession_lev (t : Bytes) (s : State) :
    (endSession t s).lev = s.lev := rfl

@[simp] theorem endSession_lastEncKey (t : Bytes) (s : State) :
    (endSession t s).lastEncKey = s.lastEncKey := rfl

@[simp] theorem endSession_lastEncNonce (t : Bytes) (s : State) :
    (endSession t s).lastEncNonce = s.lastEncNonce := rfl

@[simp] theorem endSession_cfgv (t : Bytes) (s : State) :
    (endSession t s).cfgv = s.cfgv := rfl

@[simp] theorem endSession_J0 (t : Bytes) (s : State) :
    (endSession t s).J0 = s.J0 := rfl

@[simp] theorem endSession_ctr (t : Bytes) (s : State) :
    (endSession t s).ctr = s.J0 := rfl

@[simp] theorem endSession_blocksRem (t : Bytes) (s : State) :
    (endSession t s).blocksRem = Config.budget0 := rfl

@[simp] theorem endSession_S (t : Bytes) (s : State) :
    (endSession t s).S = 0#128 := rfl

@[simp] theorem endSession_S_at (t : Bytes) (s : State) :
    (endSession t s).S_at = 0#128 := rfl

@[simp] theorem endSession_S_atPre (t : Bytes) (s : State) :
    (endSession t s).S_atPre = 0#128 := rfl

@[simp] theorem endSession_atBuf (t : Bytes) (s : State) :
    (endSession t s).atBuf = zeroBuf 16 := rfl

@[simp] theorem endSession_atPos (t : Bytes) (s : State) :
    (endSession t s).atPos = 0#4 := rfl

@[simp] theorem endSession_atLen (t : Bytes) (s : State) :
    (endSession t s).atLen = 0#64 := rfl

@[simp] theorem endSession_atLenPre (t : Bytes) (s : State) :
    (endSession t s).atLenPre = 0#64 := rfl

@[simp] theorem endSession_buf (t : Bytes) (s : State) :
    (endSession t s).buf = zeroBuf 32 := rfl

@[simp] theorem endSession_bufPos (t : Bytes) (s : State) :
    (endSession t s).bufPos = 0#6 := rfl

@[simp] theorem endSession_payLen (t : Bytes) (s : State) :
    (endSession t s).payLen = 0#64 := rfl

@[simp] theorem endSession_macReg (t : Bytes) (s : State) :
    (endSession t s).macReg = vecOfBytes 16 t := rfl

@[simp] theorem endSession_chan (t : Bytes) (s : State) :
    (endSession t s).chan = s.chan := rfl

@[simp] theorem endSession_resp (t : Bytes) (s : State) :
    (endSession t s).resp = s.resp := rfl

@[simp] theorem endSession_port (t : Bytes) (s : State) :
    (endSession t s).port = s.port := rfl

@[simp] theorem endSession_resetIn (t : Bytes) (s : State) :
    (endSession t s).resetIn = s.resetIn := rfl

/-! The snapshot (R83). -/

@[simp] theorem snapshot_params (s : State) :
    (snapshot s).params = s.params := rfl

@[simp] theorem snapshot_st (s : State) :
    (snapshot s).st = .stream := rfl

@[simp] theorem snapshot_err (s : State) :
    (snapshot s).err = s.err := rfl

@[simp] theorem snapshot_dir (s : State) :
    (snapshot s).dir = s.dir := rfl

@[simp] theorem snapshot_macBytes (s : State) :
    (snapshot s).macBytes = s.macBytes := rfl

@[simp] theorem snapshot_kv (s : State) :
    (snapshot s).kv = s.kv := rfl

@[simp] theorem snapshot_key (s : State) :
    (snapshot s).key = s.key := rfl

@[simp] theorem snapshot_H (s : State) :
    (snapshot s).H = s.H := rfl

@[simp] theorem snapshot_M (s : State) :
    (snapshot s).M = s.M := rfl

@[simp] theorem snapshot_lev (s : State) :
    (snapshot s).lev = s.lev := rfl

@[simp] theorem snapshot_lastEncKey (s : State) :
    (snapshot s).lastEncKey = s.lastEncKey := rfl

@[simp] theorem snapshot_lastEncNonce (s : State) :
    (snapshot s).lastEncNonce = s.lastEncNonce := rfl

@[simp] theorem snapshot_cfgv (s : State) :
    (snapshot s).cfgv = s.cfgv := rfl

@[simp] theorem snapshot_J0 (s : State) :
    (snapshot s).J0 = s.J0 := rfl

@[simp] theorem snapshot_ctr (s : State) :
    (snapshot s).ctr = s.ctr := rfl

@[simp] theorem snapshot_blocksRem (s : State) :
    (snapshot s).blocksRem = s.blocksRem := rfl

@[simp] theorem snapshot_S (s : State) :
    (snapshot s).S = finalAadHash s := rfl

@[simp] theorem snapshot_S_at (s : State) :
    (snapshot s).S_at = s.S_at := rfl

@[simp] theorem snapshot_S_atPre (s : State) :
    (snapshot s).S_atPre = finalAadHash s := rfl

@[simp] theorem snapshot_atBuf (s : State) :
    (snapshot s).atBuf = s.atBuf := rfl

@[simp] theorem snapshot_atPos (s : State) :
    (snapshot s).atPos = s.atPos := rfl

@[simp] theorem snapshot_atLen (s : State) :
    (snapshot s).atLen = s.atLen := rfl

@[simp] theorem snapshot_atLenPre (s : State) :
    (snapshot s).atLenPre = if 0 < s.atPos.toNat then s.atLen + s.atPos.setWidth 64 else s.atLen := rfl

@[simp] theorem snapshot_buf (s : State) :
    (snapshot s).buf = s.buf := rfl

@[simp] theorem snapshot_bufPos (s : State) :
    (snapshot s).bufPos = s.bufPos := rfl

@[simp] theorem snapshot_payLen (s : State) :
    (snapshot s).payLen = s.payLen := rfl

@[simp] theorem snapshot_macReg (s : State) :
    (snapshot s).macReg = s.macReg := rfl

@[simp] theorem snapshot_chan (s : State) :
    (snapshot s).chan = s.chan := rfl

@[simp] theorem snapshot_resp (s : State) :
    (snapshot s).resp = s.resp := rfl

@[simp] theorem snapshot_port (s : State) :
    (snapshot s).port = s.port := rfl

@[simp] theorem snapshot_resetIn (s : State) :
    (snapshot s).resetIn = s.resetIn := rfl

/-! The key step of the multiplier (R64). -/

@[simp] theorem multInit_params (h : Block) (s : State) :
    (multInit h s).params = s.params := rfl

@[simp] theorem multInit_st (h : Block) (s : State) :
    (multInit h s).st = s.st := rfl

@[simp] theorem multInit_err (h : Block) (s : State) :
    (multInit h s).err = s.err := rfl

@[simp] theorem multInit_dir (h : Block) (s : State) :
    (multInit h s).dir = s.dir := rfl

@[simp] theorem multInit_macBytes (h : Block) (s : State) :
    (multInit h s).macBytes = s.macBytes := rfl

@[simp] theorem multInit_kv (h : Block) (s : State) :
    (multInit h s).kv = s.kv := rfl

@[simp] theorem multInit_key (h : Block) (s : State) :
    (multInit h s).key = s.key := rfl

@[simp] theorem multInit_H (h : Block) (s : State) :
    (multInit h s).H = h := rfl

@[simp] theorem multInit_M (h : Block) (s : State) :
    (multInit h s).M = tablesFor s.params.multImpl h := rfl

@[simp] theorem multInit_lev (h : Block) (s : State) :
    (multInit h s).lev = s.lev := rfl

@[simp] theorem multInit_lastEncKey (h : Block) (s : State) :
    (multInit h s).lastEncKey = s.lastEncKey := rfl

@[simp] theorem multInit_lastEncNonce (h : Block) (s : State) :
    (multInit h s).lastEncNonce = s.lastEncNonce := rfl

@[simp] theorem multInit_cfgv (h : Block) (s : State) :
    (multInit h s).cfgv = s.cfgv := rfl

@[simp] theorem multInit_J0 (h : Block) (s : State) :
    (multInit h s).J0 = s.J0 := rfl

@[simp] theorem multInit_ctr (h : Block) (s : State) :
    (multInit h s).ctr = s.ctr := rfl

@[simp] theorem multInit_blocksRem (h : Block) (s : State) :
    (multInit h s).blocksRem = s.blocksRem := rfl

@[simp] theorem multInit_S (h : Block) (s : State) :
    (multInit h s).S = s.S := rfl

@[simp] theorem multInit_S_at (h : Block) (s : State) :
    (multInit h s).S_at = s.S_at := rfl

@[simp] theorem multInit_S_atPre (h : Block) (s : State) :
    (multInit h s).S_atPre = s.S_atPre := rfl

@[simp] theorem multInit_atBuf (h : Block) (s : State) :
    (multInit h s).atBuf = s.atBuf := rfl

@[simp] theorem multInit_atPos (h : Block) (s : State) :
    (multInit h s).atPos = s.atPos := rfl

@[simp] theorem multInit_atLen (h : Block) (s : State) :
    (multInit h s).atLen = s.atLen := rfl

@[simp] theorem multInit_atLenPre (h : Block) (s : State) :
    (multInit h s).atLenPre = s.atLenPre := rfl

@[simp] theorem multInit_buf (h : Block) (s : State) :
    (multInit h s).buf = s.buf := rfl

@[simp] theorem multInit_bufPos (h : Block) (s : State) :
    (multInit h s).bufPos = s.bufPos := rfl

@[simp] theorem multInit_payLen (h : Block) (s : State) :
    (multInit h s).payLen = s.payLen := rfl

@[simp] theorem multInit_macReg (h : Block) (s : State) :
    (multInit h s).macReg = s.macReg := rfl

@[simp] theorem multInit_chan (h : Block) (s : State) :
    (multInit h s).chan = s.chan := rfl

@[simp] theorem multInit_resp (h : Block) (s : State) :
    (multInit h s).resp = s.resp := rfl

@[simp] theorem multInit_port (h : Block) (s : State) :
    (multInit h s).port = s.port := rfl

@[simp] theorem multInit_resetIn (h : Block) (s : State) :
    (multInit h s).resetIn = s.resetIn := rfl

/-! A cipher call (R33). -/

@[simp] theorem portEnc_params (b : Block) (s : State) :
    (portEnc b s).params = s.params := rfl

@[simp] theorem portEnc_st (b : Block) (s : State) :
    (portEnc b s).st = s.st := rfl

@[simp] theorem portEnc_err (b : Block) (s : State) :
    (portEnc b s).err = s.err := rfl

@[simp] theorem portEnc_dir (b : Block) (s : State) :
    (portEnc b s).dir = s.dir := rfl

@[simp] theorem portEnc_macBytes (b : Block) (s : State) :
    (portEnc b s).macBytes = s.macBytes := rfl

@[simp] theorem portEnc_kv (b : Block) (s : State) :
    (portEnc b s).kv = s.kv := rfl

@[simp] theorem portEnc_key (b : Block) (s : State) :
    (portEnc b s).key = s.key := rfl

@[simp] theorem portEnc_H (b : Block) (s : State) :
    (portEnc b s).H = s.H := rfl

@[simp] theorem portEnc_M (b : Block) (s : State) :
    (portEnc b s).M = s.M := rfl

@[simp] theorem portEnc_lev (b : Block) (s : State) :
    (portEnc b s).lev = s.lev := rfl

@[simp] theorem portEnc_lastEncKey (b : Block) (s : State) :
    (portEnc b s).lastEncKey = s.lastEncKey := rfl

@[simp] theorem portEnc_lastEncNonce (b : Block) (s : State) :
    (portEnc b s).lastEncNonce = s.lastEncNonce := rfl

@[simp] theorem portEnc_cfgv (b : Block) (s : State) :
    (portEnc b s).cfgv = s.cfgv := rfl

@[simp] theorem portEnc_J0 (b : Block) (s : State) :
    (portEnc b s).J0 = s.J0 := rfl

@[simp] theorem portEnc_ctr (b : Block) (s : State) :
    (portEnc b s).ctr = s.ctr := rfl

@[simp] theorem portEnc_blocksRem (b : Block) (s : State) :
    (portEnc b s).blocksRem = s.blocksRem := rfl

@[simp] theorem portEnc_S (b : Block) (s : State) :
    (portEnc b s).S = s.S := rfl

@[simp] theorem portEnc_S_at (b : Block) (s : State) :
    (portEnc b s).S_at = s.S_at := rfl

@[simp] theorem portEnc_S_atPre (b : Block) (s : State) :
    (portEnc b s).S_atPre = s.S_atPre := rfl

@[simp] theorem portEnc_atBuf (b : Block) (s : State) :
    (portEnc b s).atBuf = s.atBuf := rfl

@[simp] theorem portEnc_atPos (b : Block) (s : State) :
    (portEnc b s).atPos = s.atPos := rfl

@[simp] theorem portEnc_atLen (b : Block) (s : State) :
    (portEnc b s).atLen = s.atLen := rfl

@[simp] theorem portEnc_atLenPre (b : Block) (s : State) :
    (portEnc b s).atLenPre = s.atLenPre := rfl

@[simp] theorem portEnc_buf (b : Block) (s : State) :
    (portEnc b s).buf = s.buf := rfl

@[simp] theorem portEnc_bufPos (b : Block) (s : State) :
    (portEnc b s).bufPos = s.bufPos := rfl

@[simp] theorem portEnc_payLen (b : Block) (s : State) :
    (portEnc b s).payLen = s.payLen := rfl

@[simp] theorem portEnc_macReg (b : Block) (s : State) :
    (portEnc b s).macReg = s.macReg := rfl

@[simp] theorem portEnc_chan (b : Block) (s : State) :
    (portEnc b s).chan = s.chan := rfl

@[simp] theorem portEnc_resp (b : Block) (s : State) :
    (portEnc b s).resp = s.resp := rfl

@[simp] theorem portEnc_port (b : Block) (s : State) :
    (portEnc b s).port = s.port ++ [.enc b] := rfl

@[simp] theorem portEnc_resetIn (b : Block) (s : State) :
    (portEnc b s).resetIn = s.resetIn := rfl

/-! A key load (R33). -/

@[simp] theorem portLoad_params (k : Bytes) (s : State) :
    (portLoad k s).params = s.params := rfl

@[simp] theorem portLoad_st (k : Bytes) (s : State) :
    (portLoad k s).st = s.st := rfl

@[simp] theorem portLoad_err (k : Bytes) (s : State) :
    (portLoad k s).err = s.err := rfl

@[simp] theorem portLoad_dir (k : Bytes) (s : State) :
    (portLoad k s).dir = s.dir := rfl

@[simp] theorem portLoad_macBytes (k : Bytes) (s : State) :
    (portLoad k s).macBytes = s.macBytes := rfl

@[simp] theorem portLoad_kv (k : Bytes) (s : State) :
    (portLoad k s).kv = s.kv := rfl

@[simp] theorem portLoad_key (k : Bytes) (s : State) :
    (portLoad k s).key = s.key := rfl

@[simp] theorem portLoad_H (k : Bytes) (s : State) :
    (portLoad k s).H = s.H := rfl

@[simp] theorem portLoad_M (k : Bytes) (s : State) :
    (portLoad k s).M = s.M := rfl

@[simp] theorem portLoad_lev (k : Bytes) (s : State) :
    (portLoad k s).lev = s.lev := rfl

@[simp] theorem portLoad_lastEncKey (k : Bytes) (s : State) :
    (portLoad k s).lastEncKey = s.lastEncKey := rfl

@[simp] theorem portLoad_lastEncNonce (k : Bytes) (s : State) :
    (portLoad k s).lastEncNonce = s.lastEncNonce := rfl

@[simp] theorem portLoad_cfgv (k : Bytes) (s : State) :
    (portLoad k s).cfgv = s.cfgv := rfl

@[simp] theorem portLoad_J0 (k : Bytes) (s : State) :
    (portLoad k s).J0 = s.J0 := rfl

@[simp] theorem portLoad_ctr (k : Bytes) (s : State) :
    (portLoad k s).ctr = s.ctr := rfl

@[simp] theorem portLoad_blocksRem (k : Bytes) (s : State) :
    (portLoad k s).blocksRem = s.blocksRem := rfl

@[simp] theorem portLoad_S (k : Bytes) (s : State) :
    (portLoad k s).S = s.S := rfl

@[simp] theorem portLoad_S_at (k : Bytes) (s : State) :
    (portLoad k s).S_at = s.S_at := rfl

@[simp] theorem portLoad_S_atPre (k : Bytes) (s : State) :
    (portLoad k s).S_atPre = s.S_atPre := rfl

@[simp] theorem portLoad_atBuf (k : Bytes) (s : State) :
    (portLoad k s).atBuf = s.atBuf := rfl

@[simp] theorem portLoad_atPos (k : Bytes) (s : State) :
    (portLoad k s).atPos = s.atPos := rfl

@[simp] theorem portLoad_atLen (k : Bytes) (s : State) :
    (portLoad k s).atLen = s.atLen := rfl

@[simp] theorem portLoad_atLenPre (k : Bytes) (s : State) :
    (portLoad k s).atLenPre = s.atLenPre := rfl

@[simp] theorem portLoad_buf (k : Bytes) (s : State) :
    (portLoad k s).buf = s.buf := rfl

@[simp] theorem portLoad_bufPos (k : Bytes) (s : State) :
    (portLoad k s).bufPos = s.bufPos := rfl

@[simp] theorem portLoad_payLen (k : Bytes) (s : State) :
    (portLoad k s).payLen = s.payLen := rfl

@[simp] theorem portLoad_macReg (k : Bytes) (s : State) :
    (portLoad k s).macReg = s.macReg := rfl

@[simp] theorem portLoad_chan (k : Bytes) (s : State) :
    (portLoad k s).chan = s.chan := rfl

@[simp] theorem portLoad_resp (k : Bytes) (s : State) :
    (portLoad k s).resp = s.resp := rfl

@[simp] theorem portLoad_port (k : Bytes) (s : State) :
    (portLoad k s).port = s.port ++ [.load k] := rfl

@[simp] theorem portLoad_resetIn (k : Bytes) (s : State) :
    (portLoad k s).resetIn = s.resetIn := rfl

/-! The AAD registers (R21). -/

@[simp] theorem setAad_params (h : Block) (l : BitVec 64) (b : Vector Byte 16) (p : BitVec 4) (s : State) :
    (setAad h l b p s).params = s.params := rfl

@[simp] theorem setAad_st (h : Block) (l : BitVec 64) (b : Vector Byte 16) (p : BitVec 4) (s : State) :
    (setAad h l b p s).st = s.st := rfl

@[simp] theorem setAad_err (h : Block) (l : BitVec 64) (b : Vector Byte 16) (p : BitVec 4) (s : State) :
    (setAad h l b p s).err = s.err := rfl

@[simp] theorem setAad_dir (h : Block) (l : BitVec 64) (b : Vector Byte 16) (p : BitVec 4) (s : State) :
    (setAad h l b p s).dir = s.dir := rfl

@[simp] theorem setAad_macBytes (h : Block) (l : BitVec 64) (b : Vector Byte 16) (p : BitVec 4) (s : State) :
    (setAad h l b p s).macBytes = s.macBytes := rfl

@[simp] theorem setAad_kv (h : Block) (l : BitVec 64) (b : Vector Byte 16) (p : BitVec 4) (s : State) :
    (setAad h l b p s).kv = s.kv := rfl

@[simp] theorem setAad_key (h : Block) (l : BitVec 64) (b : Vector Byte 16) (p : BitVec 4) (s : State) :
    (setAad h l b p s).key = s.key := rfl

@[simp] theorem setAad_H (h : Block) (l : BitVec 64) (b : Vector Byte 16) (p : BitVec 4) (s : State) :
    (setAad h l b p s).H = s.H := rfl

@[simp] theorem setAad_M (h : Block) (l : BitVec 64) (b : Vector Byte 16) (p : BitVec 4) (s : State) :
    (setAad h l b p s).M = s.M := rfl

@[simp] theorem setAad_lev (h : Block) (l : BitVec 64) (b : Vector Byte 16) (p : BitVec 4) (s : State) :
    (setAad h l b p s).lev = s.lev := rfl

@[simp] theorem setAad_lastEncKey (h : Block) (l : BitVec 64) (b : Vector Byte 16) (p : BitVec 4) (s : State) :
    (setAad h l b p s).lastEncKey = s.lastEncKey := rfl

@[simp] theorem setAad_lastEncNonce (h : Block) (l : BitVec 64) (b : Vector Byte 16) (p : BitVec 4) (s : State) :
    (setAad h l b p s).lastEncNonce = s.lastEncNonce := rfl

@[simp] theorem setAad_cfgv (h : Block) (l : BitVec 64) (b : Vector Byte 16) (p : BitVec 4) (s : State) :
    (setAad h l b p s).cfgv = s.cfgv := rfl

@[simp] theorem setAad_J0 (h : Block) (l : BitVec 64) (b : Vector Byte 16) (p : BitVec 4) (s : State) :
    (setAad h l b p s).J0 = s.J0 := rfl

@[simp] theorem setAad_ctr (h : Block) (l : BitVec 64) (b : Vector Byte 16) (p : BitVec 4) (s : State) :
    (setAad h l b p s).ctr = s.ctr := rfl

@[simp] theorem setAad_blocksRem (h : Block) (l : BitVec 64) (b : Vector Byte 16) (p : BitVec 4) (s : State) :
    (setAad h l b p s).blocksRem = s.blocksRem := rfl

@[simp] theorem setAad_S (h : Block) (l : BitVec 64) (b : Vector Byte 16) (p : BitVec 4) (s : State) :
    (setAad h l b p s).S = s.S := rfl

@[simp] theorem setAad_S_at (h : Block) (l : BitVec 64) (b : Vector Byte 16) (p : BitVec 4) (s : State) :
    (setAad h l b p s).S_at = h := rfl

@[simp] theorem setAad_S_atPre (h : Block) (l : BitVec 64) (b : Vector Byte 16) (p : BitVec 4) (s : State) :
    (setAad h l b p s).S_atPre = s.S_atPre := rfl

@[simp] theorem setAad_atBuf (h : Block) (l : BitVec 64) (b : Vector Byte 16) (p : BitVec 4) (s : State) :
    (setAad h l b p s).atBuf = b := rfl

@[simp] theorem setAad_atPos (h : Block) (l : BitVec 64) (b : Vector Byte 16) (p : BitVec 4) (s : State) :
    (setAad h l b p s).atPos = p := rfl

@[simp] theorem setAad_atLen (h : Block) (l : BitVec 64) (b : Vector Byte 16) (p : BitVec 4) (s : State) :
    (setAad h l b p s).atLen = l := rfl

@[simp] theorem setAad_atLenPre (h : Block) (l : BitVec 64) (b : Vector Byte 16) (p : BitVec 4) (s : State) :
    (setAad h l b p s).atLenPre = s.atLenPre := rfl

@[simp] theorem setAad_buf (h : Block) (l : BitVec 64) (b : Vector Byte 16) (p : BitVec 4) (s : State) :
    (setAad h l b p s).buf = s.buf := rfl

@[simp] theorem setAad_bufPos (h : Block) (l : BitVec 64) (b : Vector Byte 16) (p : BitVec 4) (s : State) :
    (setAad h l b p s).bufPos = s.bufPos := rfl

@[simp] theorem setAad_payLen (h : Block) (l : BitVec 64) (b : Vector Byte 16) (p : BitVec 4) (s : State) :
    (setAad h l b p s).payLen = s.payLen := rfl

@[simp] theorem setAad_macReg (h : Block) (l : BitVec 64) (b : Vector Byte 16) (p : BitVec 4) (s : State) :
    (setAad h l b p s).macReg = s.macReg := rfl

@[simp] theorem setAad_chan (h : Block) (l : BitVec 64) (b : Vector Byte 16) (p : BitVec 4) (s : State) :
    (setAad h l b p s).chan = s.chan := rfl

@[simp] theorem setAad_resp (h : Block) (l : BitVec 64) (b : Vector Byte 16) (p : BitVec 4) (s : State) :
    (setAad h l b p s).resp = s.resp := rfl

@[simp] theorem setAad_port (h : Block) (l : BitVec 64) (b : Vector Byte 16) (p : BitVec 4) (s : State) :
    (setAad h l b p s).port = s.port := rfl

@[simp] theorem setAad_resetIn (h : Block) (l : BitVec 64) (b : Vector Byte 16) (p : BitVec 4) (s : State) :
    (setAad h l b p s).resetIn = s.resetIn := rfl

/-! The payload window (R23). -/

@[simp] theorem setWindow_params (b : Vector Byte 32) (p : BitVec 6) (s : State) :
    (setWindow b p s).params = s.params := rfl

@[simp] theorem setWindow_st (b : Vector Byte 32) (p : BitVec 6) (s : State) :
    (setWindow b p s).st = s.st := rfl

@[simp] theorem setWindow_err (b : Vector Byte 32) (p : BitVec 6) (s : State) :
    (setWindow b p s).err = s.err := rfl

@[simp] theorem setWindow_dir (b : Vector Byte 32) (p : BitVec 6) (s : State) :
    (setWindow b p s).dir = s.dir := rfl

@[simp] theorem setWindow_macBytes (b : Vector Byte 32) (p : BitVec 6) (s : State) :
    (setWindow b p s).macBytes = s.macBytes := rfl

@[simp] theorem setWindow_kv (b : Vector Byte 32) (p : BitVec 6) (s : State) :
    (setWindow b p s).kv = s.kv := rfl

@[simp] theorem setWindow_key (b : Vector Byte 32) (p : BitVec 6) (s : State) :
    (setWindow b p s).key = s.key := rfl

@[simp] theorem setWindow_H (b : Vector Byte 32) (p : BitVec 6) (s : State) :
    (setWindow b p s).H = s.H := rfl

@[simp] theorem setWindow_M (b : Vector Byte 32) (p : BitVec 6) (s : State) :
    (setWindow b p s).M = s.M := rfl

@[simp] theorem setWindow_lev (b : Vector Byte 32) (p : BitVec 6) (s : State) :
    (setWindow b p s).lev = s.lev := rfl

@[simp] theorem setWindow_lastEncKey (b : Vector Byte 32) (p : BitVec 6) (s : State) :
    (setWindow b p s).lastEncKey = s.lastEncKey := rfl

@[simp] theorem setWindow_lastEncNonce (b : Vector Byte 32) (p : BitVec 6) (s : State) :
    (setWindow b p s).lastEncNonce = s.lastEncNonce := rfl

@[simp] theorem setWindow_cfgv (b : Vector Byte 32) (p : BitVec 6) (s : State) :
    (setWindow b p s).cfgv = s.cfgv := rfl

@[simp] theorem setWindow_J0 (b : Vector Byte 32) (p : BitVec 6) (s : State) :
    (setWindow b p s).J0 = s.J0 := rfl

@[simp] theorem setWindow_ctr (b : Vector Byte 32) (p : BitVec 6) (s : State) :
    (setWindow b p s).ctr = s.ctr := rfl

@[simp] theorem setWindow_blocksRem (b : Vector Byte 32) (p : BitVec 6) (s : State) :
    (setWindow b p s).blocksRem = s.blocksRem := rfl

@[simp] theorem setWindow_S (b : Vector Byte 32) (p : BitVec 6) (s : State) :
    (setWindow b p s).S = s.S := rfl

@[simp] theorem setWindow_S_at (b : Vector Byte 32) (p : BitVec 6) (s : State) :
    (setWindow b p s).S_at = s.S_at := rfl

@[simp] theorem setWindow_S_atPre (b : Vector Byte 32) (p : BitVec 6) (s : State) :
    (setWindow b p s).S_atPre = s.S_atPre := rfl

@[simp] theorem setWindow_atBuf (b : Vector Byte 32) (p : BitVec 6) (s : State) :
    (setWindow b p s).atBuf = s.atBuf := rfl

@[simp] theorem setWindow_atPos (b : Vector Byte 32) (p : BitVec 6) (s : State) :
    (setWindow b p s).atPos = s.atPos := rfl

@[simp] theorem setWindow_atLen (b : Vector Byte 32) (p : BitVec 6) (s : State) :
    (setWindow b p s).atLen = s.atLen := rfl

@[simp] theorem setWindow_atLenPre (b : Vector Byte 32) (p : BitVec 6) (s : State) :
    (setWindow b p s).atLenPre = s.atLenPre := rfl

@[simp] theorem setWindow_buf (b : Vector Byte 32) (p : BitVec 6) (s : State) :
    (setWindow b p s).buf = b := rfl

@[simp] theorem setWindow_bufPos (b : Vector Byte 32) (p : BitVec 6) (s : State) :
    (setWindow b p s).bufPos = p := rfl

@[simp] theorem setWindow_payLen (b : Vector Byte 32) (p : BitVec 6) (s : State) :
    (setWindow b p s).payLen = s.payLen := rfl

@[simp] theorem setWindow_macReg (b : Vector Byte 32) (p : BitVec 6) (s : State) :
    (setWindow b p s).macReg = s.macReg := rfl

@[simp] theorem setWindow_chan (b : Vector Byte 32) (p : BitVec 6) (s : State) :
    (setWindow b p s).chan = s.chan := rfl

@[simp] theorem setWindow_resp (b : Vector Byte 32) (p : BitVec 6) (s : State) :
    (setWindow b p s).resp = s.resp := rfl

@[simp] theorem setWindow_port (b : Vector Byte 32) (p : BitVec 6) (s : State) :
    (setWindow b p s).port = s.port := rfl

@[simp] theorem setWindow_resetIn (b : Vector Byte 32) (p : BitVec 6) (s : State) :
    (setWindow b p s).resetIn = s.resetIn := rfl

/-! The cipher path (R18 to R20, R24). -/

@[simp] theorem setPath_params (h c : Block) (r : BitVec 32) (l : BitVec 64) (e : List PortEvent) (s : State) :
    (setPath h c r l e s).params = s.params := rfl

@[simp] theorem setPath_st (h c : Block) (r : BitVec 32) (l : BitVec 64) (e : List PortEvent) (s : State) :
    (setPath h c r l e s).st = s.st := rfl

@[simp] theorem setPath_err (h c : Block) (r : BitVec 32) (l : BitVec 64) (e : List PortEvent) (s : State) :
    (setPath h c r l e s).err = s.err := rfl

@[simp] theorem setPath_dir (h c : Block) (r : BitVec 32) (l : BitVec 64) (e : List PortEvent) (s : State) :
    (setPath h c r l e s).dir = s.dir := rfl

@[simp] theorem setPath_macBytes (h c : Block) (r : BitVec 32) (l : BitVec 64) (e : List PortEvent) (s : State) :
    (setPath h c r l e s).macBytes = s.macBytes := rfl

@[simp] theorem setPath_kv (h c : Block) (r : BitVec 32) (l : BitVec 64) (e : List PortEvent) (s : State) :
    (setPath h c r l e s).kv = s.kv := rfl

@[simp] theorem setPath_key (h c : Block) (r : BitVec 32) (l : BitVec 64) (e : List PortEvent) (s : State) :
    (setPath h c r l e s).key = s.key := rfl

@[simp] theorem setPath_H (h c : Block) (r : BitVec 32) (l : BitVec 64) (e : List PortEvent) (s : State) :
    (setPath h c r l e s).H = s.H := rfl

@[simp] theorem setPath_M (h c : Block) (r : BitVec 32) (l : BitVec 64) (e : List PortEvent) (s : State) :
    (setPath h c r l e s).M = s.M := rfl

@[simp] theorem setPath_lev (h c : Block) (r : BitVec 32) (l : BitVec 64) (e : List PortEvent) (s : State) :
    (setPath h c r l e s).lev = s.lev := rfl

@[simp] theorem setPath_lastEncKey (h c : Block) (r : BitVec 32) (l : BitVec 64) (e : List PortEvent) (s : State) :
    (setPath h c r l e s).lastEncKey = s.lastEncKey := rfl

@[simp] theorem setPath_lastEncNonce (h c : Block) (r : BitVec 32) (l : BitVec 64) (e : List PortEvent) (s : State) :
    (setPath h c r l e s).lastEncNonce = s.lastEncNonce := rfl

@[simp] theorem setPath_cfgv (h c : Block) (r : BitVec 32) (l : BitVec 64) (e : List PortEvent) (s : State) :
    (setPath h c r l e s).cfgv = s.cfgv := rfl

@[simp] theorem setPath_J0 (h c : Block) (r : BitVec 32) (l : BitVec 64) (e : List PortEvent) (s : State) :
    (setPath h c r l e s).J0 = s.J0 := rfl

@[simp] theorem setPath_ctr (h c : Block) (r : BitVec 32) (l : BitVec 64) (e : List PortEvent) (s : State) :
    (setPath h c r l e s).ctr = c := rfl

@[simp] theorem setPath_blocksRem (h c : Block) (r : BitVec 32) (l : BitVec 64) (e : List PortEvent) (s : State) :
    (setPath h c r l e s).blocksRem = r := rfl

@[simp] theorem setPath_S (h c : Block) (r : BitVec 32) (l : BitVec 64) (e : List PortEvent) (s : State) :
    (setPath h c r l e s).S = h := rfl

@[simp] theorem setPath_S_at (h c : Block) (r : BitVec 32) (l : BitVec 64) (e : List PortEvent) (s : State) :
    (setPath h c r l e s).S_at = s.S_at := rfl

@[simp] theorem setPath_S_atPre (h c : Block) (r : BitVec 32) (l : BitVec 64) (e : List PortEvent) (s : State) :
    (setPath h c r l e s).S_atPre = s.S_atPre := rfl

@[simp] theorem setPath_atBuf (h c : Block) (r : BitVec 32) (l : BitVec 64) (e : List PortEvent) (s : State) :
    (setPath h c r l e s).atBuf = s.atBuf := rfl

@[simp] theorem setPath_atPos (h c : Block) (r : BitVec 32) (l : BitVec 64) (e : List PortEvent) (s : State) :
    (setPath h c r l e s).atPos = s.atPos := rfl

@[simp] theorem setPath_atLen (h c : Block) (r : BitVec 32) (l : BitVec 64) (e : List PortEvent) (s : State) :
    (setPath h c r l e s).atLen = s.atLen := rfl

@[simp] theorem setPath_atLenPre (h c : Block) (r : BitVec 32) (l : BitVec 64) (e : List PortEvent) (s : State) :
    (setPath h c r l e s).atLenPre = s.atLenPre := rfl

@[simp] theorem setPath_buf (h c : Block) (r : BitVec 32) (l : BitVec 64) (e : List PortEvent) (s : State) :
    (setPath h c r l e s).buf = s.buf := rfl

@[simp] theorem setPath_bufPos (h c : Block) (r : BitVec 32) (l : BitVec 64) (e : List PortEvent) (s : State) :
    (setPath h c r l e s).bufPos = s.bufPos := rfl

@[simp] theorem setPath_payLen (h c : Block) (r : BitVec 32) (l : BitVec 64) (e : List PortEvent) (s : State) :
    (setPath h c r l e s).payLen = l := rfl

@[simp] theorem setPath_macReg (h c : Block) (r : BitVec 32) (l : BitVec 64) (e : List PortEvent) (s : State) :
    (setPath h c r l e s).macReg = s.macReg := rfl

@[simp] theorem setPath_chan (h c : Block) (r : BitVec 32) (l : BitVec 64) (e : List PortEvent) (s : State) :
    (setPath h c r l e s).chan = s.chan := rfl

@[simp] theorem setPath_resp (h c : Block) (r : BitVec 32) (l : BitVec 64) (e : List PortEvent) (s : State) :
    (setPath h c r l e s).resp = s.resp := rfl

@[simp] theorem setPath_port (h c : Block) (r : BitVec 32) (l : BitVec 64) (e : List PortEvent) (s : State) :
    (setPath h c r l e s).port = e := rfl

@[simp] theorem setPath_resetIn (h c : Block) (r : BitVec 32) (l : BitVec 64) (e : List PortEvent) (s : State) :
    (setPath h c r l e s).resetIn = s.resetIn := rfl

/-! A run of calls on the cipher port (R33). -/

@[simp] theorem portCalls_params (e : List PortEvent) (s : State) :
    (portCalls e s).params = s.params := rfl

@[simp] theorem portCalls_st (e : List PortEvent) (s : State) :
    (portCalls e s).st = s.st := rfl

@[simp] theorem portCalls_err (e : List PortEvent) (s : State) :
    (portCalls e s).err = s.err := rfl

@[simp] theorem portCalls_dir (e : List PortEvent) (s : State) :
    (portCalls e s).dir = s.dir := rfl

@[simp] theorem portCalls_macBytes (e : List PortEvent) (s : State) :
    (portCalls e s).macBytes = s.macBytes := rfl

@[simp] theorem portCalls_kv (e : List PortEvent) (s : State) :
    (portCalls e s).kv = s.kv := rfl

@[simp] theorem portCalls_key (e : List PortEvent) (s : State) :
    (portCalls e s).key = s.key := rfl

@[simp] theorem portCalls_H (e : List PortEvent) (s : State) :
    (portCalls e s).H = s.H := rfl

@[simp] theorem portCalls_M (e : List PortEvent) (s : State) :
    (portCalls e s).M = s.M := rfl

@[simp] theorem portCalls_lev (e : List PortEvent) (s : State) :
    (portCalls e s).lev = s.lev := rfl

@[simp] theorem portCalls_lastEncKey (e : List PortEvent) (s : State) :
    (portCalls e s).lastEncKey = s.lastEncKey := rfl

@[simp] theorem portCalls_lastEncNonce (e : List PortEvent) (s : State) :
    (portCalls e s).lastEncNonce = s.lastEncNonce := rfl

@[simp] theorem portCalls_cfgv (e : List PortEvent) (s : State) :
    (portCalls e s).cfgv = s.cfgv := rfl

@[simp] theorem portCalls_J0 (e : List PortEvent) (s : State) :
    (portCalls e s).J0 = s.J0 := rfl

@[simp] theorem portCalls_ctr (e : List PortEvent) (s : State) :
    (portCalls e s).ctr = s.ctr := rfl

@[simp] theorem portCalls_blocksRem (e : List PortEvent) (s : State) :
    (portCalls e s).blocksRem = s.blocksRem := rfl

@[simp] theorem portCalls_S (e : List PortEvent) (s : State) :
    (portCalls e s).S = s.S := rfl

@[simp] theorem portCalls_S_at (e : List PortEvent) (s : State) :
    (portCalls e s).S_at = s.S_at := rfl

@[simp] theorem portCalls_S_atPre (e : List PortEvent) (s : State) :
    (portCalls e s).S_atPre = s.S_atPre := rfl

@[simp] theorem portCalls_atBuf (e : List PortEvent) (s : State) :
    (portCalls e s).atBuf = s.atBuf := rfl

@[simp] theorem portCalls_atPos (e : List PortEvent) (s : State) :
    (portCalls e s).atPos = s.atPos := rfl

@[simp] theorem portCalls_atLen (e : List PortEvent) (s : State) :
    (portCalls e s).atLen = s.atLen := rfl

@[simp] theorem portCalls_atLenPre (e : List PortEvent) (s : State) :
    (portCalls e s).atLenPre = s.atLenPre := rfl

@[simp] theorem portCalls_buf (e : List PortEvent) (s : State) :
    (portCalls e s).buf = s.buf := rfl

@[simp] theorem portCalls_bufPos (e : List PortEvent) (s : State) :
    (portCalls e s).bufPos = s.bufPos := rfl

@[simp] theorem portCalls_payLen (e : List PortEvent) (s : State) :
    (portCalls e s).payLen = s.payLen := rfl

@[simp] theorem portCalls_macReg (e : List PortEvent) (s : State) :
    (portCalls e s).macReg = s.macReg := rfl

@[simp] theorem portCalls_chan (e : List PortEvent) (s : State) :
    (portCalls e s).chan = s.chan := rfl

@[simp] theorem portCalls_resp (e : List PortEvent) (s : State) :
    (portCalls e s).resp = s.resp := rfl

@[simp] theorem portCalls_port (e : List PortEvent) (s : State) :
    (portCalls e s).port = s.port ++ e := rfl

@[simp] theorem portCalls_resetIn (e : List PortEvent) (s : State) :
    (portCalls e s).resetIn = s.resetIn := rfl

/-! The GHASH accumulator (R20). -/

@[simp] theorem setHash_params (h : Block) (s : State) :
    (setHash h s).params = s.params := rfl

@[simp] theorem setHash_st (h : Block) (s : State) :
    (setHash h s).st = s.st := rfl

@[simp] theorem setHash_err (h : Block) (s : State) :
    (setHash h s).err = s.err := rfl

@[simp] theorem setHash_dir (h : Block) (s : State) :
    (setHash h s).dir = s.dir := rfl

@[simp] theorem setHash_macBytes (h : Block) (s : State) :
    (setHash h s).macBytes = s.macBytes := rfl

@[simp] theorem setHash_kv (h : Block) (s : State) :
    (setHash h s).kv = s.kv := rfl

@[simp] theorem setHash_key (h : Block) (s : State) :
    (setHash h s).key = s.key := rfl

@[simp] theorem setHash_H (h : Block) (s : State) :
    (setHash h s).H = s.H := rfl

@[simp] theorem setHash_M (h : Block) (s : State) :
    (setHash h s).M = s.M := rfl

@[simp] theorem setHash_lev (h : Block) (s : State) :
    (setHash h s).lev = s.lev := rfl

@[simp] theorem setHash_lastEncKey (h : Block) (s : State) :
    (setHash h s).lastEncKey = s.lastEncKey := rfl

@[simp] theorem setHash_lastEncNonce (h : Block) (s : State) :
    (setHash h s).lastEncNonce = s.lastEncNonce := rfl

@[simp] theorem setHash_cfgv (h : Block) (s : State) :
    (setHash h s).cfgv = s.cfgv := rfl

@[simp] theorem setHash_J0 (h : Block) (s : State) :
    (setHash h s).J0 = s.J0 := rfl

@[simp] theorem setHash_ctr (h : Block) (s : State) :
    (setHash h s).ctr = s.ctr := rfl

@[simp] theorem setHash_blocksRem (h : Block) (s : State) :
    (setHash h s).blocksRem = s.blocksRem := rfl

@[simp] theorem setHash_S (h : Block) (s : State) :
    (setHash h s).S = h := rfl

@[simp] theorem setHash_S_at (h : Block) (s : State) :
    (setHash h s).S_at = s.S_at := rfl

@[simp] theorem setHash_S_atPre (h : Block) (s : State) :
    (setHash h s).S_atPre = s.S_atPre := rfl

@[simp] theorem setHash_atBuf (h : Block) (s : State) :
    (setHash h s).atBuf = s.atBuf := rfl

@[simp] theorem setHash_atPos (h : Block) (s : State) :
    (setHash h s).atPos = s.atPos := rfl

@[simp] theorem setHash_atLen (h : Block) (s : State) :
    (setHash h s).atLen = s.atLen := rfl

@[simp] theorem setHash_atLenPre (h : Block) (s : State) :
    (setHash h s).atLenPre = s.atLenPre := rfl

@[simp] theorem setHash_buf (h : Block) (s : State) :
    (setHash h s).buf = s.buf := rfl

@[simp] theorem setHash_bufPos (h : Block) (s : State) :
    (setHash h s).bufPos = s.bufPos := rfl

@[simp] theorem setHash_payLen (h : Block) (s : State) :
    (setHash h s).payLen = s.payLen := rfl

@[simp] theorem setHash_macReg (h : Block) (s : State) :
    (setHash h s).macReg = s.macReg := rfl

@[simp] theorem setHash_chan (h : Block) (s : State) :
    (setHash h s).chan = s.chan := rfl

@[simp] theorem setHash_resp (h : Block) (s : State) :
    (setHash h s).resp = s.resp := rfl

@[simp] theorem setHash_port (h : Block) (s : State) :
    (setHash h s).port = s.port := rfl

@[simp] theorem setHash_resetIn (h : Block) (s : State) :
    (setHash h s).resetIn = s.resetIn := rfl

/-! The payload count (R24). -/

@[simp] theorem addPayload_params (n : Nat) (s : State) :
    (addPayload n s).params = s.params := rfl

@[simp] theorem addPayload_st (n : Nat) (s : State) :
    (addPayload n s).st = s.st := rfl

@[simp] theorem addPayload_err (n : Nat) (s : State) :
    (addPayload n s).err = s.err := rfl

@[simp] theorem addPayload_dir (n : Nat) (s : State) :
    (addPayload n s).dir = s.dir := rfl

@[simp] theorem addPayload_macBytes (n : Nat) (s : State) :
    (addPayload n s).macBytes = s.macBytes := rfl

@[simp] theorem addPayload_kv (n : Nat) (s : State) :
    (addPayload n s).kv = s.kv := rfl

@[simp] theorem addPayload_key (n : Nat) (s : State) :
    (addPayload n s).key = s.key := rfl

@[simp] theorem addPayload_H (n : Nat) (s : State) :
    (addPayload n s).H = s.H := rfl

@[simp] theorem addPayload_M (n : Nat) (s : State) :
    (addPayload n s).M = s.M := rfl

@[simp] theorem addPayload_lev (n : Nat) (s : State) :
    (addPayload n s).lev = s.lev := rfl

@[simp] theorem addPayload_lastEncKey (n : Nat) (s : State) :
    (addPayload n s).lastEncKey = s.lastEncKey := rfl

@[simp] theorem addPayload_lastEncNonce (n : Nat) (s : State) :
    (addPayload n s).lastEncNonce = s.lastEncNonce := rfl

@[simp] theorem addPayload_cfgv (n : Nat) (s : State) :
    (addPayload n s).cfgv = s.cfgv := rfl

@[simp] theorem addPayload_J0 (n : Nat) (s : State) :
    (addPayload n s).J0 = s.J0 := rfl

@[simp] theorem addPayload_ctr (n : Nat) (s : State) :
    (addPayload n s).ctr = s.ctr := rfl

@[simp] theorem addPayload_blocksRem (n : Nat) (s : State) :
    (addPayload n s).blocksRem = s.blocksRem := rfl

@[simp] theorem addPayload_S (n : Nat) (s : State) :
    (addPayload n s).S = s.S := rfl

@[simp] theorem addPayload_S_at (n : Nat) (s : State) :
    (addPayload n s).S_at = s.S_at := rfl

@[simp] theorem addPayload_S_atPre (n : Nat) (s : State) :
    (addPayload n s).S_atPre = s.S_atPre := rfl

@[simp] theorem addPayload_atBuf (n : Nat) (s : State) :
    (addPayload n s).atBuf = s.atBuf := rfl

@[simp] theorem addPayload_atPos (n : Nat) (s : State) :
    (addPayload n s).atPos = s.atPos := rfl

@[simp] theorem addPayload_atLen (n : Nat) (s : State) :
    (addPayload n s).atLen = s.atLen := rfl

@[simp] theorem addPayload_atLenPre (n : Nat) (s : State) :
    (addPayload n s).atLenPre = s.atLenPre := rfl

@[simp] theorem addPayload_buf (n : Nat) (s : State) :
    (addPayload n s).buf = s.buf := rfl

@[simp] theorem addPayload_bufPos (n : Nat) (s : State) :
    (addPayload n s).bufPos = s.bufPos := rfl

@[simp] theorem addPayload_payLen (n : Nat) (s : State) :
    (addPayload n s).payLen = s.payLen + BitVec.ofNat 64 n := rfl

@[simp] theorem addPayload_macReg (n : Nat) (s : State) :
    (addPayload n s).macReg = s.macReg := rfl

@[simp] theorem addPayload_chan (n : Nat) (s : State) :
    (addPayload n s).chan = s.chan := rfl

@[simp] theorem addPayload_resp (n : Nat) (s : State) :
    (addPayload n s).resp = s.resp := rfl

@[simp] theorem addPayload_port (n : Nat) (s : State) :
    (addPayload n s).port = s.port := rfl

@[simp] theorem addPayload_resetIn (n : Nat) (s : State) :
    (addPayload n s).resetIn = s.resetIn := rfl

/-! The host offers bytes (R31). -/

@[simp] theorem offer_params (bs : Bytes) (s : State) :
    (offer bs s).params = s.params := rfl

@[simp] theorem offer_st (bs : Bytes) (s : State) :
    (offer bs s).st = s.st := rfl

@[simp] theorem offer_err (bs : Bytes) (s : State) :
    (offer bs s).err = s.err := rfl

@[simp] theorem offer_dir (bs : Bytes) (s : State) :
    (offer bs s).dir = s.dir := rfl

@[simp] theorem offer_macBytes (bs : Bytes) (s : State) :
    (offer bs s).macBytes = s.macBytes := rfl

@[simp] theorem offer_kv (bs : Bytes) (s : State) :
    (offer bs s).kv = s.kv := rfl

@[simp] theorem offer_key (bs : Bytes) (s : State) :
    (offer bs s).key = s.key := rfl

@[simp] theorem offer_H (bs : Bytes) (s : State) :
    (offer bs s).H = s.H := rfl

@[simp] theorem offer_M (bs : Bytes) (s : State) :
    (offer bs s).M = s.M := rfl

@[simp] theorem offer_lev (bs : Bytes) (s : State) :
    (offer bs s).lev = s.lev := rfl

@[simp] theorem offer_lastEncKey (bs : Bytes) (s : State) :
    (offer bs s).lastEncKey = s.lastEncKey := rfl

@[simp] theorem offer_lastEncNonce (bs : Bytes) (s : State) :
    (offer bs s).lastEncNonce = s.lastEncNonce := rfl

@[simp] theorem offer_cfgv (bs : Bytes) (s : State) :
    (offer bs s).cfgv = s.cfgv := rfl

@[simp] theorem offer_J0 (bs : Bytes) (s : State) :
    (offer bs s).J0 = s.J0 := rfl

@[simp] theorem offer_ctr (bs : Bytes) (s : State) :
    (offer bs s).ctr = s.ctr := rfl

@[simp] theorem offer_blocksRem (bs : Bytes) (s : State) :
    (offer bs s).blocksRem = s.blocksRem := rfl

@[simp] theorem offer_S (bs : Bytes) (s : State) :
    (offer bs s).S = s.S := rfl

@[simp] theorem offer_S_at (bs : Bytes) (s : State) :
    (offer bs s).S_at = s.S_at := rfl

@[simp] theorem offer_S_atPre (bs : Bytes) (s : State) :
    (offer bs s).S_atPre = s.S_atPre := rfl

@[simp] theorem offer_atBuf (bs : Bytes) (s : State) :
    (offer bs s).atBuf = s.atBuf := rfl

@[simp] theorem offer_atPos (bs : Bytes) (s : State) :
    (offer bs s).atPos = s.atPos := rfl

@[simp] theorem offer_atLen (bs : Bytes) (s : State) :
    (offer bs s).atLen = s.atLen := rfl

@[simp] theorem offer_atLenPre (bs : Bytes) (s : State) :
    (offer bs s).atLenPre = s.atLenPre := rfl

@[simp] theorem offer_buf (bs : Bytes) (s : State) :
    (offer bs s).buf = s.buf := rfl

@[simp] theorem offer_bufPos (bs : Bytes) (s : State) :
    (offer bs s).bufPos = s.bufPos := rfl

@[simp] theorem offer_payLen (bs : Bytes) (s : State) :
    (offer bs s).payLen = s.payLen := rfl

@[simp] theorem offer_macReg (bs : Bytes) (s : State) :
    (offer bs s).macReg = s.macReg := rfl

@[simp] theorem offer_chan (bs : Bytes) (s : State) :
    (offer bs s).chan = s.chan ++ bs := rfl

@[simp] theorem offer_resp (bs : Bytes) (s : State) :
    (offer bs s).resp = s.resp := rfl

@[simp] theorem offer_port (bs : Bytes) (s : State) :
    (offer bs s).port = s.port := rfl

@[simp] theorem offer_resetIn (bs : Bytes) (s : State) :
    (offer bs s).resetIn = s.resetIn := rfl

/-! The snapshot taken if it has not been (R83). -/

@[simp] theorem ensureSnapshot_params (s : State) : (ensureSnapshot s).params = s.params := by
  unfold ensureSnapshot; split <;> rfl

@[simp] theorem ensureSnapshot_st (s : State) : (ensureSnapshot s).st = .stream := by
  unfold ensureSnapshot; split
  · assumption
  · rfl

@[simp] theorem ensureSnapshot_err (s : State) : (ensureSnapshot s).err = s.err := by
  unfold ensureSnapshot; split <;> rfl

@[simp] theorem ensureSnapshot_dir (s : State) : (ensureSnapshot s).dir = s.dir := by
  unfold ensureSnapshot; split <;> rfl

@[simp] theorem ensureSnapshot_macBytes (s : State) : (ensureSnapshot s).macBytes = s.macBytes := by
  unfold ensureSnapshot; split <;> rfl

@[simp] theorem ensureSnapshot_kv (s : State) : (ensureSnapshot s).kv = s.kv := by
  unfold ensureSnapshot; split <;> rfl

@[simp] theorem ensureSnapshot_key (s : State) : (ensureSnapshot s).key = s.key := by
  unfold ensureSnapshot; split <;> rfl

@[simp] theorem ensureSnapshot_H (s : State) : (ensureSnapshot s).H = s.H := by
  unfold ensureSnapshot; split <;> rfl

@[simp] theorem ensureSnapshot_M (s : State) : (ensureSnapshot s).M = s.M := by
  unfold ensureSnapshot; split <;> rfl

@[simp] theorem ensureSnapshot_lev (s : State) : (ensureSnapshot s).lev = s.lev := by
  unfold ensureSnapshot; split <;> rfl

@[simp] theorem ensureSnapshot_lastEncKey (s : State) : (ensureSnapshot s).lastEncKey = s.lastEncKey := by
  unfold ensureSnapshot; split <;> rfl

@[simp] theorem ensureSnapshot_lastEncNonce (s : State) : (ensureSnapshot s).lastEncNonce = s.lastEncNonce := by
  unfold ensureSnapshot; split <;> rfl

@[simp] theorem ensureSnapshot_cfgv (s : State) : (ensureSnapshot s).cfgv = s.cfgv := by
  unfold ensureSnapshot; split <;> rfl

@[simp] theorem ensureSnapshot_J0 (s : State) : (ensureSnapshot s).J0 = s.J0 := by
  unfold ensureSnapshot; split <;> rfl

@[simp] theorem ensureSnapshot_ctr (s : State) : (ensureSnapshot s).ctr = s.ctr := by
  unfold ensureSnapshot; split <;> rfl

@[simp] theorem ensureSnapshot_blocksRem (s : State) : (ensureSnapshot s).blocksRem = s.blocksRem := by
  unfold ensureSnapshot; split <;> rfl

@[simp] theorem ensureSnapshot_S_at (s : State) : (ensureSnapshot s).S_at = s.S_at := by
  unfold ensureSnapshot; split <;> rfl

@[simp] theorem ensureSnapshot_atBuf (s : State) : (ensureSnapshot s).atBuf = s.atBuf := by
  unfold ensureSnapshot; split <;> rfl

@[simp] theorem ensureSnapshot_atPos (s : State) : (ensureSnapshot s).atPos = s.atPos := by
  unfold ensureSnapshot; split <;> rfl

@[simp] theorem ensureSnapshot_atLen (s : State) : (ensureSnapshot s).atLen = s.atLen := by
  unfold ensureSnapshot; split <;> rfl

@[simp] theorem ensureSnapshot_buf (s : State) : (ensureSnapshot s).buf = s.buf := by
  unfold ensureSnapshot; split <;> rfl

@[simp] theorem ensureSnapshot_bufPos (s : State) : (ensureSnapshot s).bufPos = s.bufPos := by
  unfold ensureSnapshot; split <;> rfl

@[simp] theorem ensureSnapshot_payLen (s : State) : (ensureSnapshot s).payLen = s.payLen := by
  unfold ensureSnapshot; split <;> rfl

@[simp] theorem ensureSnapshot_macReg (s : State) : (ensureSnapshot s).macReg = s.macReg := by
  unfold ensureSnapshot; split <;> rfl

@[simp] theorem ensureSnapshot_chan (s : State) : (ensureSnapshot s).chan = s.chan := by
  unfold ensureSnapshot; split <;> rfl

@[simp] theorem ensureSnapshot_resp (s : State) : (ensureSnapshot s).resp = s.resp := by
  unfold ensureSnapshot; split <;> rfl

@[simp] theorem ensureSnapshot_port (s : State) : (ensureSnapshot s).port = s.port := by
  unfold ensureSnapshot; split <;> rfl

@[simp] theorem ensureSnapshot_resetIn (s : State) : (ensureSnapshot s).resetIn = s.resetIn := by
  unfold ensureSnapshot; split <;> rfl

end Sys2Proof.Machine
end

