-- ==== Sys2Proof/Laws/Ghash.lean ====
section
/-! SUPPORT. The GHASH operations: hashing strings in pieces, and all that ingesting associated data does. -/

namespace Sys2Proof.Machine

/-- `mulH` reads `MULT_IMPL`, `H` and `M` only. -/
theorem mulH_congr {s t : State} (hi : s.params = t.params) (hh : s.H = t.H) (hm : s.M = t.M) : mulH s = mulH t := by
  funext x
  simp only [mulH, hi, hh, hm]

theorem ghashBlock_eq (s : State) (y b : Block) : ghashBlock s y b = mulH s (y ^^^ b) := rfl

/-- R71: a partial block is hashed as the block padded with zero bytes. -/
theorem ghashPartial_eq (s : State) (y : Block) (bs : Bytes) (n : Nat) :
    ghashPartial s y bs n = ghashBlock s y (blockOfBytes (bs.take n)) := rfl

/-- Hashing `a + b` blocks is hashing `a` blocks, then `b` more. -/
theorem ghashRunWith_add (mul : Block → Block) (a b : Nat) (y : Block) (m : Bytes) :
    ghashRunWith mul (a + b) y m = ghashRunWith mul b (ghashRunWith mul a y m) (m.drop (16 * a)) := by
  induction a generalizing y m with
  | zero => simp [ghashRunWith]
  | succ a ih =>
    rw [Nat.succ_add, ghashRunWith, ghashRunWith, ih, List.drop_drop]
    congr 2
    omega

/-- The blocks hashed are those of the string's front. -/
theorem ghashRunWith_append (mul : Block → Block) (q : Nat) (y : Block) (m r : Bytes) (h : 16 * q ≤ m.length) :
    ghashRunWith mul q y (m ++ r) = ghashRunWith mul q y m := by
  induction q generalizing y m with
  | zero => rfl
  | succ q ih =>
    rw [ghashRunWith, ghashRunWith, List.take_append_of_le_length (by omega), List.drop_append_of_le_length (by omega),
      ih _ _ (by rw [List.length_drop]; omega)]

theorem ghashRunWith_take (mul : Block → Block) (q : Nat) (y : Block) (m : Bytes) (h : 16 * q ≤ m.length) :
    ghashRunWith mul q y (m.take (16 * q)) = ghashRunWith mul q y m := by
  conv_rhs => rw [← List.take_append_drop (16 * q) m]
  rw [ghashRunWith_append _ _ _ _ _ (by simp [h])]

/-- R73: hashing `a ++ b` where `a` ends at a block boundary. -/
theorem ghashWith_append (mul : Block → Block) (y : Block) (a b : Bytes) (h : a.length % 16 = 0) :
    ghashWith mul y (a ++ b) = ghashWith mul (ghashWith mul y a) b := by
  have hq : (a ++ b).length / 16 = a.length / 16 + b.length / 16 := by rw [List.length_append]; omega
  have hr : (a ++ b).length % 16 = b.length % 16 := by rw [List.length_append]; omega
  have ha : 16 * (a.length / 16) = a.length := by omega
  have hd : ∀ k, (a ++ b).drop (16 * (a.length / 16 + k)) = b.drop (16 * k) := by
    intro k
    rw [Nat.mul_add, ha, List.drop_append]
    simp
  simp only [ghashWith, hq, hr, hd]
  rw [ghashRunWith_add, ghashRunWith_append _ _ _ _ _ (by omega), ha]
  simp [h]

/-- R73: a string of whole blocks has no partial block. -/
theorem ghashWith_of_blocks (mul : Block → Block) (y : Block) (m : Bytes) (h : m.length % 16 = 0) :
    ghashWith mul y m = ghashRunWith mul (m.length / 16) y m := by
  simp [ghashWith, h]

/-- R73: a string shorter than a block and not empty is one padded block. -/
theorem ghashWith_short (mul : Block → Block) (y : Block) (m : Bytes) (h0 : 0 < m.length) (h : m.length < 16) :
    ghashWith mul y m = mul (y ^^^ blockOfBytes m) := by
  have hq : m.length / 16 = 0 := by omega
  have hr : m.length % 16 = m.length := by omega
  simp [ghashWith, hq, hr, ghashRunWith]
  intro h; simp [h] at h0

theorem ghashWith_nil (mul : Block → Block) (y : Block) : ghashWith mul y [] = y := by
  simp [ghashWith, ghashRunWith]

/-- The whole blocks first, then the rest. -/
theorem ghashWith_split (mul : Block → Block) (y : Block) (m : Bytes) (q : Nat) (h : 16 * q ≤ m.length) :
    ghashWith mul y m = ghashWith mul (ghashRunWith mul q y m) (m.drop (16 * q)) := by
  conv_lhs => rw [← List.take_append_drop (16 * q) m]
  have hl : (m.take (16 * q)).length = 16 * q := by simp [h]
  rw [ghashWith_append _ _ _ _ (by rw [hl]; omega), ghashWith_of_blocks mul y (m.take (16 * q)) (by rw [hl]; omega), hl,
    Nat.mul_div_cancel_left _ (by norm_num), ghashRunWith_take _ _ _ _ h]

/-- Storing a byte at the fill position of a canonical buffer. -/
theorem setIfInBounds_fill {n : Nat} {bs : Bytes} (b : Byte) (h : bs.length < n) :
    (vecOfBytes n bs).setIfInBounds bs.length b = vecOfBytes n (bs ++ [b]) := by
  apply vec_ext
  rw [Vector.toList_setIfInBounds, toList_vecOfBytes, toList_vecOfBytes, fitBytes_of_le h.le,
    fitBytes_of_le (by simp; omega)]
  obtain ⟨k, rfl⟩ : ∃ k, n = bs.length + (k + 1) := ⟨n - bs.length - 1, by omega⟩
  have h1 : bs.length + (k + 1) - bs.length = k + 1 := by omega
  have h2 : bs.length + (k + 1) - (bs ++ [b]).length = k := by simp; omega
  rw [h1, h2, List.replicate_succ, List.set_append_right _ _ le_rfl]
  simp

theorem length_stagedBytes (s : State) : (stagedBytes s).length = s.atPos.toNat := by
  have := s.atPos.isLt
  simp [stagedBytes]
  omega

theorem setAad_setAad (h h' : Block) (l l' : BitVec 64) (b b' : Vector Byte 16) (p p' : BitVec 4) (s : State) :
    setAad h l b p (setAad h' l' b' p' s) = setAad h l b p s := rfl

@[simp] theorem mulH_setAad (h : Block) (l : BitVec 64) (b : Vector Byte 16) (p : BitVec 4) (s : State) :
    mulH (setAad h l b p s) = mulH s := rfl

theorem stagedBytes_setAad (h : Block) (l : BitVec 64) (bs : Bytes) (p : BitVec 4) (s : State) (hl : bs.length = p.toNat) :
    stagedBytes (setAad h l (vecOfBytes 16 bs) p s) = bs := by
  have := p.isLt
  simp only [stagedBytes, setAad_atBuf, setAad_atPos, toList_vecOfBytes]
  exact take_fitBytes hl (by omega)

/-- R72: all that ingesting associated data does, from a state whose staging buffer is canonical. -/
theorem aadIngest_eq (data : Bytes) (s : State) (hc : s.atBuf = vecOfBytes 16 (stagedBytes s)) :
    aadIngest data s = aadState data s := by
  induction data generalizing s with
  | nil =>
    have hl := length_stagedBytes s
    have hp := s.atPos.isLt
    have hq : s.atPos.toNat / 16 = 0 := by omega
    simp only [aadIngest, List.foldl_nil, aadState, pendingAad, List.append_nil, hl, hq, ghashRunWith, Nat.mul_zero,
      List.drop_zero, Nat.sub_zero, ← hc]
    apply State.ext <;> simp
  | cons b rest ih =>
    have hl := length_stagedBytes s
    have hp := s.atPos.isLt
    have hset : s.atBuf.setIfInBounds s.atPos.toNat b = vecOfBytes 16 (stagedBytes s ++ [b]) := by
      conv_lhs => rw [hc, ← hl]
      exact setIfInBounds_fill b (by omega)
    rw [aadIngest, List.foldl_cons, ← aadIngest]
    by_cases hfull : s.atPos.toNat + 1 = 16
    · have hm : (stagedBytes s ++ [b]).length = 16 := by simp [hl, hfull]
      have hbyte : aadIngestByte s b = setAad (mulH s (s.S_at ^^^ blockOfBytes (stagedBytes s ++ [b])))
          (s.atLen + 16#64) (vecOfBytes 16 []) 0#4 s := by
        simp only [aadIngestByte, hfull, if_true, hset, toList_vecOfBytes, blockOfBytes_fit, ghashBlock_eq]
        rfl
      rw [hbyte, ih _ (by rw [stagedBytes_setAad _ _ _ _ _ rfl]; rfl)]
      have hq : ((stagedBytes s ++ [b]) ++ rest).length / 16 = rest.length / 16 + 1 := by
        rw [List.length_append, hm]; omega
      have hdrop : ∀ k, ((stagedBytes s ++ [b]) ++ rest).drop (16 * (k + 1)) = rest.drop (16 * k) := by
        intro k
        rw [List.drop_append, hm, List.drop_of_length_le (by omega), List.nil_append]
        congr 1
      have hd1 : ((stagedBytes s ++ [b]) ++ rest).drop 16 = rest := by simpa using hdrop 0
      have hlen : ((stagedBytes s ++ [b]) ++ rest).length - 16 * (rest.length / 16 + 1)
          = rest.length - 16 * (rest.length / 16) := by
        rw [List.length_append, hm]; omega
      have harith : s.atLen + 16#64 + BitVec.ofNat 64 (16 * (rest.length / 16))
          = s.atLen + BitVec.ofNat 64 (16 * (rest.length / 16 + 1)) := by
        apply BitVec.eq_of_toNat_eq
        simp only [BitVec.toNat_add, BitVec.toNat_ofNat]
        omega
      have hpend : pendingAad (b :: rest) s = (stagedBytes s ++ [b]) ++ rest := by simp [pendingAad]
      have hpend' : ∀ h l, pendingAad rest (setAad h l (vecOfBytes 16 []) 0#4 s) = rest := by
        intro h l
        rw [pendingAad, stagedBytes_setAad _ _ _ _ _ rfl, List.nil_append]
      simp only [aadState, hpend, hpend', setAad_setAad, mulH_setAad, setAad_S_at, setAad_atLen, hq, hdrop, hlen, harith,
        ghashRunWith,
        List.take_append_of_le_length hm.ge, List.take_of_length_le hm.le, hd1]
    · have hbyte : aadIngestByte s b =
          setAad s.S_at s.atLen (vecOfBytes 16 (stagedBytes s ++ [b])) (s.atPos + 1#4) s := by
        simp only [aadIngestByte, hfull, if_false, hset]
      have hst := stagedBytes_setAad s.S_at s.atLen (stagedBytes s ++ [b]) (s.atPos + 1#4) s
        (by rw [BitVec.toNat_add]; simp [hl]; omega)
      rw [hbyte, ih _ (by rw [hst]; rfl)]
      simp only [aadState, pendingAad, hst, List.append_assoc, List.singleton_append, setAad_setAad, mulH_setAad,
        setAad_S_at, setAad_atLen]

end Sys2Proof.Machine
end

