-- ==== Sys2Proof/Laws/Aad.lean ====
section
/-! SUPPORT. `HoldsAad` (10_state.md R27 item 12): what each shared operation does to the associated data the AAD registers
hold. -/

namespace Sys2Proof.Machine

theorem ghashRef_nil (h y : Block) : ghashRef h y [] = y := ghashWith_nil _ y

/-- `HoldsAad` looks at the AAD registers, the subkey and `st` only. -/
theorem HoldsAad.congr {a : Bytes} {s t : State} (h : HoldsAad a s) (hH : t.H = s.H) (hS : t.S_at = s.S_at)
    (hl : t.atLen = s.atLen) (hb : t.atBuf = s.atBuf) (hp : t.atPos = s.atPos)
    (hst : t.st = .stream → s.st = .stream ∧ t.S_atPre = s.S_atPre ∧ t.atLenPre = s.atLenPre) : HoldsAad a t where
  total := by rw [aadTotal, hl, hp]; exact h.total
  accumulator := by rw [hS, hH, hl]; exact h.accumulator
  staged := by rw [stagedBytes, hb, hp, hl]; exact h.staged
  snapshot := fun ht => by
    obtain ⟨h1, h2, h3⟩ := hst ht
    rw [h2, h3, hH]
    exact h.snapshot h1

/-- R80: a cleared session has no associated data. -/
theorem SessionCleared.holdsAad {s : State} (h : SessionCleared s) : HoldsAad [] s where
  total := by simp [aadTotal, h.atLen, h.atPos]
  accumulator := by simp [h.S_at, ghashRef_nil]
  staged := by simp [stagedBytes, h.atPos]
  snapshot := fun _ => by simp [h.S_atPre, ghashRef_nil]

theorem holdsAad_clearSession (s : State) : HoldsAad [] (clearSession s) :=
  SessionCleared.holdsAad (by constructor <;> rfl)

/-- R112. -/
theorem holdsAad_fail (code : Status) (s : State) : HoldsAad [] (fail code s) :=
  SessionCleared.holdsAad (by constructor <;> rfl)

/-- All of `a` is in `S_at` and the staging buffer (R87): the accumulator with the staged bytes folded in. -/
theorem HoldsAad.hash_eq {a : Bytes} {s : State} (h : HoldsAad a s) (hb : s.atLen.toNat % 16 = 0) :
    ghashRef s.H s.S_at (stagedBytes s) = ghashRef s.H 0#128 a := by
  have hle : s.atLen.toNat ≤ a.length := by rw [← h.total, aadTotal]; omega
  rw [h.accumulator, h.staged]
  conv_rhs => rw [← List.take_append_drop s.atLen.toNat a]
  rw [ghashRef, ghashRef, ghashRef, ghashWith_append]
  rw [List.length_take, min_eq_left hle]
  exact hb

/-- The staged bytes folded in, in the form the core computes it (R83, R87). -/
theorem finalAadHash_eq {s : State} (hm : mulH s = fun x => gfMul x s.H) :
    finalAadHash s = ghashRef s.H s.S_at (stagedBytes s) := by
  have hl := length_stagedBytes s
  have hp := s.atPos.isLt
  by_cases h : 0 < s.atPos.toNat
  · rw [finalAadHash, if_pos h, ghashPartial, hm, ghashRef, ghashWith_short _ _ _ (by omega) (by omega)]
    rfl
  · rw [finalAadHash, if_neg h, List.eq_nil_of_length_eq_zero (l := stagedBytes s) (by omega), ghashRef_nil]

/-- R83: taking the snapshot keeps the associated data held, and the snapshot is the hash of all of it. -/
theorem HoldsAad.snapshot_keeps {a : Bytes} {s : State} (h : HoldsAad a s) (hm : mulH s = fun x => gfMul x s.H)
    (hb : s.atLen.toNat % 16 = 0) (hlt : aadTotal s < 2 ^ 64) : HoldsAad a (Machine.snapshot s) where
  total := h.total
  accumulator := h.accumulator
  staged := h.staged
  snapshot := fun _ => by
    have hpre : (Machine.snapshot s).S_atPre = finalAadHash s := by simp [Machine.snapshot, finalAadHash]
    have hlen : (Machine.snapshot s).atLenPre.toNat = aadTotal s := by
      rw [aadTotal] at hlt ⊢
      have hp := s.atPos.isLt
      by_cases h : 0 < s.atPos.toNat
      · simp [Machine.snapshot, h]
        omega
      · simp [Machine.snapshot, h]
        omega
    rw [hpre, hlen, h.total, List.take_length, finalAadHash_eq hm, h.hash_eq hb]
    rfl

/-- R72: ingesting associated data appends it to what is held. -/
theorem HoldsAad.aadState_append {a : Bytes} {s : State} (h : HoldsAad a s) (data : Bytes)
    (hm : mulH s = fun x => gfMul x s.H) (hb : s.atLen.toNat % 16 = 0) (hlt : aadTotal s + data.length < 2 ^ 64)
    (hc : s.atLenPre.toNat ≤ aadTotal s) : HoldsAad (a ++ data) (aadState data s) := by
  have hle : s.atLen.toNat ≤ a.length := by rw [← h.total, aadTotal]; omega
  have hm' : (pendingAad data s).length = s.atPos.toNat + data.length := by
    rw [pendingAad, List.length_append, length_stagedBytes]
  have hpend : a ++ data = a.take s.atLen.toNat ++ pendingAad data s := by
    rw [pendingAad, h.staged, ← List.append_assoc, List.take_append_drop]
  have hlen : (aadState data s).atLen.toNat = s.atLen.toNat + 16 * ((pendingAad data s).length / 16) := by
    rw [aadTotal] at hlt
    simp only [aadState, setAad_atLen, BitVec.toNat_add, BitVec.toNat_ofNat]
    omega
  have hpos : (aadState data s).atPos.toNat
      = (pendingAad data s).length - 16 * ((pendingAad data s).length / 16) := by
    simp only [aadState, setAad_atPos, BitVec.toNat_ofNat]
    omega
  have htake : (a.take s.atLen.toNat).length = s.atLen.toNat := by rw [List.length_take, min_eq_left hle]
  have hcut : ∀ k, (a ++ data).take (s.atLen.toNat + k) = a.take s.atLen.toNat ++ (pendingAad data s).take k := by
    intro k
    rw [hpend, List.take_append, htake, List.take_of_length_le (by omega), Nat.add_sub_cancel_left]
  have hrest : ∀ k, (a ++ data).drop (s.atLen.toNat + k) = (pendingAad data s).drop k := by
    intro k
    rw [hpend, List.drop_append, htake, List.drop_of_length_le (by omega), Nat.add_sub_cancel_left, List.nil_append]
  have hq : 16 * ((pendingAad data s).length / 16) ≤ (pendingAad data s).length := Nat.mul_div_le _ _
  refine ⟨?_, ?_, ?_, ?_⟩
  · rw [aadTotal, hlen, hpos, List.length_append, ← h.total, aadTotal]
    omega
  · have hacc := h.accumulator
    have hH : (aadState data s).H = s.H := rfl
    have hS : (aadState data s).S_at =
        ghashRunWith (mulH s) ((pendingAad data s).length / 16) s.S_at (pendingAad data s) := rfl
    rw [hS, hlen, hH, hcut, hacc, hm, ghashRef, ghashRef, ghashWith_append _ _ _ _ (by rw [htake]; exact hb)]
    rw [ghashWith_of_blocks _ _ (List.take _ (pendingAad data s)) (by rw [List.length_take, min_eq_left hq]; omega),
      List.length_take, min_eq_left hq, Nat.mul_div_cancel_left _ (by norm_num), ghashRunWith_take _ _ _ _ hq]
  · have hst : stagedBytes (aadState data s) =
        (pendingAad data s).drop (16 * ((pendingAad data s).length / 16)) :=
      stagedBytes_setAad _ _ _ _ _ (by
        rw [List.length_drop, BitVec.toNat_ofNat]
        omega)
    rw [hst, hlen, hrest]
  · intro hst
    have hold := h.snapshot hst
    show s.S_atPre = ghashRef s.H 0#128 ((a ++ data).take s.atLenPre.toNat)
    rw [hold, List.take_append_of_le_length (by rw [← h.total]; exact hc)]

end Sys2Proof.Machine
end

