-- ==== Sys2Proof/Laws/Answers.lean ====
section
/-! SUPPORT. What a command's answer is, and which registers the payload path can touch, in every state. -/

namespace Sys2Proof.Machine

@[simp] theorem lastStatus_respond (c : Status) (d : Bytes) (s : State) : lastStatus (respond c d s) = some c := by
  simp [lastStatus, mkResponse]

@[simp] theorem lastData_respond (c : Status) (d : Bytes) (s : State) : lastData (respond c d s) = d := by
  simp [lastData, mkResponse]

@[simp] theorem lastStatus_fail (c : Status) (s : State) : lastStatus (fail c s) = some c := by
  simp [lastStatus, mkResponse]

@[simp] theorem lastData_fail (c : Status) (s : State) : lastData (fail c s) = [] := by
  simp [lastData, mkResponse]

/-- Every command gives a next state from every state: the block has no command that stops it (R110 to R112). -/
theorem exec_next (i : Instr) (s : State) : ∃ t, exec i s = .next t := by
  cases i with
  | init dir keyv macbits key nonce aad => simp only [exec, execInit]; split <;> exact ⟨_, rfl⟩
  | aad data => simp only [exec, execAad]; split <;> exact ⟨_, rfl⟩
  | proc data => simp only [exec, execProc]; split <;> [exact ⟨_, rfl⟩; (split <;> exact ⟨_, rfl⟩)]
  | final data => simp only [exec, execFinal]; split <;> [exact ⟨_, rfl⟩; (split <;> exact ⟨_, rfl⟩)]
  | getmac => exact ⟨_, rfl⟩
  | reset => exact ⟨_, rfl⟩
  | outsz len => exact ⟨_, rfl⟩
  | updsz len => exact ⟨_, rfl⟩

/-- RESET re-arms a configured decryption session (R95). -/
theorem resetSession_rearm (s : State) (hc : s.cfgv = true) (hd : s.dir = false) :
    resetSession s = { clearSession s with st := .ready, err := .ok } := by
  rw [resetSession, if_pos ⟨hc, hd⟩]

/-- RESET ends any other session (R95). -/
theorem resetSession_end (s : State) (h : ¬(s.cfgv = true ∧ s.dir = false)) :
    resetSession s = { clearSession { s with cfgv := false, J0 := 0#128 } with st := .uninit, err := .ok } := by
  rw [resetSession, if_neg h]

/-- The registers the payload path and the tag may touch (R84 to R88); every other keeps its value. -/
def PathFrame (s t : State) : Prop :=
  t = { s with
    st := t.st, ctr := t.ctr, blocksRem := t.blocksRem, S := t.S, S_atPre := t.S_atPre, atLenPre := t.atLenPre
    buf := t.buf, bufPos := t.bufPos, payLen := t.payLen, port := t.port }

theorem PathFrame.refl (s : State) : PathFrame s s := rfl

theorem PathFrame.trans {s t u : State} (h : PathFrame s t) (h' : PathFrame t u) : PathFrame s u := by
  unfold PathFrame at *
  rw [h] at h'
  exact h'

/-- Where work has got to, done or failed. -/
def workState {α : Type} : Work α → State
  | .done s _ => s
  | .fails s _ => s

theorem nextKeystreamBlock_frame (s : State) : PathFrame s (workState (nextKeystreamBlock s)) := by
  unfold nextKeystreamBlock
  split <;> rfl

theorem ensureSnapshot_frame (s : State) : PathFrame s (ensureSnapshot s) := by
  unfold ensureSnapshot
  split <;> rfl

theorem cipherBlock_frame (b : Block) (s : State) : PathFrame s (workState (cipherBlock b s)) := by
  unfold cipherBlock
  split
  · have h := nextKeystreamBlock_frame s
    revert h
    cases nextKeystreamBlock s with
    | fails s' c => exact id
    | done s' ks => exact fun h => h.trans rfl
  · have h0 : PathFrame s (setHash (ghashBlock s s.S b) s) := rfl
    have h := nextKeystreamBlock_frame (setHash (ghashBlock s s.S b) s)
    revert h
    cases nextKeystreamBlock (setHash (ghashBlock s s.S b) s) with
    | fails s' c => exact fun h => h0.trans h
    | done s' ks => exact fun h => (h0.trans h).trans rfl

theorem processBlock_frame (b : Block) (s : State) : PathFrame s (workState (processBlock b s)) :=
  (ensureSnapshot_frame s).trans (cipherBlock_frame b (ensureSnapshot s))

theorem absorbByte_frame (b : Byte) (s : State) : PathFrame s (workState (absorbByte b s)) := by
  unfold absorbByte
  simp only []
  split
  · have h := processBlock_frame (blockOfBytes ((s.buf.setIfInBounds s.bufPos.toNat b).toList.take 16)) s
    revert h
    cases processBlock (blockOfBytes ((s.buf.setIfInBounds s.bufPos.toNat b).toList.take 16)) s with
    | fails s' c => exact id
    | done s' out =>
      refine fun h => h.trans ?_
      show PathFrame s' (shiftWindow _ s')
      unfold shiftWindow
      split <;> rfl
  · rfl

/-- R85: absorbing payload touches the payload path only. -/
theorem absorb_frame (d : Bytes) (s : State) : PathFrame s (workState (absorb d s)) := by
  induction d generalizing s with
  | nil => rfl
  | cons b rest ih =>
    rw [absorb]
    have h := absorbByte_frame b s
    revert h
    cases absorbByte b s with
    | fails s' c => exact id
    | done s' out =>
      intro h
      have h' := ih s'
      simp only []
      revert h'
      cases absorb rest s' with
      | fails s'' c => exact fun h' => h.trans h'
      | done s'' outs => exact fun h' => h.trans h'

theorem processPartial_frame (n : Nat) (s : State) : PathFrame s (workState (processPartial n s)) := by
  unfold processPartial
  split
  · rfl
  · refine (ensureSnapshot_frame s).trans ?_
    generalize ensureSnapshot s = u
    unfold cipherPartial
    simp only []
    have h0 : PathFrame u (if u.dir = true then u else setHash (ghashPartial u u.S (u.buf.toList.take n) n) u) := by
      split <;> rfl
    generalize (if u.dir = true then u else setHash (ghashPartial u u.S (u.buf.toList.take n) n) u) = v at h0
    have h := nextKeystreamBlock_frame v
    revert h
    cases nextKeystreamBlock v with
    | fails s' c => exact fun h => h0.trans h
    | done s' ks =>
      refine fun h => (h0.trans h).trans ?_
      show PathFrame s' (addPayload n (if s'.dir = true then _ else s'))
      split <;> rfl

/-- R93: all of FINAL's work touches the payload path only. -/
theorem finalWork_frame (d : Bytes) (s : State) : PathFrame s (workState (finalWork d s)) := by
  unfold finalWork
  have h := absorb_frame d s
  revert h
  cases absorb d s with
  | fails s' c => exact id
  | done s' out1 =>
    intro h
    simp only []
    split
    · exact h
    · have hf : PathFrame s' (workState (finishPayload s')) := by
        unfold finishPayload
        have hp := (ensureSnapshot_frame s').trans (processPartial_frame (extraBytes s') (ensureSnapshot s'))
        revert hp
        cases processPartial (extraBytes s') (ensureSnapshot s') with
        | fails u c => exact id
        | done u out =>
          intro hp
          have ht : PathFrame u (computeTag (reconcile u)).1 := by
            refine PathFrame.trans (t := reconcile u) ?_ rfl
            unfold reconcile
            split <;> rfl
          simp only []
          split
          · exact hp.trans ht
          · split <;> exact hp.trans ht
      revert hf
      cases finishPayload s' with
      | fails u c => exact fun hf => h.trans hf
      | done u r => exact fun hf => h.trans hf

end Sys2Proof.Machine
end

