-- ==== Sys2Proof/Laws/Decode.lean ====
section
/-! SUPPORT. The descriptor's bytes and the fields of its first word: what is written is read back. -/

namespace Sys2Proof

@[simp] theorem length_descriptorBytes (d : Descriptor) : (descriptorBytes d).length = 16 := by
  simp [descriptorBytes]

theorem beNat_be32 (w : Word) : BitVec.ofNat 32 (beNat (be32 w)) = w := by
  apply BitVec.eq_of_toNat_eq
  rw [be32, beNat_beBytes, BitVec.toNat_ofNat]
  have := w.isLt
  omega

/-- R40: the four words are read back from a descriptor's bytes, whatever follows. -/
theorem parseDescriptor_append (d : Descriptor) (rest : Bytes) : parseDescriptor (descriptorBytes d ++ rest) = d := by
  have h : ∀ a b c e r : Bytes, a.length = 4 → b.length = 4 → c.length = 4 → e.length = 4 →
      ((a ++ b ++ c ++ e ++ r).drop 0).take 4 = a ∧ ((a ++ b ++ c ++ e ++ r).drop 4).take 4 = b ∧
      ((a ++ b ++ c ++ e ++ r).drop 8).take 4 = c ∧ ((a ++ b ++ c ++ e ++ r).drop 12).take 4 = e := by
    intro a b c e r ha hb hc he
    simp only [List.append_assoc]
    refine ⟨?_, ?_, ?_, ?_⟩
    · rw [List.drop_zero, List.take_append_of_le_length (by omega), List.take_of_length_le (by omega)]
    · rw [show 4 = a.length from ha.symm, List.drop_left, ha, List.take_append_of_le_length (by omega),
        List.take_of_length_le (by omega)]
    · rw [show 8 = (a ++ b).length by simp [ha, hb], ← List.append_assoc, List.drop_left,
        List.take_append_of_le_length (by omega), List.take_of_length_le (by omega)]
    · rw [show 12 = (a ++ (b ++ c)).length by simp [ha, hb, hc],
        show a ++ (b ++ (c ++ (e ++ r))) = (a ++ (b ++ c)) ++ (e ++ r) by simp, List.drop_left,
        List.take_append_of_le_length (by omega), List.take_of_length_le (by omega)]
  obtain ⟨h0, h1, h2, h3⟩ := h (be32 d.w0) (be32 d.w1) (be32 d.w2) (be32 d.w3) rest (by simp) (by simp) (by simp) (by simp)
  simp only [parseDescriptor, wordAt, descriptorBytes, Nat.mul_zero, Nat.mul_one, show 4 * 2 = 8 from rfl,
    show 4 * 3 = 12 from rfl, h0, h1, h2, h3, beNat_be32]

/-- R41: the equation of `W0` holds of the word itself. -/
theorem toNat_encodeW0 (op : Nat) (dir keyv : Bool) (m : BitVec 8) (h : op < 16) :
    (encodeW0 op dir keyv m).toNat = op * 268435456 + dir.toNat * 134217728 + keyv.toNat * 67108864 + m.toNat := by
  have hm : m.toNat < 256 := m.isLt
  have hd : dir.toNat ≤ 1 := Bool.toNat_le dir
  have hk : keyv.toNat ≤ 1 := Bool.toNat_le keyv
  simp only [encodeW0, BitVec.toNat_ofNat, Nat.reducePow]
  omega

/-- R41: the operation code is read back. -/
theorem fieldOp_encodeW0 (op : Nat) (dir keyv : Bool) (m : BitVec 8) (h : op < 16) :
    (fieldOp (encodeW0 op dir keyv m)).toNat = op := by
  have hm : m.toNat < 256 := m.isLt
  have hd : dir.toNat ≤ 1 := Bool.toNat_le dir
  have hk : keyv.toNat ≤ 1 := Bool.toNat_le keyv
  rw [fieldOp, BitVec.extractLsb'_toNat, toNat_encodeW0 _ _ _ _ h, Nat.shiftRight_eq_div_pow]
  simp only [Nat.reducePow]
  omega

theorem fieldRsv_encodeW0 (op : Nat) (dir keyv : Bool) (m : BitVec 8) (h : op < 16) :
    fieldRsv (encodeW0 op dir keyv m) = 0#18 := by
  have hm : m.toNat < 256 := m.isLt
  have hd : dir.toNat ≤ 1 := Bool.toNat_le dir
  have hk : keyv.toNat ≤ 1 := Bool.toNat_le keyv
  apply BitVec.eq_of_toNat_eq
  rw [fieldRsv, BitVec.extractLsb'_toNat, toNat_encodeW0 _ _ _ _ h, Nat.shiftRight_eq_div_pow]
  simp only [Nat.reducePow, BitVec.toNat_zero]
  omega

theorem fieldMacbits_encodeW0 (op : Nat) (dir keyv : Bool) (m : BitVec 8) (h : op < 16) :
    fieldMacbits (encodeW0 op dir keyv m) = m := by
  have hm : m.toNat < 256 := m.isLt
  have hd : dir.toNat ≤ 1 := Bool.toNat_le dir
  have hk : keyv.toNat ≤ 1 := Bool.toNat_le keyv
  apply BitVec.eq_of_toNat_eq
  rw [fieldMacbits, BitVec.extractLsb'_toNat, toNat_encodeW0 _ _ _ _ h, Nat.shiftRight_eq_div_pow]
  simp only [Nat.reducePow]
  omega

theorem fieldDir_encodeW0 (op : Nat) (dir keyv : Bool) (m : BitVec 8) (h : op < 16) :
    fieldDir (encodeW0 op dir keyv m) = dir := by
  have hm : m.toNat < 256 := m.isLt
  have hk : keyv.toNat ≤ 1 := Bool.toNat_le keyv
  have : (encodeW0 op dir keyv m).toNat / 134217728 % 2 = dir.toNat := by
    have hd : dir.toNat ≤ 1 := Bool.toNat_le dir
    rw [toNat_encodeW0 _ _ _ _ h]
    omega
  rw [fieldDir, BitVec.getLsbD, Nat.testBit_eq_decide_div_mod_eq]
  simp only [Nat.reducePow, this]
  cases dir <;> rfl

theorem fieldKeyv_encodeW0 (op : Nat) (dir keyv : Bool) (m : BitVec 8) (h : op < 16) :
    fieldKeyv (encodeW0 op dir keyv m) = keyv := by
  have hm : m.toNat < 256 := m.isLt
  have hd : dir.toNat ≤ 1 := Bool.toNat_le dir
  have : (encodeW0 op dir keyv m).toNat / 67108864 % 2 = keyv.toNat := by
    have hk : keyv.toNat ≤ 1 := Bool.toNat_le keyv
    rw [toNat_encodeW0 _ _ _ _ h]
    omega
  rw [fieldKeyv, BitVec.getLsbD, Nat.testBit_eq_decide_div_mod_eq]
  simp only [Nat.reducePow, this]
  cases keyv <;> rfl

/-- A length that fits its word is read back (R42). -/
theorem toNat_lengthWord (b : Bytes) (h : lengthFits b = true) : (lengthWord b).toNat = b.length := by
  have := of_decide_eq_true h
  simp only [lengthWord, BitVec.toNat_ofNat]
  omega

end Sys2Proof
end

