-- ==== Sys2Proof/Laws/Stream.lean ====
section
/-! SUPPORT. The counter and the keystream: how a counter-mode string splits at block boundaries. -/

namespace Sys2Proof.Machine

theorem inc32n_add (a b : Nat) (c : Block) : inc32n (a + b) c = inc32n b (inc32n a c) := by
  induction a generalizing c with
  | zero => simp [inc32n]
  | succ a ih => rw [Nat.succ_add, inc32n, inc32n, ih]

theorem inc32n_one (c : Block) : inc32n 1 c = inc32 c := rfl

@[simp] theorem length_gctr (e : Block → Block) (c : Block) (m : Bytes) : (gctr e c m).length = m.length := by
  simp [gctr]

@[simp] theorem gctr_nil (e : Block → Block) (c : Block) : gctr e c [] = [] := rfl

theorem keystreamByte_add (e : Block → Block) (c : Block) (i k : Nat) :
    keystreamByte e c (i + 16 * k) = keystreamByte e (inc32n k c) i := by
  have h1 : (i + 16 * k) / 16 + 1 = k + (i / 16 + 1) := by omega
  have h2 : (i + 16 * k) % 16 = i % 16 := by omega
  rw [keystreamByte, h1, h2, inc32n_add, keystreamByte]

/-- The string after `k` whole blocks is XORed with the keystream after `k` counter values. -/
theorem gctr_append (e : Block → Block) (c : Block) (a b : Bytes) (k : Nat) (h : a.length = 16 * k) :
    gctr e c (a ++ b) = gctr e c a ++ gctr e (inc32n k c) b := by
  simp only [gctr, List.mapIdx_append, h, keystreamByte_add]

/-- At most one block is XORed with the front of one keystream block. -/
theorem gctr_block (e : Block → Block) (c : Block) (m : Bytes) (h : m.length ≤ 16) :
    gctr e c m = xorBytes m ((bytesOfBlock (e (inc32 c))).take m.length) := by
  apply List.ext_getElem
  · simp [h]
  · intro i h1 h2
    have hi : i < m.length := by simpa using h1
    have hd : i / 16 = 0 := by omega
    have hm : i % 16 = i := by omega
    simp [gctr, xorBytes, keystreamByte, hd, hm, inc32n]
    rw [List.getElem?_eq_getElem (by simp; omega)]
    rfl

/-- Counter-mode encryption and decryption are one operation. -/
theorem gctr_gctr (e : Block → Block) (c : Block) (m : Bytes) : gctr e c (gctr e c m) = m := by
  apply List.ext_getElem
  · simp
  · intro i h1 h2
    simp [gctr]

theorem keystreamEvents_add (a b : Nat) (c : Block) :
    keystreamEvents (a + b) c = keystreamEvents a c ++ keystreamEvents b (inc32n a c) := by
  simp only [keystreamEvents, List.range_add, List.map_append, List.map_map]
  congr 1
  apply List.map_congr_left
  intro i _
  simp only [Function.comp, Nat.add_assoc, inc32n_add a]

theorem keystreamEvents_one (c : Block) : keystreamEvents 1 c = [.enc (inc32 c)] := rfl

@[simp] theorem keystreamEvents_zero (c : Block) : keystreamEvents 0 c = [] := rfl

/-- R76: all that `nextKeystreamBlock` does while the budget lasts. -/
theorem nextKeystreamBlock_eq (s : State) (h : s.blocksRem ≠ 0#32) :
    nextKeystreamBlock s =
      .done (setPath s.S (inc32 s.ctr) (s.blocksRem - 1#32) s.payLen (s.port ++ [.enc (inc32 s.ctr)]) s)
        (cipherE s (inc32 s.ctr)) := by
  rw [nextKeystreamBlock, if_neg h]
  rfl

/-- R77: what it does when the budget is exhausted. -/
theorem nextKeystreamBlock_exhausted (s : State) (h : s.blocksRem = 0#32) :
    nextKeystreamBlock s = .fails s .invalidState := by
  rw [nextKeystreamBlock, if_pos h]

end Sys2Proof.Machine
end

