-- ==== Sys2Proof/Laws/Engine.lean ====
section
/-! SUPPORT. All that the payload operations do: one block, the window, the partial block. -/

namespace Sys2Proof.Machine

/-! What the operations read. -/

theorem cipherE_congr {s t : State} (hp : s.params = t.params) (hk : s.key = t.key) : cipherE s = cipherE t := by
  funext b
  simp only [cipherE, hp, hk]

@[simp] theorem cipherE_ensureSnapshot (s : State) : cipherE (ensureSnapshot s) = cipherE s :=
  cipherE_congr (by simp) (by simp)

@[simp] theorem mulH_ensureSnapshot (s : State) : mulH (ensureSnapshot s) = mulH s :=
  mulH_congr (by simp) (by simp) (by simp)

@[simp] theorem cipherE_setPath (h c : Block) (r : BitVec 32) (l : BitVec 64) (e : List PortEvent) (s : State) :
    cipherE (setPath h c r l e s) = cipherE s := rfl

@[simp] theorem mulH_setPath (h c : Block) (r : BitVec 32) (l : BitVec 64) (e : List PortEvent) (s : State) :
    mulH (setPath h c r l e s) = mulH s := rfl

@[simp] theorem cipherE_setWindow (b : Vector Byte 32) (p : BitVec 6) (s : State) :
    cipherE (setWindow b p s) = cipherE s := rfl

@[simp] theorem mulH_setWindow (b : Vector Byte 32) (p : BitVec 6) (s : State) : mulH (setWindow b p s) = mulH s := rfl

@[simp] theorem cipherE_setHash (h : Block) (s : State) : cipherE (setHash h s) = cipherE s := rfl

@[simp] theorem mulH_setHash (h : Block) (s : State) : mulH (setHash h s) = mulH s := rfl

theorem setPath_setHash (h c h' : Block) (r : BitVec 32) (l : BitVec 64) (e : List PortEvent) (s : State) :
    setPath h c r l e (setHash h' s) = setPath h c r l e s := rfl

theorem setHash_setPath (h c h' : Block) (r : BitVec 32) (l : BitVec 64) (e : List PortEvent) (s : State) :
    setHash h' (setPath h c r l e s) = setPath h' c r l e s := rfl

theorem addPayload_setPath (h c : Block) (r : BitVec 32) (l : BitVec 64) (n : Nat) (e : List PortEvent) (s : State) :
    addPayload n (setPath h c r l e s) = setPath h c r (l + BitVec.ofNat 64 n) e s := rfl

theorem setWindow_setWindow (b b' : Vector Byte 32) (p p' : BitVec 6) (s : State) :
    setWindow b p (setWindow b' p' s) = setWindow b p s := rfl

theorem setPath_setPath (h c h' c' : Block) (r r' : BitVec 32) (l l' : BitVec 64) (e e' : List PortEvent) (s : State) :
    setPath h c r l e (setPath h' c' r' l' e' s) = setPath h c r l e s := rfl

theorem setPath_setWindow (h c : Block) (r : BitVec 32) (l : BitVec 64) (e : List PortEvent) (b : Vector Byte 32)
    (p : BitVec 6) (s : State) : setPath h c r l e (setWindow b p s) = setWindow b p (setPath h c r l e s) := rfl

theorem ensureSnapshot_of_stream {s : State} (h : s.st = .stream) : ensureSnapshot s = s := if_pos h

theorem ensureSnapshot_setWindow (b : Vector Byte 32) (p : BitVec 6) (s : State) :
    ensureSnapshot (setWindow b p s) = setWindow b p (ensureSnapshot s) := by
  by_cases h : s.st = .stream
  · rw [ensureSnapshot_of_stream h, ensureSnapshot_of_stream (by simpa using h)]
  · rw [ensureSnapshot, if_neg (by simpa using h), ensureSnapshot, if_neg h]
    rfl

theorem ensureSnapshot_setPath_ensureSnapshot (h c : Block) (r : BitVec 32) (l : BitVec 64) (e : List PortEvent)
    (s : State) : ensureSnapshot (setPath h c r l e (ensureSnapshot s)) = setPath h c r l e (ensureSnapshot s) :=
  ensureSnapshot_of_stream (by simp)

@[simp] theorem ciphertextOf_length (x : Bytes) (s : State) : (ciphertextOf x s).length = x.length := by
  unfold ciphertextOf; split <;> simp

@[simp] theorem pathState_st (n : Nat) (x : Bytes) (s : State) : (pathState n x s).st = .stream := by
  simp [pathState]

/-! One passage through the cipher path after another. -/

theorem ciphertextOf_append (x y : Bytes) (k : Nat) (s t : State) (h : x.length = 16 * k) (hd : t.dir = s.dir)
    (he : cipherE t = cipherE s) (hc : t.ctr = inc32n k s.ctr) :
    ciphertextOf (x ++ y) s = ciphertextOf x s ++ ciphertextOf y t := by
  unfold ciphertextOf
  rw [hd, he, hc]
  split
  · exact gctr_append _ _ _ _ _ h
  · rfl

/-- `k` whole blocks, then `n` more. -/
theorem pathState_pathState (k n : Nat) (x y : Bytes) (s : State) (h : x.length = 16 * k) :
    pathState n y (pathState k x s) = pathState (k + n) (x ++ y) s := by
  have hc : ciphertextOf (x ++ y) s = ciphertextOf x s ++ ciphertextOf y (pathState k x s) :=
    ciphertextOf_append x y k s _ h (by simp [pathState]) (by simp [pathState]) (by simp [pathState])
  have hg : ghashWith (mulH s) (ensureSnapshot s).S (ciphertextOf (x ++ y) s)
      = ghashWith (mulH s) (ghashWith (mulH s) (ensureSnapshot s).S (ciphertextOf x s))
          (ciphertextOf y (pathState k x s)) := by
    rw [hc, ghashWith_append _ _ _ _ (by simp [h])]
  have hrem : s.blocksRem - BitVec.ofNat 32 k - BitVec.ofNat 32 n = s.blocksRem - BitVec.ofNat 32 (k + n) := by
    rw [BitVec.ofNat_add]
    generalize BitVec.ofNat 32 k = a; generalize BitVec.ofNat 32 n = b
    rw [BitVec.sub_sub]
  have hlen : s.payLen + BitVec.ofNat 64 x.length + BitVec.ofNat 64 y.length
      = s.payLen + BitVec.ofNat 64 (x ++ y).length := by
    rw [List.length_append, BitVec.ofNat_add, BitVec.add_assoc]
  have hport : s.port ++ keystreamEvents k s.ctr ++ keystreamEvents n (inc32n k s.ctr)
      = s.port ++ keystreamEvents (k + n) s.ctr := by
    rw [keystreamEvents_add, List.append_assoc]
  rw [pathState.eq_def (k + n), hg, inc32n_add, ← hrem, ← hlen, ← hport]
  conv_lhs => rw [pathState.eq_def n]
  generalize hy : ciphertextOf y (pathState k x s) = cy
  simp only [pathState, ensureSnapshot_setPath_ensureSnapshot, mulH_setPath, mulH_ensureSnapshot, setPath_S, setPath_ctr,
    setPath_blocksRem, setPath_payLen, setPath_port, setPath_setPath]

theorem ciphertextOf_setWindow (x : Bytes) (b : Vector Byte 32) (p : BitVec 6) (s : State) :
    ciphertextOf x (setWindow b p s) = ciphertextOf x s := rfl

theorem pathState_setWindow (n : Nat) (x : Bytes) (b : Vector Byte 32) (p : BitVec 6) (s : State) :
    pathState n x (setWindow b p s) = setWindow b p (pathState n x s) := by
  simp only [pathState, ensureSnapshot_setWindow, ciphertextOf_setWindow, mulH_setWindow, setWindow_S, setWindow_ctr,
    setWindow_blocksRem, setWindow_payLen, setWindow_port, setPath_setWindow]

theorem pathState_zero (s : State) : pathState 0 [] s = ensureSnapshot s := by
  unfold pathState
  have h : ciphertextOf [] s = [] := by unfold ciphertextOf; split <;> rfl
  rw [h, ghashWith_nil]
  apply State.ext <;> simp [inc32n]

/-! One block. -/

theorem blockOfBytes_xor_block (x : Bytes) (k : Block) (h : x.length = 16) :
    bytesOfBlock (blockOfBytes x ^^^ k) = xorBytes x (bytesOfBlock k) := by
  rw [bytesOfBlock_xor, bytesOfBlock_blockOfBytes h]

theorem ne_zero_of_pos {r : BitVec 32} (h : 0 < r.toNat) : r ≠ 0#32 := by
  intro h'; simp [h'] at h

/-- R84: all that one full block through the cipher path does. -/
theorem processBlock_eq (x : Bytes) (s : State) (hx : x.length = 16) (hr : 0 < s.blocksRem.toNat) :
    processBlock (blockOfBytes x) s = .done (pathState 1 x s) (gctr (cipherE s) s.ctr x) := by
  have hout : bytesOfBlock (blockOfBytes x ^^^ cipherE s (inc32 s.ctr)) = gctr (cipherE s) s.ctr x := by
    rw [blockOfBytes_xor_block _ _ hx, gctr_block _ _ _ hx.le, List.take_of_length_le (by simp [hx])]
  have hb : ∀ y : Bytes, y.length = 16 → ∀ a, ghashWith (mulH s) a y = mulH s (a ^^^ blockOfBytes y) := by
    intro y hy a
    rw [ghashWith_of_blocks _ _ _ (by omega), hy]
    simp [ghashRunWith, List.take_of_length_le hy.le]
  have hr' : (ensureSnapshot s).blocksRem ≠ 0#32 := by simpa using ne_zero_of_pos hr
  rw [processBlock, cipherBlock]
  by_cases hd : s.dir = true
  · have hc : blockOfBytes (gctr (cipherE s) s.ctr x) = blockOfBytes x ^^^ cipherE s (inc32 s.ctr) := by
      rw [← hout, blockOfBytes_bytesOfBlock]
    rw [if_pos (by simpa using hd), nextKeystreamBlock_eq _ hr']
    simp only [ensureSnapshot_ctr, cipherE_ensureSnapshot, hout, pathState, ciphertextOf, hd, if_true, setHash_setPath,
      addPayload_setPath, ghashBlock_eq, mulH_setPath, mulH_ensureSnapshot, setPath_S]
    rw [hb _ (by simp [hx]), hc]
    simp [inc32n, keystreamEvents_one, hx]
  · rw [if_neg (by simpa using hd), nextKeystreamBlock_eq _ (by simpa using ne_zero_of_pos hr)]
    simp only [ensureSnapshot_ctr, cipherE_ensureSnapshot, cipherE_setHash, hout, pathState, ciphertextOf, if_neg hd,
      setPath_setHash, addPayload_setPath, ghashBlock_eq, mulH_ensureSnapshot, setHash_S, setHash_ctr]
    rw [hb _ hx]
    simp [inc32n, keystreamEvents_one, hx]

/-! The window. -/

theorem windowCap_le (s : State) (hm : s.macBytes.toNat ≤ 16) : windowCap s ≤ 32 := by
  unfold windowCap; split <;> omega

theorem windowCap_pos (s : State) : 16 ≤ windowCap s := by
  unfold windowCap; split <;> omega

theorem blocksReleased_lt (s : State) (n : Nat) (h : n < windowCap s) : blocksReleased s n = 0 := by
  unfold windowCap at h; unfold blocksReleased
  split <;> rename_i hd
  · rw [if_pos hd] at h; omega
  · rw [if_neg hd] at h; omega

theorem blocksReleased_cap_add (s : State) (n : Nat) :
    blocksReleased s (windowCap s + n) = blocksReleased s (windowCap s - 16 + n) + 1 := by
  unfold blocksReleased windowCap
  split <;> omega

/-- What the window holds when it is canonical. -/
theorem length_windowBytes (s : State) (h : s.bufPos.toNat ≤ 32) : (windowBytes s).length = s.bufPos.toNat := by
  simp [windowBytes, h]

theorem windowBytes_setWindow (w : Bytes) (n : Nat) (s : State) (h : w.length = n) (hn : n ≤ 32) :
    windowBytes (setWindow (vecOfBytes 32 w) (BitVec.ofNat 6 n) s) = w := by
  have : n % 64 = n := by omega
  simp only [windowBytes, setWindow_buf, setWindow_bufPos, toList_vecOfBytes, BitVec.toNat_ofNat]
  norm_num [this]
  exact take_fitBytes h hn

/-- R85: one byte that does not fill the window. -/
theorem absorbByte_hold (b : Byte) (s : State) (hb : s.buf = vecOfBytes 32 (windowBytes s)) (hp : s.bufPos.toNat ≤ 31)
    (h : s.bufPos.toNat + 1 ≠ windowCap s) :
    absorbByte b s =
      .done (setWindow (vecOfBytes 32 (windowBytes s ++ [b])) (BitVec.ofNat 6 (s.bufPos.toNat + 1)) s) [] := by
  have hl := length_windowBytes s (by omega)
  rw [absorbByte, if_neg h]
  congr 2
  conv_lhs => rw [hb, ← hl]
  exact setIfInBounds_fill b (by omega)

/-- R85: one byte that fills the window sends its first 16 bytes through the cipher path; the rest stays. -/
theorem absorbByte_full (b : Byte) (s : State) (hb : s.buf = vecOfBytes 32 (windowBytes s)) (hm : s.macBytes.toNat ≤ 16)
    (h : s.bufPos.toNat + 1 = windowCap s) (hr : 0 < s.blocksRem.toNat) :
    absorbByte b s =
      .done (setWindow (vecOfBytes 32 ((windowBytes s ++ [b]).drop 16)) (BitVec.ofNat 6 (windowCap s - 16))
        (pathState 1 ((windowBytes s ++ [b]).take 16) s))
        (gctr (cipherE s) s.ctr ((windowBytes s ++ [b]).take 16)) := by
  have hcap := windowCap_le s hm
  have hcap' := windowCap_pos s
  have hl := length_windowBytes s (by omega)
  have hset : s.buf.setIfInBounds s.bufPos.toNat b = vecOfBytes 32 (windowBytes s ++ [b]) := by
    conv_lhs => rw [hb, ← hl]
    exact setIfInBounds_fill b (by omega)
  have hlen : (windowBytes s ++ [b]).length = windowCap s := by simp [hl, h]
  have htake : (fitBytes 32 (windowBytes s ++ [b])).take 16 = (windowBytes s ++ [b]).take 16 := by
    rw [fitBytes_of_le (by omega), List.take_append_of_le_length (by omega)]
  have htail : (fitBytes 32 (windowBytes s ++ [b])).take (windowCap s) = windowBytes s ++ [b] :=
    take_fitBytes hlen hcap
  rw [absorbByte, if_pos h, hset, toList_vecOfBytes, htake, processBlock_eq _ _ (by simp [hlen, hcap']) hr]
  simp only []
  congr 1
  unfold shiftWindow
  have hd' : (pathState 1 ((windowBytes s ++ [b]).take 16) s).dir = s.dir := by simp [pathState]
  have hm' : (pathState 1 ((windowBytes s ++ [b]).take 16) s).macBytes = s.macBytes := by simp [pathState]
  have hc' : windowCap (pathState 1 ((windowBytes s ++ [b]).take 16) s) = windowCap s := by
    simp only [windowCap, hd', hm']
  rw [hd', hc', hm', htail]
  by_cases hd : s.dir = true
  · rw [if_pos hd]
    have hc : windowCap s = 16 := by simp [windowCap, hd]
    have : (windowBytes s ++ [b]).drop 16 = [] := by
      apply List.drop_eq_nil_of_le; omega
    rw [this, hc]; rfl
  · rw [if_neg hd]
    have hc : windowCap s = 16 + s.macBytes.toNat := by simp [windowCap, hd]
    congr 1
    apply BitVec.eq_of_toNat_eq
    simp [hc]

/-- R85, with R84: all that absorbing payload bytes does, while the budget lasts. -/
theorem absorb_eq (d : Bytes) (s : State) (hb : s.buf = vecOfBytes 32 (windowBytes s)) (hp : s.bufPos.toNat < windowCap s)
    (hm : s.macBytes.toNat ≤ 16) (hr : blocksReleased s (pending d s).length ≤ s.blocksRem.toNat) :
    absorb d s = .done (procState d s) (procOutput d s) := by
  induction d generalizing s with
  | nil =>
    have hcap := windowCap_le s hm
    have hl := length_windowBytes s (by omega)
    have hn : blocksReleased s (windowBytes s).length = 0 := blocksReleased_lt _ _ (by omega)
    simp only [absorb, procState, procOutput, pending, List.append_nil, hn, if_true]
    simp only [Nat.mul_zero, List.drop_zero, List.take_zero, gctr_nil, Nat.sub_zero]
    congr 1
    rw [← hb, hl]
    simp [setWindow]
  | cons b rest ih =>
    have hcap := windowCap_le s hm
    have hcap' := windowCap_pos s
    have hl := length_windowBytes s (by omega)
    have hpend : pending (b :: rest) s = (windowBytes s ++ [b]) ++ rest := by simp [pending]
    rw [absorb]
    by_cases h : s.bufPos.toNat + 1 = windowCap s
    · have hlen : (windowBytes s ++ [b]).length = windowCap s := by simp [hl, h]
      have hplen : (pending (b :: rest) s).length = windowCap s + rest.length := by
        rw [hpend, List.length_append, hlen]
      rw [hplen, blocksReleased_cap_add] at hr
      rw [absorbByte_full b s hb hm h (by omega)]
      generalize hx : (windowBytes s ++ [b]).take 16 = x
      generalize hw : (windowBytes s ++ [b]).drop 16 = w
      have hxl : x.length = 16 := by rw [← hx]; simp [hlen, hcap']
      have hwl : w.length = windowCap s - 16 := by rw [← hw]; simp [hlen]
      have hxw : windowBytes s ++ [b] = x ++ w := by rw [← hx, ← hw, List.take_append_drop]
      generalize ht : setWindow (vecOfBytes 32 w) (BitVec.ofNat 6 (windowCap s - 16)) (pathState 1 x s) = t
      have htw : windowBytes t = w := by rw [← ht]; exact windowBytes_setWindow _ _ _ hwl (by omega)
      have htpos : t.bufPos.toNat = windowCap s - 16 := by rw [← ht]; simp; omega
      have htdir : t.dir = s.dir := by rw [← ht]; simp [pathState]
      have htmac : t.macBytes = s.macBytes := by rw [← ht]; simp [pathState]
      have htrel : ∀ n, blocksReleased t n = blocksReleased s n := by intro n; simp only [blocksReleased, htdir, htmac]
      have htcap : windowCap t = windowCap s := by simp only [windowCap, htdir, htmac]
      have htpend : pending rest t = w ++ rest := by rw [pending, htw]
      have htrem : t.blocksRem.toNat = s.blocksRem.toNat - 1 := by
        rw [← ht]; simp [pathState]
        have := s.blocksRem.isLt
        omega
      have htctr : t.ctr = inc32n 1 s.ctr := by rw [← ht]; simp [pathState]
      have hte : cipherE t = cipherE s := by rw [← ht]; simp [pathState]
      have hplen' : (pending rest t).length = windowCap s - 16 + rest.length := by rw [htpend, List.length_append, hwl]
      have htbuf : t.buf = vecOfBytes 32 (windowBytes t) := by rw [htw, ← ht]; rfl
      simp only []
      rw [ih t htbuf (by rw [htpos, htcap]; omega) (by rw [htmac]; exact hm)
        (by rw [htrel, htrem, hplen']; omega)]
      simp only []
      generalize hk : blocksReleased s (windowCap s - 16 + rest.length) = k at *
      have hks : blocksReleased s (pending (b :: rest) s).length = k + 1 := by rw [hplen, blocksReleased_cap_add, hk]
      have hkt : blocksReleased t (pending rest t).length = k := by rw [htrel, hplen', hk]
      have hsplit : pending (b :: rest) s = x ++ pending rest t := by
        rw [hpend, hxw, htpend, List.append_assoc]
      have h16 : 16 * (k + 1) = x.length + 16 * k := by rw [hxl]; ring
      have htake : (pending (b :: rest) s).take (16 * (k + 1)) = x ++ (pending rest t).take (16 * k) := by
        rw [hsplit, h16, List.take_length_add_append]
      have hdrop : (pending (b :: rest) s).drop (16 * (k + 1)) = (pending rest t).drop (16 * k) := by
        rw [hsplit, h16, List.drop_length_add_append]
      have hleft : (pending (b :: rest) s).length - 16 * (k + 1) = (pending rest t).length - 16 * k := by
        rw [hplen, hplen']; omega
      congr 1
      · simp only [procState, hks, hkt, htake, hdrop, hleft, Nat.succ_ne_zero, if_false]
        by_cases hk0 : k = 0
        · rw [if_pos hk0, hk0, ← ht, setWindow_setWindow]
          simp
        · rw [if_neg hk0, ← ht, pathState_setWindow, pathState_pathState _ _ _ _ _ hxl, setWindow_setWindow,
            Nat.add_comm 1 k]
          
      · simp only [procOutput, hks, hkt, htake, hte, htctr]
        exact (gctr_append _ _ _ _ 1 (by omega)).symm
    · rw [absorbByte_hold b s hb (by omega) h]
      generalize ht : setWindow (vecOfBytes 32 (windowBytes s ++ [b])) (BitVec.ofNat 6 (s.bufPos.toNat + 1)) s = t
      have htw : windowBytes t = windowBytes s ++ [b] := by
        rw [← ht]; exact windowBytes_setWindow _ _ _ (by simp [hl]) (by omega)
      have htpend : pending rest t = pending (b :: rest) s := by rw [pending, htw, hpend]
      have htrel : ∀ n, blocksReleased t n = blocksReleased s n := by intro n; rw [← ht]; rfl
      have htcap : windowCap t = windowCap s := by rw [← ht]; rfl
      have htpos : t.bufPos.toNat = s.bufPos.toNat + 1 := by rw [← ht]; simp; omega
      have htmac : t.macBytes = s.macBytes := by rw [← ht]; simp
      simp only []
      rw [ih t (by rw [htw, ← ht]; rfl) (by rw [htpos, htcap]; omega) (by rw [htmac]; exact hm)
        (by rw [htrel, htpend, ← ht]; simpa using hr)]
      simp only [List.nil_append]
      congr 1
      · simp only [procState, htpend, htrel]
        split
        · rw [← ht, setWindow_setWindow]
        · rw [← ht, pathState_setWindow, setWindow_setWindow]
      · simp only [procOutput, htpend, htrel]
        rw [← ht, cipherE_setWindow, setWindow_ctr]

end Sys2Proof.Machine
end

