-- ==== Sys2Proof/Laws/Final.lean ====
section
/-! SUPPORT. All that FINAL's work does: the partial block, reconciliation, the tag, the comparison. -/

namespace Sys2Proof.Machine

@[simp] theorem ensureSnapshot_ensureSnapshot (s : State) : ensureSnapshot (ensureSnapshot s) = ensureSnapshot s :=
  ensureSnapshot_of_stream (by simp)

theorem ensureSnapshot_pathState (n : Nat) (x : Bytes) (s : State) :
    ensureSnapshot (pathState n x s) = pathState n x s :=
  ensureSnapshot_of_stream (by simp)

/-- PROC's state with the snapshot taken (R93). -/
theorem ensureSnapshot_procState (d : Bytes) (s : State) :
    ensureSnapshot (procState d s) =
      setWindow (vecOfBytes 32 ((pending d s).drop (16 * blocksReleased s (pending d s).length)))
        (BitVec.ofNat 6 ((pending d s).length - 16 * blocksReleased s (pending d s).length))
        (pathState (blocksReleased s (pending d s).length)
          ((pending d s).take (16 * blocksReleased s (pending d s).length)) s) := by
  simp only [procState]
  rw [ensureSnapshot_setWindow]
  by_cases h : blocksReleased s (pending d s).length = 0
  · rw [if_pos h, h, Nat.mul_zero, List.take_zero, pathState_zero]
  · rw [if_neg h, ensureSnapshot_pathState]

theorem blocksOf_le_one (n : Nat) (h : n ≤ 15) (h0 : n ≠ 0) : blocksOf n = 1 := by unfold blocksOf; omega

theorem blocksOf_add (k n : Nat) : blocksOf (16 * k + n) = k + blocksOf n := by unfold blocksOf; omega

/-- R86: all that the last, partial block does, while the budget lasts. -/
theorem processPartial_eq (x : Bytes) (s : State) (hst : s.st = .stream) (hx : x.length ≤ 15)
    (hb : s.buf.toList.take x.length = x) (hr : blocksOf x.length ≤ s.blocksRem.toNat) :
    processPartial x.length s = .done (pathState (blocksOf x.length) x s) (gctr (cipherE s) s.ctr x) := by
  have hsnap : ensureSnapshot s = s := ensureSnapshot_of_stream hst
  by_cases h0 : x.length = 0
  · have hnil : x = [] := List.length_eq_zero_iff.mp h0
    subst hnil
    show Work.done s [] = _
    have : blocksOf ([] : Bytes).length = 0 := rfl
    rw [this, pathState_zero, hsnap, gctr_nil]
  · rw [blocksOf_le_one _ hx h0] at hr ⊢
    have hr' : s.blocksRem ≠ 0#32 := ne_zero_of_pos hr
    have hout : xorBytes x ((bytesOfBlock (cipherE s (inc32 s.ctr))).take x.length) = gctr (cipherE s) s.ctr x :=
      (gctr_block _ _ _ (by omega)).symm
    have hp : ∀ (y a : Bytes) (h : Block), y.length = x.length → y = a.take x.length →
        ghashWith (mulH s) h y = mulH s (h ^^^ blockOfBytes (a.take x.length)) := by
      intro y a h hl hy
      rw [ghashWith_short _ _ _ (by omega) (by omega), hy]
    rw [processPartial, if_neg h0, hsnap, cipherPartial]
    simp only [hb]
    by_cases hd : s.dir = true
    · simp only [hd, if_true]
      rw [nextKeystreamBlock_eq _ hr']
      simp only [hout, setPath_dir, hd, if_true, setHash_setPath, addPayload_setPath, ghashPartial, mulH_setPath,
        setPath_S, pathState, ciphertextOf, hsnap]
      rw [hp _ (gctr (cipherE s) s.ctr x) _ (by simp) (by rw [List.take_of_length_le (by simp)])]
      simp [inc32n, keystreamEvents_one]
    · have hd' : s.dir = false := by simpa using hd
      simp only [hd', Bool.false_eq_true, if_false]
      rw [nextKeystreamBlock_eq _ (by simpa using hr')]
      simp only [setPath_setHash, setHash_ctr, cipherE_setHash, hout, setPath_dir, hd', addPayload_setPath,
        ghashPartial, pathState, ciphertextOf, hsnap, Bool.false_eq_true, if_false]
      rw [hp x x _ rfl (by simp)]
      simp [inc32n, keystreamEvents_one]

/-! Reconciliation and the tag. -/

theorem finalAadHash_congr {s t : State} (hm : mulH t = mulH s) (ha : t.S_at = s.S_at) (hb : t.atBuf = s.atBuf)
    (hp : t.atPos = s.atPos) : finalAadHash t = finalAadHash s := by
  simp only [finalAadHash, ghashPartial, hm, ha, hb, hp]

theorem aadTotal_congr {s t : State} (hl : t.atLen = s.atLen) (hp : t.atPos = s.atPos) : aadTotal t = aadTotal s := by
  simp only [aadTotal, hl, hp]

/-- What follows the last payload byte (R87, R88), from the state in which all payload `x` has gone through the path. -/
def tagState (x : Bytes) (t s : State) : State :=
  portEnc s.J0 (setHash (mulH s (finalReconciled x s ^^^ lengthBlock (aadTotal s) (s.payLen.toNat + x.length))) t)

theorem computeTag_reconcile (n : Nat) (x : Bytes) (b : Vector Byte 32) (p : BitVec 6) (s : State)
    (h : s.payLen.toNat + x.length < 2 ^ 64) :
    computeTag (reconcile (setWindow b p (pathState n x s))) =
      (tagState x (setWindow b p (pathState n x s)) s, finalTag x s) := by
  generalize ht : setWindow b p (pathState n x s) = t
  have hm : mulH t = mulH s := by rw [← ht]; simp [pathState]
  have he : cipherE t = cipherE s := by rw [← ht]; simp [pathState]
  have hH : t.H = s.H := by rw [← ht]; simp [pathState]
  have hj : t.J0 = s.J0 := by rw [← ht]; simp [pathState]
  have hmac : t.macBytes = s.macBytes := by rw [← ht]; simp [pathState]
  have hpre : t.atLenPre = (ensureSnapshot s).atLenPre := by rw [← ht]; simp [pathState]
  have hspre : t.S_atPre = (ensureSnapshot s).S_atPre := by rw [← ht]; simp [pathState]
  have hS : t.S = finalHash x s := by rw [← ht]; simp [pathState, finalHash]
  have hlen : t.payLen.toNat = s.payLen.toNat + x.length := by
    rw [← ht]
    simp only [pathState, setWindow_payLen, setPath_payLen, BitVec.toNat_add, BitVec.toNat_ofNat]
    omega
  have hat : t.S_at = s.S_at := by rw [← ht]; simp [pathState]
  have hbuf : t.atBuf = s.atBuf := by rw [← ht]; simp [pathState]
  have hpos : t.atPos = s.atPos := by rw [← ht]; simp [pathState]
  have hl : t.atLen = s.atLen := by rw [← ht]; simp [pathState]
  have hfin : finalAadHash t = finalAadHash s := finalAadHash_congr hm hat hbuf hpos
  have htot : aadTotal t = aadTotal s := aadTotal_congr hl hpos
  have hrec : reconcile t = setHash (finalReconciled x s) t := by
    unfold reconcile finalReconciled
    rw [hpre, hspre, hS, hfin, htot, hH, hlen]
    split
    · rfl
    · rw [← hS]; rfl
  rw [hrec]
  simp only [computeTag, foldLengths, ghashBlock_eq, mulH_setHash, setHash_S, tagState, finalTag, setHash_macBytes,
    setHash_J0, cipherE_setHash, hm, he, hj, hmac, setHash_payLen, hlen]
  have h2 : aadTotal (setHash (finalReconciled x s) t) = aadTotal s := htot
  rw [h2]
  rfl

/-! The comparison. -/

theorem xorFold_eq_zero (l : Bytes) (a : Byte) :
    l.foldl (fun acc b => acc ||| b) a = 0#8 ↔ a = 0#8 ∧ ∀ b ∈ l, b = 0#8 := by
  induction l generalizing a with
  | nil => simp
  | cons b l ih =>
    rw [List.foldl_cons, ih]
    have : a ||| b = 0#8 ↔ a = 0#8 ∧ b = 0#8 := by
      constructor
      · intro h
        constructor <;> (apply BitVec.eq_of_getLsbD_eq; intro i hi; have := congrArg (fun v => v.getLsbD i) h; simp at this; simp [this])
      · rintro ⟨rfl, rfl⟩; rfl
    rw [this]
    simp only [List.mem_cons, forall_eq_or_imp]
    tauto

/-- R89: the comparison of two strings of one length is equality. -/
theorem tagEqual_iff (t r : Bytes) (h : t.length = r.length) : tagEqual t r = true ↔ t = r := by
  unfold tagEqual
  rw [beq_iff_eq, xorFold_eq_zero]
  induction t generalizing r with
  | nil => cases r <;> simp_all
  | cons a t ih =>
    cases r with
    | nil => simp at h
    | cons b r =>
      have := ih r (by simpa using h)
      simp only [List.zipWith_cons_cons, List.mem_cons, forall_eq_or_imp, List.cons.injEq, BitVec.xor_eq_zero_iff,
        true_and] at this ⊢
      rw [this]

/-! All of FINAL's work. -/

/-- The state in which FINAL compares the tags, `x` being the last payload bytes. -/
def finalState (d x : Bytes) (s : State) : State :=
  tagState x
    (setWindow (vecOfBytes 32 ((pending d s).drop (16 * blocksReleased s (pending d s).length)))
      (BitVec.ofNat 6 ((pending d s).length - 16 * blocksReleased s (pending d s).length))
      (pathState (blocksOf x.length) x s)) s

theorem endSession_ensureSnapshot (tag : Bytes) (s : State) : endSession tag (ensureSnapshot s) = endSession tag s := by
  unfold ensureSnapshot; split <;> rfl

theorem fail_ensureSnapshot (c : Status) (s : State) : fail c (ensureSnapshot s) = fail c s := by
  unfold ensureSnapshot; split <;> rfl

/-- The ending keeps of FINAL's work the tag and the calls on the port. -/
theorem endSession_finalState (tag d x : Bytes) (s : State) :
    endSession tag (finalState d x s) = endSession tag (portCalls (finalEvents x s) s) := by
  have h : endSession tag (finalState d x s) = endSession tag (portCalls (finalEvents x s) (ensureSnapshot s)) := by
    have hp : (finalState d x s).port = s.port ++ finalEvents x s := by
      simp [finalState, tagState, pathState, finalEvents]
    have he : (portCalls (finalEvents x s) (ensureSnapshot s)).port = s.port ++ finalEvents x s := by simp
    generalize hq : portCalls (finalEvents x s) (ensureSnapshot s) = u at he ⊢
    have : ∀ e, portCalls e (ensureSnapshot s) = setPath (ensureSnapshot s).S s.ctr s.blocksRem s.payLen (s.port ++ e) (ensureSnapshot s) := by
      intro e; apply State.ext <;> simp
    rw [← hq, this]
    apply State.ext <;> simp [finalState, tagState, pathState, finalEvents]
  rw [h]
  unfold ensureSnapshot; split <;> rfl

theorem fail_finalState (c : Status) (d x : Bytes) (s : State) :
    fail c (finalState d x s) = fail c (portCalls (finalEvents x s) s) := by
  have h : fail c (finalState d x s) = fail c (portCalls (finalEvents x s) (ensureSnapshot s)) := by
    apply State.ext <;> simp [finalState, tagState, pathState, finalEvents]
  rw [h]
  unfold ensureSnapshot; split <;> rfl

theorem fail_setWindow (c : Status) (b : Vector Byte 32) (p : BitVec 6) (s : State) :
    fail c (setWindow b p s) = fail c s := rfl

/-- R93 (a): a decryption stream shorter than a tag fails before any cipher call. -/
theorem finalWork_short (d : Bytes) (s : State) (hb : s.buf = vecOfBytes 32 (windowBytes s))
    (hp : s.bufPos.toNat < windowCap s) (hm : s.macBytes.toNat ≤ 16) (hd : s.dir = false)
    (hs : (pending d s).length < s.macBytes.toNat) :
    ∃ b p, finalWork d s = .fails (setWindow b p s) .authenticationFailed := by
  have hrel : blocksReleased s (pending d s).length = 0 := by simp [blocksReleased, hd]; omega
  have hw := absorb_eq d s hb hp hm (by rw [hrel]; omega)
  have hP : procState d s =
      setWindow (vecOfBytes 32 (pending d s)) (BitVec.ofNat 6 (pending d s).length) s := by
    simp [procState, hrel]
  refine ⟨vecOfBytes 32 (pending d s), BitVec.ofNat 6 (pending d s).length, ?_⟩
  rw [finalWork, hw, hP]
  simp only []
  rw [if_pos]
  refine ⟨by simpa using hd, ?_⟩
  simp only [setWindow_bufPos, setWindow_macBytes, BitVec.toNat_ofNat]
  omega

/-- R93: all that FINAL's work does otherwise, while the budget lasts. -/
theorem finalWork_eq (d : Bytes) (s : State) (hb : s.buf = vecOfBytes 32 (windowBytes s))
    (hp : s.bufPos.toNat < windowCap s) (hm : s.macBytes.toNat ≤ 16)
    (hr : blocksOf (finalPayload d s).length ≤ s.blocksRem.toNat)
    (hl : s.payLen.toNat + (finalPayload d s).length < 2 ^ 64)
    (hs : s.dir = false → s.macBytes.toNat ≤ (pending d s).length) :
    finalWork d s =
      if s.dir = true then
        .done (finalState d (finalPayload d s) s)
          (gctr (cipherE s) s.ctr (finalPayload d s) ++ finalTag (finalPayload d s) s, finalTag (finalPayload d s) s)
      else if finalTag (finalPayload d s) s = finalReceived d s then
        .done (finalState d (finalPayload d s) s)
          (gctr (cipherE s) s.ctr (finalPayload d s), finalTag (finalPayload d s) s)
      else .fails (finalState d (finalPayload d s) s) .authenticationFailed := by
  have hcap := windowCap_le s hm
  -- the split of the payload: whole blocks released, then at most 15 bytes
  generalize hk : blocksReleased s (pending d s).length = k
  generalize hX : finalPayload d s = X at *
  have hXd : X = if s.dir then pending d s else (pending d s).take ((pending d s).length - s.macBytes.toNat) := by
    rw [← hX]; rfl
  have hXl : X.length = if s.dir then (pending d s).length else (pending d s).length - s.macBytes.toNat := by
    rw [hXd]; split <;> simp
  have hXk : 16 * k ≤ X.length ∧ X.length < 16 * k + 16 := by
    rw [hXl, ← hk]; unfold blocksReleased; split <;> omega
  have hXle : X.length ≤ (pending d s).length := by rw [hXl]; split <;> omega
  have hXp : X = (pending d s).take X.length := by
    rw [hXl]
    by_cases hd : s.dir = true
    · rw [if_pos hd, List.take_length, hXd, if_pos hd]
    · rw [if_neg hd]; conv_lhs => rw [hXd, if_neg hd]
  have htk : (pending d s).take (16 * k) = X.take (16 * k) := by
    conv_rhs => rw [hXp]
    rw [List.take_take, Nat.min_eq_left hXk.1]
  generalize he : X.drop (16 * k) = e
  have hXe : X = X.take (16 * k) ++ e := by rw [← he, List.take_append_drop]
  have hel : e.length = X.length - 16 * k := by rw [← he, List.length_drop]
  have htl : (X.take (16 * k)).length = 16 * k := by rw [List.length_take]; omega
  have hbo : blocksOf X.length = k + blocksOf e.length := by
    rw [← blocksOf_add]; congr 1; omega
  rw [hbo] at hr
  -- the window behind the whole blocks
  generalize hw : (pending d s).drop (16 * k) = w
  have hwl : w.length = (pending d s).length - 16 * k := by rw [← hw, List.length_drop]
  have hwle : w.length ≤ 32 := by
    rw [hwl]; have := hXk.2; rw [hXl] at this; split at this <;> omega
  have hwe : w.take e.length = e := by
    rw [← hw, ← he]
    conv_rhs => rw [hXp]
    rw [List.drop_take, List.length_drop]
  have hew : e.length ≤ w.length := by rw [hel, hwl]; omega
  have hfit : (fitBytes 32 w).take w.length = w := take_fitBytes rfl hwle
  have hfe : (fitBytes 32 w).take e.length = e := by
    conv_rhs => rw [← hwe]
    conv_rhs => rw [← hfit, List.take_take, Nat.min_eq_left hew]
  have hproc := absorb_eq d s hb hp hm (by rw [hk]; omega)
  -- the state after absorb
  have hsn := ensureSnapshot_procState d s
  rw [hk, hw, htk, ← hwl] at hsn
  have hP : procState d s = setWindow (vecOfBytes 32 w) (BitVec.ofNat 6 w.length)
      (if k = 0 then s else pathState k (X.take (16 * k)) s) := by
    simp only [procState, hk, hw, htk, hwl]
  have hPdir : (procState d s).dir = s.dir := by rw [hP]; split <;> simp [pathState]
  have hPmac : (procState d s).macBytes = s.macBytes := by rw [hP]; split <;> simp [pathState]
  have hPpos : (procState d s).bufPos.toNat = w.length := by rw [hP]; simp; omega
  have hPbuf : (procState d s).buf = vecOfBytes 32 w := by rw [hP]; simp
  have hPex : extraBytes (procState d s) = e.length := by
    rw [extraBytes, hPdir, hPmac, hPpos, hwl, hel, hXl]; split <;> omega
  have hPre : s.dir = false → receivedTag (procState d s) = finalReceived d s := by
    intro hd
    have hlen : e.length + s.macBytes.toNat = w.length := by
      have := hs hd
      have h1 : X.length = (pending d s).length - s.macBytes.toNat := by rw [hXl, hd]; rfl
      omega
    rw [receivedTag, hPex, hPmac, hPbuf, toList_vecOfBytes, finalReceived]
    have hsm : s.macBytes.toNat = w.length - e.length := by omega
    have h1 : X.length = (pending d s).length - s.macBytes.toNat := by rw [hXl, hd]; rfl
    have hidx : (pending d s).length - s.macBytes.toNat = 16 * k + e.length := by omega
    rw [hidx, ← List.drop_drop, hw, hsm, ← List.drop_take, hfit]
  rw [finalWork, hproc]
  simp only []
  rw [if_neg (by
    rw [hPdir, hPpos, hPmac]
    rintro ⟨hd, hlt⟩
    have := hs hd
    have h1 : X.length = (pending d s).length - s.macBytes.toNat := by rw [hXl, hd]; rfl
    omega)]
  -- the partial block
  have hpart : processPartial e.length (ensureSnapshot (procState d s)) =
      .done (setWindow (vecOfBytes 32 w) (BitVec.ofNat 6 w.length) (pathState (blocksOf X.length) X s))
        (gctr (cipherE s) (inc32n k s.ctr) e) := by
    rw [hsn]
    generalize ht : setWindow (vecOfBytes 32 w) (BitVec.ofNat 6 w.length) (pathState k (X.take (16 * k)) s) = t
    have h1 : cipherE t = cipherE s := by rw [← ht]; simp [pathState]
    have h2 : t.ctr = inc32n k s.ctr := by rw [← ht]; simp [pathState]
    rw [processPartial_eq e t (by rw [← ht]; simp) (by omega)
      (by rw [← ht, setWindow_buf, toList_vecOfBytes, hfe])
      (by rw [← ht]; simp only [setWindow_blocksRem, pathState, setPath_blocksRem]; rw [BitVec.toNat_sub]; simp; have := s.blocksRem.isLt; omega),
      h1, h2, ← ht, pathState_setWindow, pathState_pathState _ _ _ _ _ htl, ← hXe, hbo]
  have hgctr : gctr (cipherE s) s.ctr X = gctr (cipherE s) s.ctr (X.take (16 * k)) ++ gctr (cipherE s) (inc32n k s.ctr) e := by
    conv_lhs => rw [hXe]
    exact gctr_append _ _ _ _ _ htl
  have hout : procOutput d s = gctr (cipherE s) s.ctr (X.take (16 * k)) := by rw [procOutput, hk, htk]
  have hfs : tagState X (setWindow (vecOfBytes 32 w) (BitVec.ofNat 6 w.length) (pathState (blocksOf X.length) X s)) s
      = finalState d X s := by
    rw [finalState, hk, hw, hwl]
  rw [finishPayload, hPex, hpart]
  simp only [computeTag_reconcile _ _ _ _ _ hl, hfs]
  have hfdir : (finalState d X s).dir = s.dir := by simp [finalState, tagState, pathState]
  rw [hfdir, hout, hgctr]
  by_cases hd : s.dir = true
  · simp only [hd, if_true, List.append_assoc]
  · have hd' : s.dir = false := by simpa using hd
    have htl' : (finalTag X s).length = (finalReceived d s).length := by
      have := hs hd'
      rw [finalTag, finalReceived, List.length_take, List.length_drop, length_bytesOfBlock]; omega
    simp only [hd, hPre hd']
    by_cases hT : finalTag X s = finalReceived d s
    · rw [if_pos ((tagEqual_iff _ _ htl').mpr hT), if_pos hT]
      simp
    · rw [if_neg (fun h => hT ((tagEqual_iff _ _ htl').mp h)), if_neg hT]
      simp

end Sys2Proof.Machine
end

