-- ==== Sys2Proof/Laws/PerInstr.lean ====
section
/-! SUPPORT. Statements made of every command, one lemma for each constructor. -/

namespace Sys2Proof.Laws.EncodingLength

/-- R40, R43: a command is sent as 16 descriptor bytes and its data. -/
def Statement (i : Instr) : Prop :=
  (encode i).length = 16 + (commandData i).length

theorem init (dir keyv : Bool) (macbits : BitVec 8) (key nonce aad : Bytes) :
    Statement (.init dir keyv macbits key nonce aad) := by simp [Statement, encode]

theorem aad (data : Bytes) : Statement (.aad data) := by simp [Statement, encode]

theorem proc (data : Bytes) : Statement (.proc data) := by simp [Statement, encode]

theorem final (data : Bytes) : Statement (.final data) := by simp [Statement, encode]

theorem getmac : Statement .getmac := by simp [Statement, encode]

theorem reset : Statement .reset := by simp [Statement, encode]

theorem outsz (len : Word) : Statement (.outsz len) := by simp [Statement, encode]

theorem updsz (len : Word) : Statement (.updsz len) := by simp [Statement, encode]

end Sys2Proof.Laws.EncodingLength
end

