-- ==== Sys2Proof/Tests/Slice0.lean ====
section
/-! SUPPORT. Tests: what a check refuses, words written out from the encoding, one step of each command, and for each
obligation with hypotheses a state and operands that meet them. Expected values come from the spec: 95c_programs.md (P2, P3,
P4) and the examples of the rules named. -/

namespace Sys2Proof.Tests

open Sys2Proof Sys2Proof.Machine

set_option Elab.async false

/-! ## Helpers -/

/-- A build with the spec's test cipher TOYX. -/
def toyBuild : Params :=
  { cipher := .toyx, cbs := 16, multImpl := .bitwise, lateAad := true, nonceMax := 2 ^ 32 - 1 }

def toyReset : State := State.resetWith toyBuild

/-- The key `80 00 .. 00` of P2 and P3: `H = ONE`. -/
def keyOne : Bytes := 0x80#8 :: List.replicate 15 0#8

def nonce12 : Bytes := beBytes 12 0x0102030405060708090a0b0c

def j0One : Block := 0x0102030405060708090a0b0c00000001#128

def aad3 : Bytes := [0xaa#8, 0xbb#8, 0xcc#8]

/-- P2 and P3 after INIT. -/
def armed (dir : Bool) : State :=
  { toyReset with
    st := .ready, dir := dir, kv := true, key := keyOne, H := gfOne, cfgv := true, J0 := j0One, ctr := j0One
    atBuf := vecOfBytes 16 aad3, atPos := 3#4, lev := dir
    lastEncKey := if dir then keyOne else [], lastEncNonce := if dir then nonce12 else [] }

/-- P2 after its PROC, P3 after its second. -/
def streaming (dir : Bool) : State :=
  { armed dir with
    st := .stream, ctr := 0x0102030405060708090a0b0c00000002#128, blocksRem := 0xfffffffd#32
    S := 0x2ba8ed374153617f8193a1b7ccddeefd#128, S_atPre := 0xaabbcc00000000000000000000000000#128, atLenPre := 3#64
    buf := if dir then vecOfBytes 32 [0x00#8, 0x11#8] else vecOfBytes 32 (beBytes 17 0x81132bb9ee334455666f8899aabbccddee)
    bufPos := if dir then 2#6 else 17#6, payLen := 16#64 }

def tagP2 : Bytes := beBytes 16 0x2bb9ee334455666f8899aabbccddee6c

/-- P2 and P3 after FINAL. -/
def finished (dir : Bool) : State :=
  { armed dir with st := .done, atBuf := zeroBuf 16, atPos := 0#4, macReg := vecOfBytes 16 tagP2 }

/-- P3 at its end. -/
def failedState (dir : Bool) : State :=
  { armed dir with st := .failed, err := .authenticationFailed, atBuf := zeroBuf 16, atPos := 0#4 }

/-- The state a step gives, with the machine's reset state where it stops. -/
def after (o : StepResult) : State :=
  match o with
  | .next t => t
  | .fault _ => State.reset
  | .refused _ => State.reset

/-- The status and the data of the response a step ends with. -/
def answer (o : StepResult) : Option Status × Bytes :=
  (lastStatus (after o), lastData (after o))

def isNext (o : StepResult) : Bool :=
  match o with
  | .next _ => true
  | .fault _ => false
  | .refused _ => false

theorem next_after (o : StepResult) (h : isNext o = true) : o = .next (after o) := by
  cases o <;> simp_all [isNext, after]

abbrev ClearedFacts (s : State) : Prop :=
  s.ctr = s.J0 ∧ s.blocksRem = Config.budget0 ∧ s.S = 0#128 ∧ s.S_at = 0#128 ∧ s.S_atPre = 0#128 ∧ s.atBuf = zeroBuf 16 ∧
  s.atPos = 0#4 ∧ s.atLen = 0#64 ∧ s.atLenPre = 0#64 ∧ s.buf = zeroBuf 32 ∧ s.bufPos = 0#6 ∧ s.payLen = 0#64

abbrev ReadyFacts (s : State) : Prop :=
  s.payLen = 0#64 ∧ s.S = 0#128 ∧ s.S_atPre = 0#128 ∧ s.atLenPre = 0#64 ∧ s.ctr = s.J0 ∧ s.blocksRem = Config.budget0

abbrev StreamFacts (s : State) : Prop :=
  s.payLen.toNat % 16 = 0 ∧ 16 ≤ s.payLen.toNat ∧
  s.blocksRem.toNat + s.payLen.toNat / 16 = Config.budget0.toNat ∧ s.ctr = inc32n (s.payLen.toNat / 16) s.J0 ∧
  (s.dir = false → s.macBytes.toNat ≤ s.bufPos.toNat)

/-- The conjuncts of the invariants, each decidable. -/
abbrev RangeFacts (s : State) : Prop :=
  s.atLen.toNat % 16 = 0 ∧ s.bufPos.toNat < windowCap s ∧ 4 ≤ s.macBytes.toNat ∧ s.macBytes.toNat ≤ 16

abbrev ModeFacts (s : State) : Prop :=
  (s.st = .ready → ReadyFacts s) ∧ (s.st = .stream → StreamFacts s) ∧
  (s.st = .uninit ∨ s.st = .done ∨ s.st = .failed → ClearedFacts s) ∧ (s.st ≠ .done → s.macReg = zeroBuf 16)

abbrev SessionFacts (s : State) : Prop :=
  (s.st = .ready ∨ s.st = .stream ∨ s.st = .done → s.cfgv = true) ∧ (s.st = .uninit → s.cfgv = false ∧ s.J0 = 0#128) ∧
  (s.cfgv = true → s.kv = true) ∧
  (s.st = .ready ∨ s.st = .stream → aadTotal s + payEff s (s.payLen.toNat + s.bufPos.toNat) ≤ Config.ceil)

abbrev KeyFacts (s : State) : Prop :=
  (s.kv = true → s.H = cipherE s 0#128) ∧ (s.lev = true → s.kv = true) ∧ s.M = tablesFor s.params.multImpl s.H ∧
  (s.lev = true → 1 ≤ s.lastEncNonce.length ∧ s.lastEncNonce.length ≤ s.params.nonceMax)

abbrev BufferFacts (s : State) : Prop :=
  s.atBuf = vecOfBytes 16 (stagedBytes s) ∧ s.buf = vecOfBytes 32 (windowBytes s) ∧ s.atLenPre.toNat ≤ aadTotal s ∧
  (s.atLenPre = 0#64 → s.S_atPre = 0#128) ∧ (s.atLen = 0#64 → s.S_at = 0#128) ∧ (s.err ≠ .ok ↔ s.st = .failed)

theorem inv_of_facts {s : State} (hr : RangeFacts s) (hm : ModeFacts s) (hs : SessionFacts s) (hk : KeyFacts s)
    (hb : BufferFacts s) : Inv s := by
  obtain ⟨a1, a2, a3, a4⟩ := hr
  obtain ⟨b1, b2, d1, d2⟩ := hm
  obtain ⟨c1, c2, c3, e1⟩ := hs
  obtain ⟨f1, f2, f3, j1⟩ := hk
  obtain ⟨g1, g2, h1, h2, h3, i1⟩ := hb
  refine ⟨a1, a2, ⟨a3, a4⟩, ?_, ?_, c1, c2, c3, ?_, d2, e1, f1, f2, f3, g1, g2, h1, h2, h3, i1, j1⟩
  · intro hs
    obtain ⟨x1, x2, x3, x4, x5, x6⟩ := b1 hs
    exact ⟨x1, x2, x3, x4, x5, x6⟩
  · intro hs
    obtain ⟨x1, x2, x3, x4, x5⟩ := b2 hs
    exact ⟨x1, x2, x3, x4, x5⟩
  · intro hs
    obtain ⟨x1, x2, x3, x4, x5, x6, x7, x8, x9, x10, x11, x12⟩ := d1 hs
    exact ⟨x1, x2, x3, x4, x5, x6, x7, x8, x9, x10, x11, x12⟩

theorem inv_toyReset : Inv toyReset :=
  inv_of_facts (by decide +kernel) (by decide +kernel) (by decide +kernel) (by decide +kernel) (by decide +kernel)

theorem inv_armed (dir : Bool) : Inv (armed dir) := by
  cases dir <;> exact inv_of_facts (by decide +kernel) (by decide +kernel) (by decide +kernel) (by decide +kernel) (by decide +kernel)

theorem inv_streaming (dir : Bool) : Inv (streaming dir) := by
  cases dir <;> exact inv_of_facts (by decide +kernel) (by decide +kernel) (by decide +kernel) (by decide +kernel) (by decide +kernel)

theorem inv_finished (dir : Bool) : Inv (finished dir) := by
  cases dir <;> exact inv_of_facts (by decide +kernel) (by decide +kernel) (by decide +kernel) (by decide +kernel) (by decide +kernel)

theorem inv_failedState (dir : Bool) : Inv (failedState dir) := by
  cases dir <;> exact inv_of_facts (by decide +kernel) (by decide +kernel) (by decide +kernel) (by decide +kernel) (by decide +kernel)

/-! ## WellFormed refuses -/

theorem test_refuses_key_without_keyv :
    illFormed (.init true false 128#8 [0x01#8] nonce12 []) = some .keyWithoutKeyv := by decide

/-- One byte more than a descriptor word can count. -/
def tooLong : Bytes := List.replicate (2 ^ 32) 0#8

theorem tooLong_does_not_fit : lengthFits tooLong = false := by
  rw [lengthFits, tooLong, List.length_replicate]
  decide

theorem test_refuses_long_key : illFormed (.init true true 128#8 tooLong nonce12 []) = some .keyTooLong := by
  simp [illFormed, tooLong_does_not_fit]

theorem test_refuses_long_nonce : illFormed (.init true true 128#8 [] tooLong []) = some .nonceTooLong := by
  simp [illFormed, tooLong_does_not_fit, show lengthFits [] = true from rfl]

theorem test_refuses_long_aad : illFormed (.init true true 128#8 [] [] tooLong) = some .aadTooLong := by
  simp [illFormed, tooLong_does_not_fit, show lengthFits [] = true from rfl]

theorem test_refuses_long_data :
    illFormed (.aad tooLong) = some .dataTooLong ∧ illFormed (.proc tooLong) = some .dataTooLong ∧
    illFormed (.final tooLong) = some .dataTooLong := by
  simp [illFormed, tooLong_does_not_fit]

/-! ## Words written out from R41 and R44, bit by bit -/

/-- `OP` 0001, `DIR` 1, `KEYV` 1, `RSV` 0, `MACBITS` 1000 0000. -/
theorem test_decode_init :
    decode (descriptorBytes ⟨0b00011100000000000000000010000000#32, 1#32, 2#32, 3#32⟩ ++
        [0x11#8, 0x22#8, 0x33#8, 0xaa#8, 0xbb#8, 0xcc#8, 0x77#8])
      = .command (.init true true 128#8 [0x11#8, 0x22#8] [0x33#8] [0xaa#8, 0xbb#8, 0xcc#8]) [0x77#8] := by decide +kernel

/-- `OP` 0001, `DIR` 0, `KEYV` 0, `MACBITS` 0110 0000. -/
theorem test_decode_init_keep :
    decode (descriptorBytes ⟨0b00010000000000000000000001100000#32, 2#32, 0#32, 1#32⟩ ++ [0x33#8, 0x44#8, 0xaa#8])
      = .command (.init false false 96#8 [] [0x33#8, 0x44#8] [0xaa#8]) [] := by decide +kernel

theorem test_decode_aad :
    decode (descriptorBytes ⟨0b00100000000000000000000000000000#32, 2#32, 0#32, 0#32⟩ ++ [0x01#8, 0x02#8, 0x03#8])
      = .command (.aad [0x01#8, 0x02#8]) [0x03#8] := by decide +kernel

theorem test_decode_proc :
    decode (descriptorBytes ⟨0b00110000000000000000000000000000#32, 1#32, 0#32, 0#32⟩ ++ [0x01#8])
      = .command (.proc [0x01#8]) [] := by decide +kernel

theorem test_decode_final :
    decode (descriptorBytes ⟨0b01000000000000000000000000000000#32, 1#32, 0#32, 0#32⟩ ++ [0x6c#8])
      = .command (.final [0x6c#8]) [] := by decide +kernel

theorem test_decode_getmac :
    decode (descriptorBytes ⟨0b01010000000000000000000000000000#32, 0#32, 0#32, 0#32⟩) = .command .getmac [] := by
  decide +kernel

theorem test_decode_reset :
    decode (descriptorBytes ⟨0b01100000000000000000000000000000#32, 0#32, 0#32, 0#32⟩) = .command .reset [] := by
  decide +kernel

theorem test_decode_outsz :
    decode (descriptorBytes ⟨0b01110000000000000000000000000000#32, 0xffffffff#32, 0#32, 0#32⟩)
      = .command (.outsz 0xffffffff#32) [] := by decide +kernel

theorem test_decode_updsz :
    decode (descriptorBytes ⟨0b10000000000000000000000000000000#32, 100#32, 0#32, 0#32⟩)
      = .command (.updsz 100#32) [] := by decide +kernel

/-- R40: byte 0 of a descriptor is `W0` bits 31:24. -/
theorem test_descriptor_byte_order :
    (descriptorBytes ⟨0x1C000080#32, 0x0000000C#32, 0#32, 0x01020304#32⟩)
      = [0x1C#8, 0#8, 0#8, 0x80#8, 0#8, 0#8, 0#8, 0x0C#8, 0#8, 0#8, 0#8, 0#8, 0x01#8, 0x02#8, 0x03#8, 0x04#8] := by decide +kernel

theorem test_table_words :
    decodeTableWord 32 0x10000000 = some (.init false false 0#8 [] [] []) ∧ decodeTableWord 32 0x50000000 = some .getmac ∧
    decodeTableWord 32 0x90000000 = none ∧ decodeTableWord 32 0 = none ∧ decodeTableWord 32 0x30000001 = none := by
  decide +kernel

/-- The step fetches and runs a word placed for it. -/
theorem test_fetch_word : answer (step (toyReset.withFetchWord 32 0x50000000)) = (some .ok, List.replicate 16 0#8) := by
  decide +kernel

/-! ## The leaf operations, by the rules' examples -/

theorem test_mulX_wraps : mulX 1#128 = 0xe1#128 <<< 120 := by decide +kernel

/-- R63. -/
theorem test_gfMul :
    gfMul 0x0388dace60b6a392f328c2b971b2fe78#128 0x66e94bd4ef8a2c3b884cfa59ca342b2e#128
      = 0x5e2ec746917062882c85b0685353deb7#128 := by decide +kernel

/-- R66. -/
theorem test_table4 :
    mulHTable4 (tables4 0x66e94bd4ef8a2c3b884cfa59ca342b2e#128) 0x0388dace60b6a392f328c2b971b2fe78#128
      = 0x5e2ec746917062882c85b0685353deb7#128 ∧
    (tables4 0x66e94bd4ef8a2c3b884cfa59ca342b2e#128).getD 15 0#128 = 0x307a95b13e5cf4afdf7026a864e5b117#128 := by
  decide +kernel

/-- R67. -/
theorem test_table8 :
    mulHTable8 (tables8 0x66e94bd4ef8a2c3b884cfa59ca342b2e#128) 0x0388dace60b6a392f328c2b971b2fe78#128
      = 0x5e2ec746917062882c85b0685353deb7#128 ∧
    (tables8 0x66e94bd4ef8a2c3b884cfa59ca342b2e#128).getD 255 0#128 = 0x679d3cea2db93be5228724c2e2abea06#128 := by
  decide +kernel

/-- R68. -/
theorem test_gfPow :
    gfPow 0x66e94bd4ef8a2c3b884cfa59ca342b2e#128 3 = 0xa24af38161917d7c9ae0d027c5fd91ca#128 := by decide +kernel

/-- R71. -/
theorem test_ghashPartial :
    ghashPartial { toyReset with H := 0x66e94bd4ef8a2c3b884cfa59ca342b2e#128 } 0x5e2ec746917062882c85b0685353deb7#128
      [0xfe#8, 0xed#8, 0xfa#8, 0xce#8, 0xde#8, 0xff#8] 5 = 0x7fcdcb18b856e75e99f6661550136c04#128 := by decide +kernel

/-- R75, the general path. -/
theorem test_deriveJ0 :
    deriveJ0 { toyReset with H := 0xb83b533708bf535d0aa6e52980d53b78#128 } (beBytes 8 0xcafebabefacedbad)
      = 0xc43a83c4c4badec4354ca984db252f7d#128 ∧
    deriveJ0 { toyReset with H := 0xb83b533708bf535d0aa6e52980d53b78#128 }
        (beBytes 18 0x000102030405060708090a0b0c0d0e0f1011)
      = 0x6f83f280a04293e673ca05e304a83b6e#128 := by decide +kernel

/-- R76. -/
theorem test_inc32_wraps :
    inc32 0x0123456789abcdef01234567ffffffff#128 = 0x0123456789abcdef0123456700000000#128 := by decide +kernel

/-! ## One step of each command -/

/-- P2's INIT: key, subkey, `J0`, staging, port. -/
theorem test_init :
    let t := after (exec (.init true true 128#8 keyOne nonce12 aad3) toyReset)
    t.st = .ready ∧ t.H = gfOne ∧ t.J0 = j0One ∧ t.ctr = j0One ∧ t.atBuf = vecOfBytes 16 aad3 ∧ t.atPos = 3#4 ∧
    t.lev = true ∧ t.port = [.load keyOne, .enc 0#128] := by decide +kernel

/-- R90: the pair of the last encryption session is refused, the same nonce under another key is not. -/
theorem test_init_reuse :
    answer (exec (.init true false 128#8 [] nonce12 []) (finished true)) = (some .nonceReuse, []) ∧
    answer (exec (.init true true 128#8 [0x01#8] nonce12 []) (finished true)) = (some .ok, []) := by decide +kernel

/-- P4's late AAD on a session with `H = ONE`: 11 bytes complete the block with five staged, two stay. -/
theorem test_aad :
    let s := { streaming true with atBuf := vecOfBytes 16 [1#8, 2#8, 3#8, 4#8, 5#8], atPos := 5#4 }
    let t := after (exec (.aad (beBytes 13 0x060708090a0b0c0d0e0f101112)) s)
    t.S_at = 0x0102030405060708090a0b0c0d0e0f10#128 ∧ t.atLen = 16#64 ∧ t.atPos = 2#4 ∧
    t.atBuf = vecOfBytes 16 [0x11#8, 0x12#8] ∧ t.st = .stream := by decide +kernel

/-- R142 (a): a build that forbids late AAD. -/
theorem test_aad_late_forbidden :
    answer (exec (.aad []) { streaming true with params := { toyBuild with lateAad := false } })
      = (some .invalidState, []) := by decide +kernel

/-- P2's PROC. -/
theorem test_proc_encrypt :
    let t := after (exec (.proc (beBytes 18 0x00112233445566778899aabbccddeeff0011)) (armed true))
    lastData t = beBytes 16 0x811321374153617f8193a1b7ccddeefd ∧ t.S = 0x2ba8ed374153617f8193a1b7ccddeefd#128 ∧
    t.ctr = 0x0102030405060708090a0b0c00000002#128 ∧ t.blocksRem = 0xfffffffd#32 ∧ t.bufPos = 2#6 ∧
    t.port = [.enc 0x0102030405060708090a0b0c00000002#128] := by decide +kernel

/-- P3's second PROC. -/
theorem test_proc_decrypt :
    let s := { armed false with buf := vecOfBytes 32 (beBytes 18 0x811321374153617f8193a1b7ccddeefd8113), bufPos := 18#6 }
    let t := after (exec (.proc (beBytes 15 0x2bb9ee334455666f8899aabbccddee)) s)
    lastData t = beBytes 16 0x00112233445566778899aabbccddeeff ∧ t.st = .stream ∧ t.bufPos = 17#6 ∧
    t.buf = vecOfBytes 32 (beBytes 17 0x81132bb9ee334455666f8899aabbccddee) := by decide +kernel

/-- P2's FINAL. -/
theorem test_final_encrypt :
    let t := after (exec (.final []) (streaming true))
    lastData t = beBytes 18 0x81132bb9ee334455666f8899aabbccddee6c ∧ t.macReg = vecOfBytes 16 tagP2 ∧ t.st = .done ∧
    t.port = [.enc 0x0102030405060708090a0b0c00000003#128, .enc j0One] := by decide +kernel

/-- P3's FINAL, and the same with the last tag byte changed. -/
theorem test_final_decrypt :
    answer (exec (.final [0x6c#8]) (streaming false)) = (some .ok, [0x00#8, 0x11#8]) ∧
    answer (exec (.final [0x6d#8]) (streaming false)) = (some .authenticationFailed, []) := by decide +kernel

theorem test_getmac :
    answer (exec .getmac (finished true)) = (some .ok, tagP2) ∧
    answer (exec .getmac (failedState false)) = (some .ok, List.replicate 16 0#8) := by decide +kernel

theorem test_reset_rearms :
    let t := after (exec .reset (finished false))
    t.st = .ready ∧ t.J0 = j0One ∧ t.ctr = j0One ∧ t.macReg = zeroBuf 16 ∧ t.cfgv = true := by decide +kernel

theorem test_reset_ends_encryption :
    let t := after (exec .reset (finished true))
    t.st = .uninit ∧ t.J0 = 0#128 ∧ t.cfgv = false ∧ t.lev = true ∧ t.kv = true := by decide +kernel

theorem test_outsz :
    answer (exec (.outsz 18#32) (armed true)) = (some .ok, be64 34) ∧
    answer (exec (.outsz 1#32) (streaming false)) = (some .ok, be64 2) ∧
    answer (exec (.outsz 15#32) (armed false)) = (some .ok, be64 0) := by decide +kernel

theorem test_updsz :
    answer (exec (.updsz 18#32) (armed true)) = (some .ok, be64 16) ∧
    answer (exec (.updsz 31#32) (armed false)) = (some .ok, be64 0) ∧
    answer (exec (.updsz 32#32) (armed false)) = (some .ok, be64 16) := by decide +kernel

/-- R50, R51: P2 as one line of text. -/
theorem test_assemble_text :
    assembleText ["SEAL key=80 nonce=0102 aad=aabb mac=96 00ff"]
      = some (encode (.init true true 96#8 [0x80#8] [1#8, 2#8] [0xaa#8, 0xbb#8]) ++ encode (.final [0x00#8, 0xff#8])) := by
  decide +kernel

/-! ## For each obligation with hypotheses, a state and operands that meet them -/

/-- A session at the ceiling: 13 more bytes reach it exactly, 14 are one too many. -/
def nearCeiling (dir : Bool) : State :=
  { armed dir with atLen := BitVec.ofNat 64 (2 ^ 36 - 48) }

theorem inv_nearCeiling (dir : Bool) : Inv (nearCeiling dir) := by
  cases dir <;> exact inv_of_facts (by decide +kernel) (by decide +kernel) (by decide +kernel) (by decide +kernel) (by decide +kernel)

/-- A build without late associated data, in STREAM. -/
def noLate : State := { streaming true with params := { toyBuild with lateAad := false } }

/-- The all-zero descriptor on the command channel, twice. -/
def zeroDescriptor : Descriptor := ⟨0#32, 0#32, 0#32, 0#32⟩

theorem witness_DecodeOfEncode :
    WellFormed (.init true true 128#8 keyOne nonce12 aad3) ∧ WellFormed (.init false false 32#8 [] nonce12 []) ∧
    WellFormed (.proc []) := by decide +kernel

theorem witness_EncodeOfDecode :
    decode (descriptorBytes ⟨0x30000000#32, 1#32, 0#32, 0#32⟩ ++ [0x01#8]) = .command (.proc [0x01#8]) [] := by decide +kernel

theorem witness_DescriptorWordFields :
    decodeDescriptor ⟨0x1C000080#32, 1#32, 2#32, 3#32⟩ = .ok (.init true true 128#8 1#32 2#32 3#32) ∧
    fieldOp 0x1C000080#32 = 1#4 ∧
    decodeDescriptor ⟨0x20000000#32, 1#32, 0#32, 0#32⟩ = .ok (.aad 1#32) ∧ fieldOp 0x20000000#32 ≠ 1#4 := by decide +kernel

theorem witness_IllegalDescriptors :
    decodeDescriptor zeroDescriptor = .error .reservedOp ∧
    (let s := { armed true with chan := descriptorBytes zeroDescriptor }
     s.resetIn = false ∧ s.chan = descriptorBytes zeroDescriptor ++ []) ∧
    ¬(32 ≤ (24#8).toNat ∧ (24#8).toNat ≤ 128 ∧ (24#8).toNat % 8 = 0) ∧
    ¬(32 ≤ (136#8).toNat ∧ (136#8).toNat ≤ 128 ∧ (136#8).toNat % 8 = 0) ∧
    ¬(32 ≤ (33#8).toNat ∧ (33#8).toNat ≤ 128 ∧ (33#8).toNat % 8 = 0) := by decide +kernel

/-- Both sides of each boundary of R45. -/
theorem witness_IllegalDescriptors_boundaries :
    decodeDescriptor ⟨0x90000000#32, 0#32, 0#32, 0#32⟩ = .error .reservedOp ∧
    decodeDescriptor ⟨0x80000000#32, 0#32, 0#32, 0#32⟩ = .ok (.updsz 0#32) ∧
    decodeDescriptor ⟨0x30000100#32, 0#32, 0#32, 0#32⟩ = .error .reservedField ∧
    decodeDescriptor ⟨0x32000000#32, 0#32, 0#32, 0#32⟩ = .error .reservedField ∧
    decodeDescriptor ⟨0x30000001#32, 0#32, 0#32, 0#32⟩ = .error .unusedField ∧
    decodeDescriptor ⟨0x34000000#32, 0#32, 0#32, 0#32⟩ = .error .unusedField ∧
    decodeDescriptor ⟨0x50000000#32, 1#32, 0#32, 0#32⟩ = .error .lenNotZero ∧
    decodeDescriptor ⟨0x10000080#32, 1#32, 1#32, 0#32⟩ = .error .klenWithoutKey ∧
    decodeDescriptor ⟨0x14000080#32, 1#32, 1#32, 0#32⟩ = .ok (.init false true 128#8 1#32 1#32 0#32) := by decide +kernel

theorem witness_LegalDescriptors :
    decodeDescriptor ⟨0x10000000#32, 0#32, 0#32, 0#32⟩ = .ok (.init false false 0#8 0#32 0#32 0#32) ∧
    decodeDescriptor ⟨0x30000000#32, 9#32, 0#32, 0#32⟩ = .ok (.proc 9#32) ∧
    decodeDescriptor ⟨0x40000000#32, 9#32, 0#32, 0#32⟩ = .ok (.final 9#32) ∧
    decodeDescriptor ⟨0x20000000#32, 9#32, 0#32, 0#32⟩ = .ok (.aad 9#32) ∧
    decodeDescriptor ⟨0x50000000#32, 0#32, 0#32, 0#32⟩ = .ok .getmac ∧
    decodeDescriptor ⟨0x60000000#32, 0#32, 0#32, 0#32⟩ = .ok .reset ∧
    decodeDescriptor ⟨0x80000000#32, 9#32, 0#32, 0#32⟩ = .ok (.updsz 9#32) ∧
    decodeDescriptor ⟨0x70000000#32, 9#32, 0#32, 0#32⟩ = .ok (.outsz 9#32) := by decide +kernel

theorem witness_AssembledLinesAreLegal :
    assemble (.init true (some keyOne) nonce12 aad3 128) = some (encode (.init true true 128#8 keyOne nonce12 aad3)) ∧
    (∀ d data, AsmLine.init true (some keyOne) nonce12 aad3 128 ≠ .raw d data) :=
  ⟨by decide +kernel, fun _ _ h => by cases h⟩

/-- SEAL with a legal tag length, OPEN with one INIT refuses. -/
theorem witness_PseudoCommands :
    (let bs := encode (.init true true 128#8 keyOne nonce12 []) ++ encode (.final [0x01#8])
     assemble (.seal (some keyOne) nonce12 [] 128 [0x01#8]) = some bs ∧
     isNext (step { toyReset with chan := bs }) = true) ∧
    (let bs := encode (.init false true 24#8 keyOne nonce12 []) ++ encode (.final [0x01#8])
     assemble (.unseal (some keyOne) nonce12 [] 24 [0x01#8]) = some bs ∧
     isNext (step { toyReset with chan := bs }) = true ∧
     lastStatus (after (step { toyReset with chan := bs })) ≠ some .ok) := by decide +kernel

theorem witness_StepRunsDecodedCommand :
    (let s := { armed true with chan := encode (.proc [0x01#8]) ++ [0x02#8] }
     s.resetIn = false ∧ WellFormed (.proc [0x01#8]) ∧ decode s.chan = .command (.proc [0x01#8]) [0x02#8]) := by decide +kernel

theorem witness_StepOutsideCommands :
    (armed true).chan = [] ∧ (armed true).resetIn = false ∧
    (let s := { armed true with chan := [0x30#8] }
     s.resetIn = false ∧ 0 < s.chan.length ∧ s.chan.length < 16) ∧
    (let s := { armed true with chan := List.replicate 15 0#8 }
     s.resetIn = false ∧ 0 < s.chan.length ∧ s.chan.length < 16) ∧
    decodeDescriptor ⟨0x30000000#32, 2#32, 0#32, 0#32⟩ = .ok (.proc 2#32) ∧
    ([] : Bytes).length < headerDlen (.proc 2#32) ∧ [0x01#8].length < headerDlen (.proc 2#32) := by decide +kernel

theorem witness_HardwareReset : ({ streaming true with resetIn := true } : State).resetIn = true := by decide +kernel

theorem witness_StepKeepsInvariant :
    Inv ({ armed true with chan := encode .getmac } : State) ∧ isNext (step { armed true with chan := encode .getmac }) = true :=
  ⟨inv_of_facts (by decide +kernel) (by decide +kernel) (by decide +kernel) (by decide +kernel) (by decide +kernel),
    by decide +kernel⟩

theorem witness_BuildParametersFixed :
    isNext (step { armed true with chan := encode .getmac }) = true ∧ isNext (exec .getmac (armed true)) = true := by
  decide +kernel

theorem witness_EveryCommandAnswersOnce :
    Inv (armed true) ∧
    (let s := { armed true with chan := descriptorBytes zeroDescriptor }
     s.resetIn = false ∧ decode s.chan = .illegal .reservedOp []) :=
  ⟨inv_armed true, by decide +kernel⟩

theorem witness_StateMachineTable :
    Inv (toyReset) ∧
    exec (.init true true 128#8 keyOne nonce12 []) (toyReset) = .next (after (exec (.init true true 128#8 keyOne nonce12 []) (toyReset))) ∧
    lastStatus (after (exec (.init true true 128#8 keyOne nonce12 []) (toyReset))) = some .ok ∧
    Inv (streaming true) ∧
    exec (.aad []) (streaming true) = .next (after (exec (.aad []) (streaming true))) ∧
    lastStatus (after (exec (.aad []) (streaming true))) = some .ok ∧
    Inv (armed true) ∧
    exec (.proc (List.replicate 16 0#8)) (armed true) = .next (after (exec (.proc (List.replicate 16 0#8)) (armed true))) ∧
    lastStatus (after (exec (.proc (List.replicate 16 0#8)) (armed true))) = some .ok ∧
    Inv (streaming false) ∧
    exec (.final [0x6c#8]) (streaming false) = .next (after (exec (.final [0x6c#8]) (streaming false))) ∧
    lastStatus (after (exec (.final [0x6c#8]) (streaming false))) = some .ok ∧
    Inv (failedState false) ∧
    exec (.reset) (failedState false) = .next (after (exec (.reset) (failedState false))) ∧
    lastStatus (after (exec (.reset) (failedState false))) = some .ok ∧
    Inv (finished true) ∧
    exec (.proc []) (finished true) = .next (after (exec (.proc []) (finished true))) ∧
    lastStatus (after (exec (.proc []) (finished true))) ≠ some .ok :=
  ⟨inv_toyReset,
    next_after _ (by decide +kernel),
    (by decide +kernel),
    inv_streaming true,
    next_after _ (by decide +kernel),
    (by decide +kernel),
    inv_armed true,
    next_after _ (by decide +kernel),
    (by decide +kernel),
    inv_streaming false,
    next_after _ (by decide +kernel),
    (by decide +kernel),
    inv_failedState false,
    next_after _ (by decide +kernel),
    (by decide +kernel),
    inv_finished true,
    next_after _ (by decide +kernel),
    (by decide +kernel)⟩

theorem witness_FailureEffects :
    Inv (toyReset) ∧
    exec (.proc []) (toyReset) = .next (after (exec (.proc []) (toyReset))) ∧
    lastStatus (after (exec (.proc []) (toyReset))) = some .invalidState ∧
    Status.invalidState ≠ .ok ∧
    Inv (streaming false) ∧
    exec (.final [0x6d#8]) (streaming false) = .next (after (exec (.final [0x6d#8]) (streaming false))) ∧
    lastStatus (after (exec (.final [0x6d#8]) (streaming false))) = some .authenticationFailed ∧
    Status.authenticationFailed ≠ .ok :=
  ⟨inv_toyReset,
    next_after _ (by decide +kernel),
    (by decide +kernel),
    (by decide +kernel),
    inv_streaming false,
    next_after _ (by decide +kernel),
    (by decide +kernel),
    (by decide +kernel)⟩

theorem witness_FailedInitKeepsConfiguration :
    exec (.init true true 24#8 keyOne nonce12 []) (streaming true) = .next (after (exec (.init true true 24#8 keyOne nonce12 []) (streaming true))) ∧
    lastStatus (after (exec (.init true true 24#8 keyOne nonce12 []) (streaming true))) = some .invalidParameter ∧
    exec (.init true false 128#8 [] nonce12 []) (streaming true) = .next (after (exec (.init true false 128#8 [] nonce12 []) (streaming true))) ∧
    lastStatus (after (exec (.init true false 128#8 [] nonce12 []) (streaming true))) = some .nonceReuse :=
  ⟨next_after _ (by decide +kernel),
    (by decide +kernel),
    next_after _ (by decide +kernel),
    (by decide +kernel)⟩

theorem witness_FailedInitKeepsConfiguration_illegal :
    (let s := { armed true with chan := descriptorBytes zeroDescriptor ++ (descriptorBytes zeroDescriptor ++ []) }
     s.resetIn = false ∧ isNext (step s) = true) := by decide +kernel

theorem witness_ReturnFromFailure :
    Inv (failedState false) ∧
    exec (.reset) (failedState false) = .next (after (exec (.reset) (failedState false))) ∧
    (after (exec (.reset) (failedState false))).st ≠ .failed ∧
    Inv (failedState true) ∧
    exec (.init true true 128#8 [0x01#8] nonce12 []) (failedState true) = .next (after (exec (.init true true 128#8 [0x01#8] nonce12 []) (failedState true))) ∧
    (after (exec (.init true true 128#8 [0x01#8] nonce12 []) (failedState true))).st ≠ .failed ∧
    Inv (failedState true) ∧
    exec (.getmac) (failedState true) = .next (after (exec (.getmac) (failedState true))) ∧
    (failedState true).st = .failed :=
  ⟨inv_failedState false,
    next_after _ (by decide +kernel),
    (by decide +kernel),
    inv_failedState true,
    next_after _ (by decide +kernel),
    (by decide +kernel),
    inv_failedState true,
    next_after _ (by decide +kernel),
    (by decide +kernel)⟩

theorem witness_FailureWhileFailed :
    Inv (failedState false) ∧
    exec (.aad []) (failedState false) = .next (after (exec (.aad []) (failedState false))) ∧
    lastStatus (after (exec (.aad []) (failedState false))) = some .invalidState ∧
    (failedState false).st = .failed :=
  ⟨inv_failedState false,
    next_after _ (by decide +kernel),
    (by decide +kernel),
    (by decide +kernel)⟩

theorem witness_FailureWhileFailed_illegal :
    Inv ({ failedState false with chan := descriptorBytes zeroDescriptor } : State) ∧
    (failedState false).resetIn = false ∧ decode (descriptorBytes zeroDescriptor) = .illegal .reservedOp [] :=
  ⟨inv_of_facts (by decide +kernel) (by decide +kernel) (by decide +kernel) (by decide +kernel) (by decide +kernel),
    by decide +kernel⟩

/-- Each parameter check of INIT alone, at its boundary. -/
theorem witness_InitStatus_illegal :
    ¬InitParametersLegal true 128#8 nonce12 { toyReset with params := { toyBuild with cbs := 8 } } ∧
    ¬InitParametersLegal true 31#8 nonce12 toyReset ∧ ¬InitParametersLegal true 129#8 nonce12 toyReset ∧
    ¬InitParametersLegal true 33#8 nonce12 toyReset ∧ ¬InitParametersLegal true 128#8 [] toyReset ∧
    ¬InitParametersLegal true 128#8 nonce12 { toyReset with params := { toyBuild with nonceMax := 11 } } ∧
    ¬InitParametersLegal false 128#8 nonce12 toyReset :=
  ⟨fun h => absurd h.cbs (by decide +kernel), fun h => absurd h.mac (by decide +kernel),
    fun h => absurd h.mac (by decide +kernel), fun h => absurd h.mac (by decide +kernel),
    fun h => absurd h.nonce (by decide +kernel), fun h => absurd h.nonce (by decide +kernel),
    fun h => absurd h.key (by decide +kernel)⟩

theorem witness_InitStatus_legal :
    InitParametersLegal true 32#8 [0x01#8] toyReset ∧ InitParametersLegal false 128#8 nonce12 (finished true) ∧
    InitParametersLegal true 128#8 nonce12 { toyReset with params := { toyBuild with nonceMax := 12 } } ∧
    RepeatsPair true false [] nonce12 (finished true) ∧ ¬RepeatsPair false false [] nonce12 (finished true) ∧
    ¬RepeatsPair true true keyOne [0x01#8] toyReset :=
  ⟨⟨by decide +kernel, by decide +kernel, by decide +kernel, by decide +kernel⟩,
    ⟨by decide +kernel, by decide +kernel, by decide +kernel, by decide +kernel⟩,
    ⟨by decide +kernel, by decide +kernel, by decide +kernel, by decide +kernel⟩, by decide +kernel⟩

/-- Associated data at the ceiling, and one byte past it. -/
def aadOfLength (n : Nat) : Bytes := List.replicate n 0#8

theorem length_aadOfLength (n : Nat) : (aadOfLength n).length = n := List.length_replicate

theorem witness_InitStatus_sizes :
    2 ^ 36 - 32 < (aadOfLength (2 ^ 36 - 31)).length ∧ (aadOfLength (2 ^ 36 - 32)).length ≤ 2 ^ 36 - 32 := by
  rw [length_aadOfLength, length_aadOfLength]
  decide

theorem witness_InitStartsSession :
    Inv toyReset ∧ InitParametersLegal true 128#8 nonce12 toyReset ∧ ¬RepeatsPair true true keyOne nonce12 toyReset ∧
    Inv (finished true) ∧ InitParametersLegal false 128#8 nonce12 (finished true) ∧
    ¬RepeatsPair false false [] nonce12 (finished true) ∧ aad3.length ≤ 2 ^ 36 - 32 :=
  ⟨inv_toyReset, ⟨by decide +kernel, by decide +kernel, by decide +kernel, by decide +kernel⟩, by decide +kernel,
    inv_finished true, ⟨by decide +kernel, by decide +kernel, by decide +kernel, by decide +kernel⟩, by decide +kernel,
    by decide +kernel⟩

theorem witness_NonceMemory :
    exec (.init true true 128#8 keyOne nonce12 []) (toyReset) = .next (after (exec (.init true true 128#8 keyOne nonce12 []) (toyReset))) ∧
    lastStatus (after (exec (.init true true 128#8 keyOne nonce12 []) (toyReset))) = some .ok ∧
    exec (.proc []) (armed true) = .next (after (exec (.proc []) (armed true))) ∧
    isEncInit (.proc []) = false :=
  ⟨next_after _ (by decide +kernel),
    (by decide +kernel),
    next_after _ (by decide +kernel),
    (by decide +kernel)⟩

theorem witness_NonceMemory_refusal :
    let t := after (exec (.init true true 128#8 keyOne nonce12 []) toyReset)
    (∀ i ∈ [Instr.reset], isEncInit i = false) ∧ ∃ u, runAll [.reset] t = some u ∧ InitParametersLegal true 96#8 nonce12 u :=
  ⟨by decide +kernel, after (exec .reset (after (exec (.init true true 128#8 keyOne nonce12 []) toyReset))), by rfl,
    ⟨by decide +kernel, by decide +kernel, by decide +kernel, by decide +kernel⟩⟩

theorem witness_KeyAndConfigurationWriters :
    exec (.init true true 128#8 keyOne nonce12 []) (toyReset) = .next (after (exec (.init true true 128#8 keyOne nonce12 []) (toyReset))) ∧
    ChangesKey true keyOne toyReset ∧
    exec (.reset) (finished true) = .next (after (exec (.reset) (finished true))) ∧
    (after (exec (.reset) (finished true))).cfgv = false :=
  ⟨next_after _ (by decide +kernel),
    (by decide +kernel),
    next_after _ (by decide +kernel),
    (by decide +kernel)⟩

/-- Both legal states, and exactly at the ceiling. -/
theorem witness_AadResult :
    Inv (armed true) ∧ takesAad (armed true) ∧ aadFits (armed true) 20 ∧ Inv (streaming false) ∧ takesAad (streaming false) ∧
    aadFits (streaming false) 0 ∧ Inv (nearCeiling true) ∧ takesAad (nearCeiling true) ∧ aadFits (nearCeiling true) 13 :=
  ⟨inv_armed true, by decide +kernel, by decide +kernel, inv_streaming false, by decide +kernel, by decide +kernel,
    inv_nearCeiling true, by decide +kernel, by decide +kernel⟩

theorem witness_StreamingRefused :
    ¬takesAad toyReset ∧ ¬takesAad (finished true) ∧ ¬takesAad (failedState false) ∧ ¬takesAad noLate ∧
    (takesAad (nearCeiling true) ∧ ¬aadFits (nearCeiling true) 14) ∧
    ¬inSession toyReset ∧ ¬inSession (finished true) ∧ ¬inSession (failedState false) ∧
    (inSession (nearCeiling true) ∧ ¬payFits (nearCeiling true) 14) ∧
    (inSession (nearCeiling false) ∧ payFits (nearCeiling false) 29 ∧ ¬payFits (nearCeiling false) 30) := by decide +kernel

theorem witness_ProcResult :
    Inv (armed true) ∧ inSession (armed true) ∧ payFits (armed true) 18 ∧ Inv (streaming false) ∧ inSession (streaming false) ∧
    payFits (streaming false) 15 ∧ Inv (nearCeiling true) ∧ inSession (nearCeiling true) ∧ payFits (nearCeiling true) 13 :=
  ⟨inv_armed true, by decide +kernel, by decide +kernel, inv_streaming false, by decide +kernel, by decide +kernel,
    inv_nearCeiling true, by decide +kernel, by decide +kernel⟩

theorem witness_FinalEncrypts :
    Inv (streaming true) ∧ inSession (streaming true) ∧ payFits (streaming true) 0 ∧ (streaming true).dir = true ∧
    Inv (armed true) ∧ inSession (armed true) ∧ payFits (armed true) 0 ∧ (armed true).dir = true :=
  ⟨inv_streaming true, by decide +kernel, by decide +kernel, by decide +kernel, inv_armed true, by decide +kernel,
    by decide +kernel, by decide +kernel⟩

theorem witness_FinalDecrypts :
    Inv (streaming false) ∧ inSession (streaming false) ∧ payFits (streaming false) 1 ∧ (streaming false).dir = false ∧
    (streaming false).macBytes.toNat ≤ (streaming false).bufPos.toNat + 1 ∧
    finalTag (finalPayload [0x6c#8] (streaming false)) (streaming false) = finalReceived [0x6c#8] (streaming false) :=
  ⟨inv_streaming false, by decide +kernel, by decide +kernel, by decide +kernel, by decide +kernel, by decide +kernel⟩

/-- One byte short of a tag, exactly a tag, and a tag whose last byte is wrong. -/
theorem witness_FinalRejects :
    Inv (armed false) ∧ inSession (armed false) ∧ payFits (armed false) 15 ∧ (armed false).dir = false ∧
    (armed false).bufPos.toNat + 15 < (armed false).macBytes.toNat ∧
    (armed false).macBytes.toNat ≤ (armed false).bufPos.toNat + 16 ∧
    finalTag (finalPayload (List.replicate 16 0#8) (armed false)) (armed false)
      ≠ finalReceived (List.replicate 16 0#8) (armed false) ∧
    Inv (streaming false) ∧
    finalTag (finalPayload [0x6d#8] (streaming false)) (streaming false) ≠ finalReceived [0x6d#8] (streaming false) :=
  ⟨inv_armed false, by decide +kernel, by decide +kernel, by decide +kernel, by decide +kernel, by decide +kernel,
    by decide +kernel, inv_streaming false, by decide +kernel⟩

theorem witness_MismatchPositionHidden :
    Inv (armed false) ∧
    exec (.final ([] ++ List.replicate 16 0#8)) (armed false) = .next (after (exec (.final ([] ++ List.replicate 16 0#8)) (armed false))) ∧
    lastStatus (after (exec (.final ([] ++ List.replicate 16 0#8)) (armed false))) = some .authenticationFailed ∧
    ((armed false).dir = false ∧ (armed false).macBytes.toNat = 16) ∧
    exec (.final ([] ++ (List.replicate 15 0#8 ++ [0x01#8]))) (armed false) = .next (after (exec (.final ([] ++ (List.replicate 15 0#8 ++ [0x01#8]))) (armed false))) ∧
    lastStatus (after (exec (.final ([] ++ (List.replicate 15 0#8 ++ [0x01#8]))) (armed false))) = some .authenticationFailed :=
  ⟨inv_armed false,
    next_after _ (by decide +kernel),
    (by decide +kernel),
    (by decide +kernel),
    next_after _ (by decide +kernel),
    (by decide +kernel)⟩

theorem witness_ZeroLengthCommands :
    Inv (armed false) ∧ takesAad (armed false) ∧ inSession (armed false) ∧ Inv (streaming true) ∧ takesAad (streaming true) ∧
    inSession (streaming true) :=
  ⟨inv_armed false, by decide +kernel, by decide +kernel, inv_streaming true, by decide +kernel, by decide +kernel⟩

theorem witness_GetmacResult :
    Inv (streaming true) ∧
    exec (.final []) (streaming true) = .next (after (exec (.final []) (streaming true))) ∧
    lastStatus (after (exec (.final []) (streaming true))) = some .ok ∧
    (streaming true).st ≠ .done ∧
    Inv (streaming false) ∧
    exec (.final [0x6c#8]) (streaming false) = .next (after (exec (.final [0x6c#8]) (streaming false))) ∧
    lastStatus (after (exec (.final [0x6c#8]) (streaming false))) = some .ok :=
  ⟨inv_streaming true,
    next_after _ (by decide +kernel),
    (by decide +kernel),
    (by decide +kernel),
    inv_streaming false,
    next_after _ (by decide +kernel),
    (by decide +kernel)⟩

theorem witness_GetmacResult_init :
    exec (.init true true 32#8 keyOne nonce12 []) toyReset
      = .next (after (exec (.init true true 32#8 keyOne nonce12 []) toyReset)) ∧
    lastStatus (after (exec (.init true true 32#8 keyOne nonce12 []) toyReset)) = some .ok :=
  ⟨next_after _ (by decide +kernel), by decide +kernel⟩

theorem witness_ResetResult : Inv toyReset ∧ toyReset.st = .uninit := ⟨inv_toyReset, by decide +kernel⟩

theorem witness_OutszResult :
    Inv (streaming true) ∧
    exec (.final []) (streaming true) = .next (after (exec (.final []) (streaming true))) ∧
    lastStatus (after (exec (.final []) (streaming true))) = some .ok ∧
    ([] : Bytes).length = (0#32).toNat ∧
    Inv (streaming false) ∧
    exec (.final [0x6c#8]) (streaming false) = .next (after (exec (.final [0x6c#8]) (streaming false))) ∧
    lastStatus (after (exec (.final [0x6c#8]) (streaming false))) = some .ok ∧
    [0x6c#8].length = (1#32).toNat ∧
    Inv (armed false) ∧
    exec (.final (List.replicate 15 0#8)) (armed false) = .next (after (exec (.final (List.replicate 15 0#8)) (armed false))) ∧
    (armed false).dir = false ∧ (15#32).toNat + (armed false).bufPos.toNat < (armed false).macBytes.toNat :=
  ⟨inv_streaming true,
    next_after _ (by decide +kernel),
    (by decide +kernel),
    (by decide +kernel),
    inv_streaming false,
    next_after _ (by decide +kernel),
    (by decide +kernel),
    (by decide +kernel),
    inv_armed false,
    next_after _ (by decide +kernel),
    (by decide +kernel)⟩

theorem witness_UpdszResult :
    Inv (armed true) ∧
    exec (.proc (List.replicate 16 0#8)) (armed true) = .next (after (exec (.proc (List.replicate 16 0#8)) (armed true))) ∧
    lastStatus (after (exec (.proc (List.replicate 16 0#8)) (armed true))) = some .ok ∧
    (List.replicate 16 0#8).length = (16#32).toNat ∧
    Inv (streaming false) ∧
    exec (.proc (List.replicate 16 0#8)) (streaming false) = .next (after (exec (.proc (List.replicate 16 0#8)) (streaming false))) ∧
    lastStatus (after (exec (.proc (List.replicate 16 0#8)) (streaming false))) = some .ok :=
  ⟨inv_armed true,
    next_after _ (by decide +kernel),
    (by decide +kernel),
    (by decide +kernel),
    inv_streaming false,
    next_after _ (by decide +kernel),
    (by decide +kernel)⟩

theorem witness_CommandFrames :
    exec (.init true true 128#8 keyOne nonce12 aad3) (toyReset) = .next (after (exec (.init true true 128#8 keyOne nonce12 aad3) (toyReset))) ∧
    lastStatus (after (exec (.init true true 128#8 keyOne nonce12 aad3) (toyReset))) = some .ok ∧
    exec (.aad (beBytes 18 0x00112233445566778899aabbccddeeff0011)) (armed true) = .next (after (exec (.aad (beBytes 18 0x00112233445566778899aabbccddeeff0011)) (armed true))) ∧
    lastStatus (after (exec (.aad (beBytes 18 0x00112233445566778899aabbccddeeff0011)) (armed true))) = some .ok ∧
    exec (.proc (beBytes 18 0x00112233445566778899aabbccddeeff0011)) (armed true) = .next (after (exec (.proc (beBytes 18 0x00112233445566778899aabbccddeeff0011)) (armed true))) ∧
    lastStatus (after (exec (.proc (beBytes 18 0x00112233445566778899aabbccddeeff0011)) (armed true))) = some .ok ∧
    exec (.final [0x6c#8]) (streaming false) = .next (after (exec (.final [0x6c#8]) (streaming false))) ∧
    lastStatus (after (exec (.final [0x6c#8]) (streaming false))) = some .ok ∧
    exec (.getmac) (finished true) = .next (after (exec (.getmac) (finished true))) ∧
    lastStatus (after (exec (.getmac) (finished true))) = some .ok ∧
    exec (.reset) (finished true) = .next (after (exec (.reset) (finished true))) ∧
    lastStatus (after (exec (.reset) (finished true))) = some .ok ∧
    exec (.outsz 0#32) (armed true) = .next (after (exec (.outsz 0#32) (armed true))) ∧
    lastStatus (after (exec (.outsz 0#32) (armed true))) = some .ok ∧
    exec (.updsz 0#32) (armed true) = .next (after (exec (.updsz 0#32) (armed true))) ∧
    lastStatus (after (exec (.updsz 0#32) (armed true))) = some .ok :=
  ⟨next_after _ (by decide +kernel),
    (by decide +kernel),
    next_after _ (by decide +kernel),
    (by decide +kernel),
    next_after _ (by decide +kernel),
    (by decide +kernel),
    next_after _ (by decide +kernel),
    (by decide +kernel),
    next_after _ (by decide +kernel),
    (by decide +kernel),
    next_after _ (by decide +kernel),
    (by decide +kernel),
    next_after _ (by decide +kernel),
    (by decide +kernel),
    next_after _ (by decide +kernel),
    (by decide +kernel)⟩

theorem witness_CipherPortTrace :
    Inv (toyReset) ∧
    exec (.init true true 128#8 keyOne nonce12 []) (toyReset) = .next (after (exec (.init true true 128#8 keyOne nonce12 []) (toyReset))) ∧
    lastStatus (after (exec (.init true true 128#8 keyOne nonce12 []) (toyReset))) = some .ok ∧
    ChangesKey true keyOne toyReset ∧
    Inv (finished true) ∧
    exec (.init false false 128#8 [] nonce12 []) (finished true) = .next (after (exec (.init false false 128#8 [] nonce12 []) (finished true))) ∧
    lastStatus (after (exec (.init false false 128#8 [] nonce12 []) (finished true))) = some .ok ∧
    ¬ChangesKey false [] (finished true) ∧
    Inv (streaming false) ∧
    exec (.final [0x6d#8]) (streaming false) = .next (after (exec (.final [0x6d#8]) (streaming false))) ∧
    lastStatus (after (exec (.final [0x6d#8]) (streaming false))) = some .authenticationFailed ∧
    (streaming false).macBytes.toNat ≤ (streaming false).bufPos.toNat + 1 ∧
    Inv (armed false) ∧
    exec (.final (List.replicate 15 0#8)) (armed false) = .next (after (exec (.final (List.replicate 15 0#8)) (armed false))) ∧
    lastStatus (after (exec (.final (List.replicate 15 0#8)) (armed false))) = some .authenticationFailed ∧
    (armed false).bufPos.toNat + 15 < (armed false).macBytes.toNat ∧
    Inv (toyReset) ∧
    exec (.proc []) (toyReset) = .next (after (exec (.proc []) (toyReset))) ∧
    lastStatus (after (exec (.proc []) (toyReset))) ≠ some .ok :=
  ⟨inv_toyReset,
    next_after _ (by decide +kernel),
    (by decide +kernel),
    (by decide +kernel),
    inv_finished true,
    next_after _ (by decide +kernel),
    (by decide +kernel),
    (by decide +kernel),
    inv_streaming false,
    next_after _ (by decide +kernel),
    (by decide +kernel),
    (by decide +kernel),
    inv_armed false,
    next_after _ (by decide +kernel),
    (by decide +kernel),
    (by decide +kernel),
    inv_toyReset,
    next_after _ (by decide +kernel),
    (by decide +kernel)⟩

/-- The other clauses on PROC and FINAL: each status they can answer. -/
theorem witness_CipherPortTrace_statuses :
    Inv (armed true) ∧ (answer (exec (.proc []) (armed true))).1 = some .ok ∧
    Inv (streaming true) ∧ (answer (exec (.final []) (streaming true))).1 = some .ok ∧
    Inv toyReset ∧ (answer (exec (.final []) toyReset)).1 = some .invalidState ∧
    Inv (nearCeiling true) ∧ (answer (exec (.final (List.replicate 14 0#8)) (nearCeiling true))).1 = some .inputTooLarge :=
  ⟨inv_armed true, by decide +kernel, inv_streaming true, by decide +kernel, inv_toyReset, by decide +kernel,
    inv_nearCeiling true, by decide +kernel⟩

/-- RESET's rows of the table, one for each state before it. -/
theorem witness_StateMachineTable_reset :
    (answer (exec .reset toyReset)).1 = some .ok ∧ toyReset.st = .uninit ∧
    (answer (exec .reset (armed true))).1 = some .ok ∧ (armed true).st = .ready ∧
    (answer (exec .reset (streaming false))).1 = some .ok ∧ (streaming false).st = .stream ∧
    (answer (exec .reset (finished false))).1 = some .ok ∧ (finished false).st = .done ∧
    (answer (exec .reset (failedState true))).1 = some .ok ∧ (failedState true).st = .failed := by decide +kernel

theorem witness_CipherPortTrace_keystream :
    Inv (armed true) ∧ inSession (armed true) ∧ 2 ^ 32 - 2 ≤ (armed true).blocksRem.toNat ∧ Inv (streaming true) ∧
    inSession (streaming true) ∧ 2 ^ 32 - 3 ≤ (streaming true).blocksRem.toNat :=
  ⟨inv_armed true, by decide +kernel, by decide +kernel, inv_streaming true, by decide +kernel, by decide +kernel⟩

theorem witness_MultiplierRealisationsAgree :
    Inv (armed true) ∧
    exec (.proc (List.replicate 16 0#8)) (armed true) = .next (after (exec (.proc (List.replicate 16 0#8)) (armed true))) ∧
    lastStatus (after (exec (.proc (List.replicate 16 0#8)) (armed true))) = some .ok :=
  ⟨inv_armed true,
    next_after _ (by decide +kernel),
    (by decide +kernel)⟩

theorem witness_PowerLaws : 1 ≤ 1 := by decide

theorem witness_GhashPartialRule :
    Inv (armed true) ∧ (1 ≤ 15 ∧ 15 ≤ 15 ∧ 15 ≤ (List.replicate 15 0xff#8 : Bytes).length) ∧
    (1 ≤ 1 ∧ 1 ≤ 15 ∧ 1 ≤ ([0x80#8] : Bytes).length) :=
  ⟨inv_armed true, by decide, by decide⟩

theorem witness_KeystreamBlock :
    (armed true).blocksRem ≠ 0#32 ∧ ({ armed true with blocksRem := 1#32 } : State).blocksRem ≠ 0#32 := by decide +kernel

theorem witness_BudgetNeverRunsOut :
    ({ armed true with blocksRem := 0#32 } : State).blocksRem = 0#32 ∧ Inv (armed true) ∧ inSession (armed true) ∧
    isNext (exec (.proc []) (armed true)) = true ∧ isNext (exec (.final []) (armed true)) = true ∧ 0 < 2 ^ 32 - 1 ∧
    2 ^ 32 - 1 < 2 ^ 32 :=
  ⟨by decide +kernel, inv_armed true, by decide +kernel, by decide +kernel, by decide +kernel, by decide, by decide⟩

theorem witness_DeriveJ0Rule : Inv (armed true) ∧ nonce12.length = 12 ∧ ([0x01#8] : Bytes).length ≠ 12 :=
  ⟨inv_armed true, by decide +kernel, by decide⟩

theorem witness_SnapshotRule :
    Inv (armed true) ∧
    exec (.proc []) (armed true) = .next (after (exec (.proc []) (armed true))) ∧
    lastStatus (after (exec (.proc []) (armed true))) = some .ok ∧
    ((armed true).st = .ready ∧ lastData (after (exec (.proc []) (armed true))) = []) ∧
    Inv (armed true) ∧
    exec (.proc (List.replicate 16 0#8)) (armed true) = .next (after (exec (.proc (List.replicate 16 0#8)) (armed true))) ∧
    lastStatus (after (exec (.proc (List.replicate 16 0#8)) (armed true))) = some .ok ∧
    lastData (after (exec (.proc (List.replicate 16 0#8)) (armed true))) ≠ [] ∧
    Inv (streaming true) ∧
    exec (.proc (List.replicate 16 0#8)) (streaming true) = .next (after (exec (.proc (List.replicate 16 0#8)) (streaming true))) ∧
    lastStatus (after (exec (.proc (List.replicate 16 0#8)) (streaming true))) = some .ok ∧
    (streaming true).st = .stream :=
  ⟨inv_armed true,
    next_after _ (by decide +kernel),
    (by decide +kernel),
    (by decide +kernel),
    inv_armed true,
    next_after _ (by decide +kernel),
    (by decide +kernel),
    (by decide +kernel),
    inv_streaming true,
    next_after _ (by decide +kernel),
    (by decide +kernel),
    (by decide +kernel)⟩

theorem witness_ChunkingInvariance_proc :
    Inv (armed true) ∧
    isNext (exec (.proc [0x01#8]) (armed true)) = true ∧ lastStatus (after (exec (.proc [0x01#8]) (armed true))) = some .ok ∧
    isNext (exec (.proc (List.replicate 16 0#8)) (after (exec (.proc [0x01#8]) (armed true)))) = true ∧ lastStatus (after (exec (.proc (List.replicate 16 0#8)) (after (exec (.proc [0x01#8]) (armed true))))) = some .ok :=
  ⟨inv_armed true, (by decide +kernel), (by decide +kernel)⟩

theorem witness_ChunkingInvariance_final :
    Inv (armed true) ∧
    isNext (exec (.proc [0x01#8]) (armed true)) = true ∧ lastStatus (after (exec (.proc [0x01#8]) (armed true))) = some .ok ∧
    isNext (exec (.final []) (after (exec (.proc [0x01#8]) (armed true)))) = true ∧ lastStatus (after (exec (.final []) (after (exec (.proc [0x01#8]) (armed true))))) = some .ok :=
  ⟨inv_armed true, (by decide +kernel), (by decide +kernel)⟩

theorem witness_ChunkingInvariance_aad :
    Inv (armed true) ∧
    isNext (exec (.aad [0x01#8]) (armed true)) = true ∧ lastStatus (after (exec (.aad [0x01#8]) (armed true))) = some .ok ∧
    isNext (exec (.aad (List.replicate 16 0#8)) (after (exec (.aad [0x01#8]) (armed true)))) = true ∧ lastStatus (after (exec (.aad (List.replicate 16 0#8)) (after (exec (.aad [0x01#8]) (armed true))))) = some .ok :=
  ⟨inv_armed true, (by decide +kernel), (by decide +kernel)⟩

theorem witness_LateAadCommutes :
    Inv (armed true) ∧
    isNext (exec (.proc (List.replicate 16 0#8)) (armed true)) = true ∧ lastStatus (after (exec (.proc (List.replicate 16 0#8)) (armed true))) = some .ok ∧
    isNext (exec (.aad [0x01#8]) (after (exec (.proc (List.replicate 16 0#8)) (armed true)))) = true ∧ lastStatus (after (exec (.aad [0x01#8]) (after (exec (.proc (List.replicate 16 0#8)) (armed true))))) = some .ok ∧
    isNext (exec (.final []) (after (exec (.aad [0x01#8]) (after (exec (.proc (List.replicate 16 0#8)) (armed true)))))) = true ∧ lastStatus (after (exec (.final []) (after (exec (.aad [0x01#8]) (after (exec (.proc (List.replicate 16 0#8)) (armed true))))))) = some .ok :=
  ⟨inv_armed true, (by decide +kernel), (by decide +kernel), (by decide +kernel)⟩

theorem witness_EncryptionSessionIsGcm :
    Inv toyReset ∧ (∀ i ∈ [Instr.aad aad3], isStreaming i = true) ∧
    (runOk (.init true true 128#8 keyOne nonce12 [] :: ([.aad aad3] ++ [.final [0x01#8]])) toyReset).isSome = true :=
  ⟨inv_toyReset, by decide +kernel, by decide +kernel⟩

theorem witness_DecryptionSessionIsGcm :
    Inv toyReset ∧ (∀ i ∈ [Instr.proc [0x01#8]], isStreaming i = true) ∧
    (runOk (.init false true 128#8 keyOne nonce12 aad3 :: [.proc [0x01#8]]) toyReset).isSome = true ∧
    (aad3 ++ [Instr.proc [0x01#8]].flatMap aadOf).length + (([Instr.proc [0x01#8]].flatMap payloadOf ++ []).length - 16)
      ≤ 2 ^ 36 - 32 :=
  ⟨inv_toyReset, by decide +kernel, by decide +kernel, by decide +kernel⟩

theorem witness_SessionsRun :
    Inv toyReset ∧ InitParametersLegal true 128#8 nonce12 toyReset ∧ ¬RepeatsPair true true keyOne nonce12 toyReset ∧
    toyReset.params.lateAad = true ∧ (∀ i ∈ [Instr.proc [0x01#8]], isStreaming i = true) ∧
    (aad3 ++ [Instr.proc [0x01#8]].flatMap aadOf).length + (([Instr.proc [0x01#8]].flatMap payloadOf ++ []).length - 0)
      ≤ 2 ^ 36 - 32 :=
  ⟨inv_toyReset, ⟨by decide +kernel, by decide +kernel, by decide +kernel, by decide +kernel⟩, by decide +kernel,
    by decide +kernel, by decide +kernel, by decide +kernel⟩

theorem witness_OpenAfterSeal :
    Inv toyReset ∧
    (runOk (.init true true 128#8 keyOne nonce12 aad3 :: ([] ++ [.final [0x01#8]])) toyReset).isSome = true ∧
    (runOk (.init false true 128#8 keyOne nonce12 aad3 :: []) toyReset).isSome = true :=
  ⟨inv_toyReset, by decide +kernel, by decide +kernel⟩

theorem witness_CoresAreIndependent :
    (runCores [0, 1, 0] [{ armed true with chan := encode .getmac }, { armed false with chan := encode .reset }]).isSome
      = true := by decide +kernel

theorem witness_SnapshotHashesSessionAad :
    Inv { streaming true with chan := encode (.aad [0x01#8]) } ∧
    HoldsAad aad3 { streaming true with chan := encode (.aad [0x01#8]) } ∧
    isNext (step { streaming true with chan := encode (.aad [0x01#8]) }) = true :=
  ⟨inv_of_facts (by decide +kernel) (by decide +kernel) (by decide +kernel) (by decide +kernel) (by decide +kernel),
    ⟨by decide +kernel, by decide +kernel, by decide +kernel, fun _ => by decide +kernel⟩, by decide +kernel⟩

theorem witness_SessionHashesItsAad :
    Inv toyReset ∧ (∀ i ∈ [Instr.proc (List.replicate 16 0#8), .aad aad3], isStreaming i = true) ∧
    (runOk (.init true true 128#8 keyOne nonce12 aad3 :: [.proc (List.replicate 16 0#8), .aad aad3]) toyReset).isSome = true :=
  ⟨inv_toyReset, by decide +kernel, by decide +kernel⟩

end Sys2Proof.Tests
end

/-! PROOFS. The parameters of the build (00_scope.md R4): no operation of the core writes them. -/

namespace Sys2Proof.Machine

/-! The operations that several commands share. -/

/-- The payload path and the tag work for the same build. -/
theorem PathFrame.params_eq {s t : State} (h : PathFrame s t) : t.params = s.params := by
  unfold PathFrame at h
  rw [h]

theorem absorb_params (d : Bytes) (s : State) : (workState (absorb d s)).params = s.params :=
  (absorb_frame d s).params_eq

theorem finalWork_params (d : Bytes) (s : State) : (workState (finalWork d s)).params = s.params :=
  (finalWork_frame d s).params_eq

@[simp] theorem aadIngestByte_params (s : State) (b : Byte) : (aadIngestByte s b).params = s.params := by
  unfold aadIngestByte
  dsimp only
  split
  · exact setAad_params ..
  · exact setAad_params ..

@[simp] theorem aadIngest_params (data : Bytes) (s : State) : (aadIngest data s).params = s.params := by
  induction data generalizing s with
  | nil => rfl
  | cons b rest ih => exact (ih (aadIngestByte s b)).trans (aadIngestByte_params s b)

@[simp] theorem resetSession_params (s : State) : (resetSession s).params = s.params := by
  by_cases h : s.cfgv = true ∧ s.dir = false
  · obtain ⟨hcfgv, hdir⟩ := h
    rw [resetSession_rearm s hcfgv hdir, clearSession_params]
  · rw [resetSession_end s h, clearSession_params]

/-- R130: hardware reset takes the reset values of the same build. -/
@[simp] theorem hardwareReset_params (s : State) : (hardwareReset s).params = s.params := rfl

/-! The steps of INIT (43_engine_commands.md R90). -/

@[simp] theorem loadNewKey_params (key : Bytes) (s : State) : (loadNewKey key s).params = s.params := by
  rw [loadNewKey, multInit_params, portEnc_params, portLoad_params]

@[simp] theorem initKey_params (keyv : Bool) (key : Bytes) (s : State) : (initKey keyv key s).params = s.params := by
  unfold initKey
  split
  · exact loadNewKey_params key s
  · rfl

@[simp] theorem initConfigure_params (dir : Bool) (macbits : BitVec 8) (nonce : Bytes) (s : State) :
    (initConfigure dir macbits nonce s).params = s.params := by
  rw [initConfigure, clearSession_params]

@[simp] theorem initRemember_params (dir : Bool) (nonce : Bytes) (s : State) :
    (initRemember dir nonce s).params = s.params := by
  unfold initRemember
  split <;> rfl

@[simp] theorem initCommit_params (dir keyv : Bool) (macbits : BitVec 8) (key nonce aad : Bytes) (s : State) :
    (initCommit dir keyv macbits key nonce aad s).params = s.params := by
  simp only [initCommit, aadIngest_params, initRemember_params, initConfigure_params, initKey_params]

/-! The commands that can fail: on either outcome the parameters are those of before. -/

theorem execInit_params {dir keyv : Bool} {macbits : BitVec 8} {key nonce aad : Bytes} {s t : State}
    (h : execInit dir keyv macbits key nonce aad s = .next t) : t.params = s.params := by
  unfold execInit at h
  split at h
  · cases h; exact fail_params ..
  · cases h; rw [respond_params, initCommit_params]

theorem execAad_params {data : Bytes} {s t : State} (h : execAad data s = .next t) : t.params = s.params := by
  unfold execAad at h
  split at h
  · cases h; exact fail_params ..
  · cases h; rw [respond_params, aadIngest_params]

theorem execProc_params {data : Bytes} {s t : State} (h : execProc data s = .next t) : t.params = s.params := by
  have hwork := absorb_params data s
  unfold execProc at h
  split at h
  · cases h; exact fail_params ..
  · cases hw : absorb data s with
    | fails s' code => rw [hw] at h hwork; cases h; exact hwork
    | done s' out => rw [hw] at h hwork; cases h; exact hwork

theorem execFinal_params {data : Bytes} {s t : State} (h : execFinal data s = .next t) : t.params = s.params := by
  have hwork := finalWork_params data s
  unfold execFinal at h
  split at h
  · cases h; exact fail_params ..
  · cases hw : finalWork data s with
    | fails s' code => rw [hw] at h hwork; cases h; exact hwork
    | done s' r => rw [hw] at h hwork; cases h; exact hwork

/-! Every command, and every step. -/

/-- R4, for a command: GETMAC, OUTSZ and UPDSZ only answer; the others are the lemmas above. -/
theorem exec_params {i : Instr} {s t : State} (h : exec i s = .next t) : t.params = s.params := by
  cases i with
  | init dir keyv macbits key nonce aad => exact execInit_params h
  | aad data => exact execAad_params h
  | proc data => exact execProc_params h
  | final data => exact execFinal_params h
  | getmac => cases h; exact respond_params ..
  | reset => cases h; rw [respond_params, resetSession_params]
  | outsz len => cases h; exact respond_params ..
  | updsz len => cases h; exact respond_params ..

/-- Taking a command off the channel changes the channel only, before the command itself runs. -/
theorem runFetched_params {f : Fetched} {s t : State} (h : runFetched f s = .next t) : t.params = s.params := by
  cases f with
  | empty => cases h; rfl
  | shortDescriptor => cases h
  | shortData i => cases h
  | illegal reason rest => cases h; exact fail_params ..
  | command i rest =>
    have hrun : t.params = ({ s with chan := rest } : State).params := exec_params h
    exact hrun

/-- R4, for a step: a hardware reset, or what was fetched. -/
theorem step_params {s t : State} (h : step s = .next t) : t.params = s.params := by
  unfold step runNext at h
  split at h
  · cases h; exact hardwareReset_params s
  · exact runFetched_params h

/-- Settles O15: it holds in every state, with no invariant needed. -/
theorem buildParametersFixed : Obligations.BuildParametersFixed :=
  ⟨fun _ _ h => step_params h, fun _ _ _ h => exec_params h⟩

end Sys2Proof.Machine

/-! PROOFS. The multiplier (40_multiplier.md R63 to R67): with the tables of the subkey in force, every realisation
computes the product with `H`. -/

namespace Sys2Proof.Machine

/-! Multiplication by a power of `x` is linear. -/

theorem mulX_xor (a b : Block) : mulX (a ^^^ b) = mulX a ^^^ mulX b := by
  have hbit : (a ^^^ b).getLsbD 0 = ((a.getLsbD 0) ^^ (b.getLsbD 0)) := BitVec.getLsbD_xor
  unfold mulX
  rw [hbit, BitVec.ushiftRight_xor_distrib]
  generalize a >>> 1 = u; generalize b >>> 1 = v
  cases a.getLsbD 0 with
  | false =>
    cases b.getLsbD 0 with
    | false => rfl
    | true => exact BitVec.xor_assoc u v reductionBlock
  | true =>
    cases b.getLsbD 0 with
    | false => show u ^^^ v ^^^ reductionBlock = u ^^^ reductionBlock ^^^ v; ac_rfl
    | true =>
      have hcancel : (u ^^^ reductionBlock) ^^^ (v ^^^ reductionBlock)
          = u ^^^ v ^^^ (reductionBlock ^^^ reductionBlock) := by ac_rfl
      show u ^^^ v = (u ^^^ reductionBlock) ^^^ (v ^^^ reductionBlock)
      rw [hcancel, BitVec.xor_self, BitVec.xor_zero]

@[simp] theorem mulX_zero : mulX 0#128 = 0#128 := by decide

theorem mulXn_xor (n : Nat) (a b : Block) : mulXn n (a ^^^ b) = mulXn n a ^^^ mulXn n b := by
  induction n generalizing a b with
  | zero => rfl
  | succ n ih => rw [mulXn, mulX_xor, ih]; rfl

@[simp] theorem mulXn_zero (n : Nat) : mulXn n 0#128 = 0#128 := by
  induction n with
  | zero => rfl
  | succ n ih => rw [mulXn, mulX_zero, ih]

theorem mulXn_mulX (n : Nat) (v : Block) : mulXn n (mulX v) = mulX (mulXn n v) := by
  induction n generalizing v with
  | zero => rfl
  | succ n ih => rw [mulXn, ih, mulXn]

/-! The part of a product that some of the bits of the multiplier give. -/

/-- The sum of `v * x^k` over the set bits `i + k` of `x`, `k < n`: the product of `v` with bits `i` to `i + n - 1` of `x`,
in Horner's form. -/
def bitProduct (x v : Block) : Nat → Nat → Block
  | _, 0 => 0#128
  | i, n + 1 => (if gcmBit x i then v else 0#128) ^^^ mulX (bitProduct x v (i + 1) n)

theorem bitProduct_mulX (x v : Block) (i n : Nat) : bitProduct x (mulX v) i n = mulX (bitProduct x v i n) := by
  induction n generalizing i with
  | zero => exact mulX_zero.symm
  | succ n ih =>
    rw [bitProduct, ih, bitProduct, mulX_xor]
    split
    · rfl
    · rw [mulX_zero]

/-- The bits of two neighbouring ranges, by Horner's rule. -/
theorem bitProduct_add (x v : Block) (i m n : Nat) :
    bitProduct x v i (m + n) = bitProduct x v i m ^^^ mulXn m (bitProduct x v (i + m) n) := by
  induction m generalizing i with
  | zero => simp [bitProduct, mulXn]
  | succ m ih =>
    rw [Nat.add_right_comm m 1 n, bitProduct, ih, bitProduct, mulX_xor, BitVec.xor_assoc, mulXn, mulXn_mulX,
      Nat.add_right_comm i 1 m, Nat.add_assoc i m 1]

/-- R63: the loop adds the product of the bits not yet looked at. -/
theorem gfMulLoop_eq (x z v : Block) (n : Nat) (hn : n ≤ 128) :
    gfMulLoop x n z v = z ^^^ bitProduct x v (128 - n) n := by
  induction n generalizing z v with
  | zero => simp [gfMulLoop, bitProduct]
  | succ n ih =>
    have hfirst : 128 - (n + 1) = 127 - n := by omega
    have hnext : 127 - n + 1 = 128 - n := by omega
    rw [gfMulLoop, ih _ _ (by omega), hfirst, bitProduct, hnext, bitProduct_mulX, ← BitVec.xor_assoc]
    split
    · rfl
    · rw [BitVec.xor_zero]

theorem gfMul_eq_bitProduct (x v : Block) : gfMul x v = bitProduct x v 0 128 := by
  rw [gfMul, gfMulLoop_eq _ _ _ _ le_rfl, BitVec.zero_xor]

/-! A table entry is the product with the bits of its index (R66, R67). -/

theorem xorSelected_range' (x v : Block) (i a w : Nat) (f : Nat → Bool)
    (hf : ∀ k, k < a + w → f k = gcmBit x (i + k)) :
    xorSelected ((List.range' a w).map fun k => (f k, mulXn k v)) = mulXn a (bitProduct x v (i + a) w) := by
  induction w generalizing a with
  | zero => exact (mulXn_zero a).symm
  | succ w ih =>
    rw [List.range'_succ, List.map_cons, xorSelected, ih (a + 1) (fun k hk => hf k (by omega)), hf a (by omega),
      bitProduct, mulXn_xor, mulXn, Nat.add_assoc]
    split
    · rfl
    · rw [mulXn_zero]

/-- R66, R67: the table entry for the `w` bits of `x` from bit `i` on, read as a number. -/
theorem xorSelected_bits (x v : Block) (i w : Nat) (h : i + w ≤ 128) :
    xorSelected ((List.range w).map fun k =>
        (((x >>> (128 - w - i)).toNat % 2 ^ w).testBit (w - 1 - k), mulXn k v))
      = bitProduct x v i w := by
  have hbit : ∀ k, k < 0 + w →
      ((x >>> (128 - w - i)).toNat % 2 ^ w).testBit (w - 1 - k) = gcmBit x (i + k) := by
    intro k hk
    have hpos : 128 - w - i + (w - 1 - k) = 127 - (i + k) := by omega
    have hlt : w - 1 - k < w := by omega
    rw [Nat.testBit_mod_two_pow, decide_eq_true hlt, Bool.true_and, BitVec.testBit_toNat, BitVec.getLsbD_ushiftRight,
      hpos]
    rfl
  rw [List.range_eq_range', xorSelected_range' x v i 0 w _ hbit]
  rfl

/-- Horner's rule over the pieces of `w` bits of the multiplier. -/
theorem foldr_pieces (x v : Block) (w : Nat) (piece : Nat → Block) (j r : Nat)
    (hp : ∀ k, k < j + r → piece k = bitProduct x v (w * k) w) :
    (List.range' j r).foldr (fun k z => mulXn w z ^^^ piece k) 0#128 = bitProduct x v (w * j) (w * r) := by
  induction r generalizing j with
  | zero => rfl
  | succ r ih =>
    have hlen : w * (r + 1) = w + w * r := by ring
    rw [List.range'_succ, List.foldr_cons, ih (j + 1) (fun k hk => hp k (by omega)), hp j (by omega), hlen,
      bitProduct_add, BitVec.xor_comm, Nat.mul_succ]

theorem getD_map_range {α : Type} (f : Nat → α) (d : α) (n k : Nat) (h : k < n) :
    ((List.range n).map f).getD k d = f k := by
  simp [List.getD_eq_getElem?_getD, h]

/-- R66: the table of four bits. -/
theorem mulHTable4_eq (h x : Block) : mulHTable4 (tables4 h) x = gfMul x h := by
  have hpiece : ∀ j, j < 0 + 32 →
      (tables4 h).getD ((x >>> (124 - 4 * j)).toNat % 16) 0#128 = bitProduct x h (4 * j) 4 := by
    intro j hj
    rw [tables4, getD_map_range _ _ _ _ (by omega)]
    exact xorSelected_bits x h (4 * j) 4 (by omega)
  rw [mulHTable4, List.range_eq_range', foldr_pieces x h 4 _ 0 32 hpiece, gfMul_eq_bitProduct]

/-- R67: the table of eight bits. -/
theorem mulHTable8_eq (h x : Block) : mulHTable8 (tables8 h) x = gfMul x h := by
  have hpiece : ∀ j, j < 0 + 16 →
      (tables8 h).getD ((x >>> (120 - 8 * j)).toNat % 256) 0#128 = bitProduct x h (8 * j) 8 := by
    intro j hj
    rw [tables8, getD_map_range _ _ _ _ (by omega)]
    exact xorSelected_bits x h (8 * j) 8 (by omega)
  rw [mulHTable8, List.range_eq_range', foldr_pieces x h 8 _ 0 16 hpiece, gfMul_eq_bitProduct]

/-- R64, R65: `mulH` is the product with the subkey, whichever way the block was built. -/
theorem mulH_eq_gfMul {s : State} (hM : s.M = tablesFor s.params.multImpl s.H) : mulH s = fun x => gfMul x s.H := by
  funext x
  rw [mulH, hM]
  cases s.params.multImpl with
  | bitwise => rfl
  | table4 => exact mulHTable4_eq s.H x
  | table8 => exact mulHTable8_eq s.H x

/-- R66, R67: every multiple of zero is zero. -/
theorem xorSelected_zeros (l : List (Bool × Block)) (h : ∀ e ∈ l, e.2 = 0#128) : xorSelected l = 0#128 := by
  induction l with
  | nil => rfl
  | cons e l ih =>
    rw [xorSelected, h e List.mem_cons_self, ih fun e' he' => h e' (List.mem_cons_of_mem _ he'), ite_self,
      BitVec.xor_zero]

theorem table4Entry_zero (n : Nat) : table4Entry 0#128 n = 0#128 :=
  xorSelected_zeros _ (by simp)

theorem table8Entry_zero (n : Nat) : table8Entry 0#128 n = 0#128 :=
  xorSelected_zeros _ (by simp)

/-- R29: the tables at reset are those of the zero subkey. -/
theorem zeroTables_eq (impl : MultImpl) : zeroTables impl = tablesFor impl 0#128 := by
  cases impl with
  | bitwise => rfl
  | table4 => rw [zeroTables, tablesFor, tables4, funext table4Entry_zero, List.map_const', List.length_range]
  | table8 => rw [zeroTables, tablesFor, tables8, funext table8Entry_zero, List.map_const', List.length_range]

end Sys2Proof.Machine

/-! PROOFS. The commands one by one (43_engine_commands.md R90 to R97), in every state: when their checks pass, with which
outcomes they end, and which registers they leave alone. -/

namespace Sys2Proof.Machine

/-! The checks as conditions (R90, R91 to R93, R113). -/

theorem streamLegal_iff (s : State) : streamLegal s = true ↔ inSession s := by
  unfold streamLegal inSession
  cases s.st <;> simp

theorem aadLegal_iff (s : State) : aadLegal s = true ↔ takesAad s := by
  unfold aadLegal takesAad
  cases s.st <;> simp

theorem aadTooLarge_eq_false_iff (n : Nat) (s : State) : aadTooLarge n s = false ↔ aadFits s n := by
  rw [aadTooLarge, decide_eq_false_iff_not, Nat.not_lt, Config.ceil]

theorem payTooLarge_eq_false_iff (n : Nat) (s : State) : payTooLarge n s = false ↔ payFits s n := by
  rw [payTooLarge, decide_eq_false_iff_not, Nat.not_lt, Config.ceil]

theorem keyChanged_iff (keyv : Bool) (key : Bytes) (s : State) :
    keyChanged keyv key s = true ↔ ChangesKey keyv key s := by
  simp [keyChanged, ChangesKey]

theorem nonceReused_iff (dir keyv : Bool) (key nonce : Bytes) (s : State) :
    nonceReused dir keyv key nonce s = true ↔ RepeatsPair dir keyv key nonce s := by
  simp [nonceReused, RepeatsPair, effKey, and_assoc]

theorem aadFailure_eq_none_iff (data : Bytes) (s : State) :
    aadFailure data s = none ↔ takesAad s ∧ aadFits s data.length := by
  rw [← aadLegal_iff, ← aadTooLarge_eq_false_iff, aadFailure]
  cases aadLegal s <;> cases aadTooLarge data.length s <;> simp

theorem payFailure_eq_none_iff (data : Bytes) (s : State) :
    payFailure data s = none ↔ inSession s ∧ payFits s data.length := by
  rw [← streamLegal_iff, ← payTooLarge_eq_false_iff, payFailure]
  cases streamLegal s <;> cases payTooLarge data.length s <;> simp

/-- R90: INIT's first four checks pass when its parameters are legal; what is left is the repeated pair and the ceiling. -/
theorem initFailure_of_legal {dir keyv : Bool} {macbits : BitVec 8} {key nonce aad : Bytes} {s : State}
    (h : InitParametersLegal keyv macbits nonce s) :
    initFailure dir keyv macbits key nonce aad s =
      if RepeatsPair dir keyv key nonce s then some .nonceReuse
      else if Config.ceil < aad.length then some .inputTooLarge else none := by
  obtain ⟨hcbs, hmac, hnonce, hkey⟩ := h
  have hmac' : macBitsLegal macbits = true := decide_eq_true hmac
  have hnonce' : nonceLegal nonce s = true := decide_eq_true hnonce
  have hkey' : (!keyv && !s.kv) = false := by
    obtain hk | hk := hkey <;> simp [hk]
  simp only [initFailure, hcbs, hmac', hnonce', hkey', nonceReused_iff, ne_eq, not_true_eq_false, Bool.not_true,
    Bool.false_eq_true, if_false]

theorem initFailure_eq_none {dir keyv : Bool} {macbits : BitVec 8} {key nonce aad : Bytes} {s : State}
    (h : initFailure dir keyv macbits key nonce aad s = none) :
    InitParametersLegal keyv macbits nonce s ∧ ¬RepeatsPair dir keyv key nonce s ∧ aad.length ≤ 2 ^ 36 - 32 := by
  have hlegal : InitParametersLegal keyv macbits nonce s := by
    unfold initFailure at h
    split_ifs at h with hcbs hmac hnonce hkey
    exact ⟨not_not.mp hcbs, by simpa [macBitsLegal] using hmac,
      by simpa [nonceLegal, Nat.one_le_iff_ne_zero] using hnonce, by simpa [or_iff_not_imp_left] using hkey⟩
  rw [initFailure_of_legal hlegal] at h
  split_ifs at h with hpair hceil
  exact ⟨hlegal, hpair, not_lt.mp hceil⟩

/-! No check fails with the code OK (R110). -/

theorem initFailure_ne_ok {dir keyv : Bool} {macbits : BitVec 8} {key nonce aad : Bytes} {s : State} {code : Status}
    (h : initFailure dir keyv macbits key nonce aad s = some code) : code ≠ .ok := by
  unfold initFailure at h
  split_ifs at h <;> cases h <;> decide

theorem aadFailure_ne_ok {data : Bytes} {s : State} {code : Status} (h : aadFailure data s = some code) :
    code ≠ .ok := by
  unfold aadFailure at h
  split_ifs at h <;> cases h <;> decide

theorem payFailure_ne_ok {data : Bytes} {s : State} {code : Status} (h : payFailure data s = some code) :
    code ≠ .ok := by
  unfold payFailure at h
  split_ifs at h <;> cases h <;> decide

/-! The registers that a session uses up; the key, the configuration and the nonce-reuse memory are the others. -/

/-- Every register but those a session runs on keeps its value: the key with its subkey and tables, the configuration, the
nonce-reuse memory, and the channel, stay (R12 to R17, R80, R112). -/
def SessionFrame (s t : State) : Prop :=
  t = { s with
    st := t.st, err := t.err, ctr := t.ctr, blocksRem := t.blocksRem, S := t.S, S_at := t.S_at, S_atPre := t.S_atPre
    atBuf := t.atBuf, atPos := t.atPos, atLen := t.atLen, atLenPre := t.atLenPre, buf := t.buf, bufPos := t.bufPos
    payLen := t.payLen, macReg := t.macReg, resp := t.resp, port := t.port }

namespace SessionFrame

variable {s t u : State}

theorem refl (s : State) : SessionFrame s s := rfl

theorem trans (h : SessionFrame s t) (h' : SessionFrame t u) : SessionFrame s u := by
  unfold SessionFrame at *
  rw [h] at h'
  exact h'

theorem params_eq (h : SessionFrame s t) : t.params = s.params := by
  rw [SessionFrame] at h; rw [h]

theorem dir_eq (h : SessionFrame s t) : t.dir = s.dir := by
  rw [SessionFrame] at h; rw [h]

theorem macBytes_eq (h : SessionFrame s t) : t.macBytes = s.macBytes := by
  rw [SessionFrame] at h; rw [h]

theorem kv_eq (h : SessionFrame s t) : t.kv = s.kv := by
  rw [SessionFrame] at h; rw [h]

theorem key_eq (h : SessionFrame s t) : t.key = s.key := by
  rw [SessionFrame] at h; rw [h]

theorem H_eq (h : SessionFrame s t) : t.H = s.H := by
  rw [SessionFrame] at h; rw [h]

theorem M_eq (h : SessionFrame s t) : t.M = s.M := by
  rw [SessionFrame] at h; rw [h]

theorem lev_eq (h : SessionFrame s t) : t.lev = s.lev := by
  rw [SessionFrame] at h; rw [h]

theorem lastEncKey_eq (h : SessionFrame s t) : t.lastEncKey = s.lastEncKey := by
  rw [SessionFrame] at h; rw [h]

theorem lastEncNonce_eq (h : SessionFrame s t) : t.lastEncNonce = s.lastEncNonce := by
  rw [SessionFrame] at h; rw [h]

theorem cfgv_eq (h : SessionFrame s t) : t.cfgv = s.cfgv := by
  rw [SessionFrame] at h; rw [h]

theorem J0_eq (h : SessionFrame s t) : t.J0 = s.J0 := by
  rw [SessionFrame] at h; rw [h]

end SessionFrame

/-- The payload path is part of the session. -/
theorem PathFrame.sessionFrame {s t : State} (h : PathFrame s t) : SessionFrame s t := by
  unfold PathFrame at h
  rw [h]
  rfl

theorem respond_sessionFrame (code : Status) (d : Bytes) (s : State) : SessionFrame s (respond code d s) := rfl

/-- R112: a failure ends the session and touches nothing else. -/
theorem fail_sessionFrame (code : Status) (s : State) : SessionFrame s (fail code s) := rfl

/-- R93: so does the ending of FINAL. -/
theorem endSession_sessionFrame (tag : Bytes) (s : State) : SessionFrame s (endSession tag s) := rfl

theorem aadIngestByte_sessionFrame (s : State) (b : Byte) : SessionFrame s (aadIngestByte s b) := by
  unfold aadIngestByte
  dsimp only
  split <;> rfl

theorem aadIngest_sessionFrame (data : Bytes) (s : State) : SessionFrame s (aadIngest data s) := by
  induction data generalizing s with
  | nil => rfl
  | cons b rest ih => exact (aadIngestByte_sessionFrame s b).trans (ih (aadIngestByte s b))

/-! The outcomes of the commands that can fail. -/

theorem execInit_outcome {dir keyv : Bool} {macbits : BitVec 8} {key nonce aad : Bytes} {s t : State}
    (h : execInit dir keyv macbits key nonce aad s = .next t) :
    (∃ code, code ≠ .ok ∧ t = fail code s) ∨
    (initFailure dir keyv macbits key nonce aad s = none ∧
      t = respond .ok [] (initCommit dir keyv macbits key nonce aad s)) := by
  unfold execInit at h
  cases hf : initFailure dir keyv macbits key nonce aad s with
  | some code => rw [hf] at h; cases h; exact .inl ⟨code, initFailure_ne_ok hf, rfl⟩
  | none => rw [hf] at h; cases h; exact .inr ⟨rfl, rfl⟩

theorem execAad_outcome {data : Bytes} {s t : State} (h : execAad data s = .next t) :
    (∃ code, code ≠ .ok ∧ t = fail code s) ∨
    (takesAad s ∧ aadFits s data.length ∧ t = respond .ok [] (aadIngest data s)) := by
  unfold execAad at h
  cases hf : aadFailure data s with
  | some code => rw [hf] at h; cases h; exact .inl ⟨code, aadFailure_ne_ok hf, rfl⟩
  | none =>
    rw [hf] at h; cases h
    obtain ⟨hst, hfit⟩ := (aadFailure_eq_none_iff data s).mp hf
    exact .inr ⟨hst, hfit, rfl⟩

/-- PROC, once its checks have passed, answers what `absorb` comes to. -/
theorem execProc_outcome {data : Bytes} {s t : State} (h : execProc data s = .next t) :
    (∃ code, code ≠ .ok ∧ t = fail code s) ∨
    (inSession s ∧ payFits s data.length ∧
      ((∃ s' code, absorb data s = .fails s' code ∧ t = fail code s') ∨
        ∃ s' out, absorb data s = .done s' out ∧ t = respond .ok out s')) := by
  unfold execProc at h
  cases hf : payFailure data s with
  | some code => rw [hf] at h; cases h; exact .inl ⟨code, payFailure_ne_ok hf, rfl⟩
  | none =>
    obtain ⟨hst, hfit⟩ := (payFailure_eq_none_iff data s).mp hf
    rw [hf] at h
    refine .inr ⟨hst, hfit, ?_⟩
    cases hw : absorb data s with
    | fails s' code => rw [hw] at h; cases h; exact .inl ⟨s', code, rfl, rfl⟩
    | done s' out => rw [hw] at h; cases h; exact .inr ⟨s', out, rfl, rfl⟩

/-- FINAL, once its checks have passed, answers what its work comes to. -/
theorem execFinal_outcome {data : Bytes} {s t : State} (h : execFinal data s = .next t) :
    (∃ code, code ≠ .ok ∧ t = fail code s) ∨
    (inSession s ∧ payFits s data.length ∧
      ((∃ s' code, finalWork data s = .fails s' code ∧ t = fail code s') ∨
        ∃ s' r, finalWork data s = .done s' r ∧ t = respond .ok r.1 (endSession r.2 s'))) := by
  unfold execFinal at h
  cases hf : payFailure data s with
  | some code => rw [hf] at h; cases h; exact .inl ⟨code, payFailure_ne_ok hf, rfl⟩
  | none =>
    obtain ⟨hst, hfit⟩ := (payFailure_eq_none_iff data s).mp hf
    rw [hf] at h
    refine .inr ⟨hst, hfit, ?_⟩
    cases hw : finalWork data s with
    | fails s' code => rw [hw] at h; cases h; exact .inl ⟨s', code, rfl, rfl⟩
    | done s' r => rw [hw] at h; cases h; exact .inr ⟨s', r, rfl, rfl⟩

/-! The commands that stay within the session. -/

theorem execAad_sessionFrame {data : Bytes} {s t : State} (h : execAad data s = .next t) : SessionFrame s t := by
  obtain ⟨code, _, rfl⟩ | ⟨_, _, rfl⟩ := execAad_outcome h
  · exact fail_sessionFrame code s
  · exact (aadIngest_sessionFrame data s).trans (respond_sessionFrame ..)

theorem execProc_sessionFrame {data : Bytes} {s t : State} (h : execProc data s = .next t) : SessionFrame s t := by
  have hframe := (absorb_frame data s).sessionFrame
  obtain ⟨code, _, rfl⟩ | ⟨_, _, ⟨s', code, hw, rfl⟩ | ⟨s', out, hw, rfl⟩⟩ := execProc_outcome h
  · exact fail_sessionFrame code s
  · rw [hw] at hframe; exact hframe.trans (fail_sessionFrame code s')
  · rw [hw] at hframe; exact hframe.trans (respond_sessionFrame ..)

theorem execFinal_sessionFrame {data : Bytes} {s t : State} (h : execFinal data s = .next t) : SessionFrame s t := by
  have hframe := (finalWork_frame data s).sessionFrame
  obtain ⟨code, _, rfl⟩ | ⟨_, _, ⟨s', code, hw, rfl⟩ | ⟨s', r, hw, rfl⟩⟩ := execFinal_outcome h
  · exact fail_sessionFrame code s
  · rw [hw] at hframe; exact hframe.trans (fail_sessionFrame code s')
  · rw [hw] at hframe; exact (hframe.trans (endSession_sessionFrame r.2 s')).trans (respond_sessionFrame ..)

/-- Every command but INIT and RESET stays within the session, and so does a failing INIT. -/
theorem exec_sessionFrame {i : Instr} {s t : State} (h : exec i s = .next t) :
    SessionFrame s t ∨ (i = .reset ∧ t = respond .ok [] (resetSession s)) ∨
    ∃ dir keyv macbits key nonce aad, i = .init dir keyv macbits key nonce aad ∧
      initFailure dir keyv macbits key nonce aad s = none ∧
      t = respond .ok [] (initCommit dir keyv macbits key nonce aad s) := by
  cases i with
  | init dir keyv macbits key nonce aad =>
    obtain ⟨code, _, rfl⟩ | ⟨hpass, ht⟩ := execInit_outcome h
    · exact .inl (fail_sessionFrame code s)
    · exact .inr (.inr ⟨dir, keyv, macbits, key, nonce, aad, rfl, hpass, ht⟩)
  | aad data => exact .inl (execAad_sessionFrame h)
  | proc data => exact .inl (execProc_sessionFrame h)
  | final data => exact .inl (execFinal_sessionFrame h)
  | getmac => cases h; exact .inl (respond_sessionFrame ..)
  | reset => cases h; exact .inr (.inl ⟨rfl, rfl⟩)
  | outsz len => cases h; exact .inl (respond_sessionFrame ..)
  | updsz len => cases h; exact .inl (respond_sessionFrame ..)

/-! A successful INIT (R90). -/

/-- R90: the session armed by INIT, before it ingests its associated data. -/
def initArmed (dir keyv : Bool) (macbits : BitVec 8) (key nonce : Bytes) (s : State) : State :=
  { initRemember dir nonce { initConfigure dir macbits nonce (initKey keyv key s) with err := .ok } with st := .ready }

theorem initCommit_eq (dir keyv : Bool) (macbits : BitVec 8) (key nonce aad : Bytes) (s : State) :
    initCommit dir keyv macbits key nonce aad s = aadIngest aad (initArmed dir keyv macbits key nonce s) := rfl

/-- Ingesting the associated data and answering leave what INIT wrote outside the session. -/
theorem initCommit_sessionFrame (dir keyv : Bool) (macbits : BitVec 8) (key nonce aad : Bytes) (s : State) :
    SessionFrame (initArmed dir keyv macbits key nonce s)
      (respond .ok [] (initCommit dir keyv macbits key nonce aad s)) :=
  (aadIngest_sessionFrame aad _).trans (respond_sessionFrame ..)

theorem initKey_of_changed {keyv : Bool} {key : Bytes} {s : State} (h : ChangesKey keyv key s) :
    initKey keyv key s = loadNewKey key s := if_pos ((keyChanged_iff keyv key s).mpr h)

theorem initKey_of_kept {keyv : Bool} {key : Bytes} {s : State} (h : ¬ChangesKey keyv key s) :
    initKey keyv key s = s := if_neg fun hc => h ((keyChanged_iff keyv key s).mp hc)

/-- R90: the key in force is the one INIT carries, or the one it keeps. -/
theorem initKey_key (keyv : Bool) (key : Bytes) (s : State) :
    (initKey keyv key s).key = if keyv then key else s.key := by
  by_cases h : ChangesKey keyv key s
  · obtain ⟨rfl, _⟩ := id h
    rw [initKey_of_changed h]
    rfl
  · rw [initKey_of_kept h]
    split
    · rename_i hv
      exact (not_not.mp fun hne => h ⟨hv, .inr hne⟩).symm
    · rfl

/-- The key step leaves the nonce-reuse memory. -/
theorem initKey_memory (keyv : Bool) (key : Bytes) (s : State) :
    (initKey keyv key s).lev = s.lev ∧ (initKey keyv key s).lastEncKey = s.lastEncKey ∧
      (initKey keyv key s).lastEncNonce = s.lastEncNonce := by
  unfold initKey
  split <;> exact ⟨rfl, rfl, rfl⟩

/-- What the key step and the memory step change: the rest is `initConfigure`'s. -/
theorem initArmed_eq (dir keyv : Bool) (macbits : BitVec 8) (key nonce : Bytes) (s : State) :
    initArmed dir keyv macbits key nonce s =
      { initConfigure dir macbits nonce (initKey keyv key s) with
        err := .ok, st := .ready, lev := dir || s.lev
        lastEncKey := if dir then (if keyv then key else s.key) else s.lastEncKey
        lastEncNonce := if dir then nonce else s.lastEncNonce } := by
  obtain ⟨hlev, hkey, hnonce⟩ := initKey_memory keyv key s
  cases dir with
  | true => rw [← initKey_key]; rfl
  | false => rw [Bool.false_or, ← hlev, ← hkey, ← hnonce]; rfl

section
variable (dir keyv : Bool) (macbits : BitVec 8) (key nonce : Bytes) (s : State)

@[simp] theorem initArmed_params : (initArmed dir keyv macbits key nonce s).params = s.params := by
  rw [initArmed_eq]
  exact (initConfigure_params dir macbits nonce (initKey keyv key s)).trans (initKey_params keyv key s)

@[simp] theorem initArmed_st : (initArmed dir keyv macbits key nonce s).st = .ready := rfl

@[simp] theorem initArmed_err : (initArmed dir keyv macbits key nonce s).err = .ok := by rw [initArmed_eq]

@[simp] theorem initArmed_dir : (initArmed dir keyv macbits key nonce s).dir = dir := by rw [initArmed_eq]; rfl

@[simp] theorem initArmed_macBytes : (initArmed dir keyv macbits key nonce s).macBytes = macBytesOf macbits := by
  rw [initArmed_eq]; rfl

@[simp] theorem initArmed_kv : (initArmed dir keyv macbits key nonce s).kv = (initKey keyv key s).kv := by
  rw [initArmed_eq]; rfl

@[simp] theorem initArmed_key : (initArmed dir keyv macbits key nonce s).key = if keyv then key else s.key := by
  rw [initArmed_eq]; exact initKey_key keyv key s

@[simp] theorem initArmed_H : (initArmed dir keyv macbits key nonce s).H = (initKey keyv key s).H := by
  rw [initArmed_eq]; rfl

@[simp] theorem initArmed_M : (initArmed dir keyv macbits key nonce s).M = (initKey keyv key s).M := by
  rw [initArmed_eq]; rfl

@[simp] theorem initArmed_lev : (initArmed dir keyv macbits key nonce s).lev = (dir || s.lev) := by rw [initArmed_eq]

@[simp] theorem initArmed_lastEncKey : (initArmed dir keyv macbits key nonce s).lastEncKey =
    if dir then (if keyv then key else s.key) else s.lastEncKey := by rw [initArmed_eq]

@[simp] theorem initArmed_lastEncNonce : (initArmed dir keyv macbits key nonce s).lastEncNonce =
    if dir then nonce else s.lastEncNonce := by rw [initArmed_eq]

@[simp] theorem initArmed_cfgv : (initArmed dir keyv macbits key nonce s).cfgv = true := by rw [initArmed_eq]; rfl

@[simp] theorem initArmed_J0 : (initArmed dir keyv macbits key nonce s).J0 = deriveJ0 (initKey keyv key s) nonce := by
  rw [initArmed_eq]; rfl

@[simp] theorem initArmed_macReg : (initArmed dir keyv macbits key nonce s).macReg = zeroBuf 16 := by
  rw [initArmed_eq]; rfl

theorem initArmed_cleared : SessionCleared (initArmed dir keyv macbits key nonce s) := by
  rw [initArmed_eq]
  constructor <;> rfl

end

/-- R52, R90: a legal tag length in bits is a whole number of bytes, at most 16. -/
theorem macBytesOf_toNat {macbits : BitVec 8} (h : 32 ≤ macbits.toNat ∧ macbits.toNat ≤ 128 ∧ macbits.toNat % 8 = 0) :
    (macBytesOf macbits).toNat * 8 = macbits.toNat := by
  rw [macBytesOf, BitVec.toNat_ofNat]
  omega

/-- After the key step a key is loaded, be it INIT's or the one it keeps. -/
theorem initKey_kv {keyv : Bool} {key : Bytes} {s : State} (h : keyv = true ∨ s.kv = true) :
    (initKey keyv key s).kv = true := by
  by_cases hc : ChangesKey keyv key s
  · rw [initKey_of_changed hc]
    rfl
  · rw [initKey_of_kept hc]
    by_contra hkv
    exact hc ⟨h.resolve_right hkv, .inl (by simpa using hkv)⟩

/-! RESET (R95). -/

/-- RESET keeps the key and the nonce-reuse memory, and the direction and the tag length. -/
theorem resetSession_keeps (s : State) :
    ∃ c j, SessionFrame { s with cfgv := c, J0 := j } (resetSession s) ∧
      ((c = s.cfgv ∧ j = s.J0) ∨ (¬(s.cfgv = true ∧ s.dir = false) ∧ c = false ∧ j = 0#128)) := by
  by_cases h : s.cfgv = true ∧ s.dir = false
  · obtain ⟨hcfgv, hdir⟩ := id h
    exact ⟨s.cfgv, s.J0, by rw [resetSession_rearm s hcfgv hdir]; rfl, .inl ⟨rfl, rfl⟩⟩
  · exact ⟨false, 0#128, by rw [resetSession_end s h]; rfl, .inr ⟨h, rfl, rfl⟩⟩

end Sys2Proof.Machine

/-! PROOFS. The key, the configuration and the nonce-reuse memory (10_state.md R12 to R17): who writes them, and who reads the
memory. -/

namespace Sys2Proof.Machine

/-! Who writes the key and the configuration. -/

/-- R13 to R15: the key step loads the new key, or leaves the one in force. -/
theorem initKey_registers (keyv : Bool) (key : Bytes) (s : State) :
    ((initKey keyv key s).kv = s.kv ∧ (initKey keyv key s).key = s.key ∧ (initKey keyv key s).H = s.H ∧
      (initKey keyv key s).M = s.M) ∨
    (ChangesKey keyv key s ∧ (initKey keyv key s).kv = true ∧ (initKey keyv key s).key = key ∧
      (initKey keyv key s).H = encryptWith s.params.cipher key 0#128 ∧
      (initKey keyv key s).M = tablesFor s.params.multImpl (initKey keyv key s).H) := by
  by_cases h : ChangesKey keyv key s
  · rw [initKey_of_changed h]
    exact .inr ⟨h, rfl, rfl, rfl, rfl⟩
  · rw [initKey_of_kept h]
    exact .inl ⟨rfl, rfl, rfl, rfl⟩

/-- Settles O25: in every state. INIT's writes are those of `initArmed`, RESET's those of `resetSession_keeps`; every other
command, and a failing INIT, stays within the session. -/
theorem keyAndConfigurationWriters : Obligations.KeyAndConfigurationWriters := by
  intro i s t h
  obtain hf | ⟨rfl, rfl⟩ | ⟨dir, keyv, macbits, key, nonce, aad, rfl, hpass, rfl⟩ := exec_sessionFrame h
  · exact ⟨.inl ⟨hf.kv_eq, hf.key_eq, hf.H_eq, hf.M_eq⟩, .inl ⟨hf.dir_eq, hf.macBytes_eq⟩,
      .inl ⟨hf.cfgv_eq, hf.J0_eq⟩⟩
  · obtain ⟨c, j, hf, hcj⟩ := resetSession_keeps s
    refine ⟨.inl ⟨hf.kv_eq, hf.key_eq, hf.H_eq, hf.M_eq⟩, .inl ⟨hf.dir_eq, hf.macBytes_eq⟩, ?_⟩
    obtain ⟨hc, hj⟩ | ⟨hend, hc, hj⟩ := hcj
    · exact .inl ⟨hf.cfgv_eq.trans hc, hf.J0_eq.trans hj⟩
    · exact .inr (.inr ⟨rfl, hend, hf.cfgv_eq.trans hc, hf.J0_eq.trans hj⟩)
  · have hf := initCommit_sessionFrame dir keyv macbits key nonce aad s
    obtain ⟨hlegal, _, _⟩ := initFailure_eq_none hpass
    have hok := lastStatus_respond .ok [] (initCommit dir keyv macbits key nonce aad s)
    refine ⟨?_, .inr ⟨dir, keyv, macbits, key, nonce, aad, rfl, hok, ?_, ?_⟩,
      .inr (.inl ⟨dir, keyv, macbits, key, nonce, aad, rfl, hok, ?_, ?_⟩)⟩
    · obtain ⟨hkv, hkey, hH, hM⟩ | ⟨hc, hkv, hkey, hH, hM⟩ := initKey_registers keyv key s
      · refine .inl ⟨?_, ?_, ?_, ?_⟩
        · rw [hf.kv_eq, initArmed_kv, hkv]
        · rw [hf.key_eq, initArmed_key, ← initKey_key, hkey]
        · rw [hf.H_eq, initArmed_H, hH]
        · rw [hf.M_eq, initArmed_M, hM]
      · refine .inr ⟨dir, keyv, macbits, key, nonce, aad, rfl, hok, hc, ?_, ?_, ?_, ?_⟩
        · rw [hf.kv_eq, initArmed_kv, hkv]
        · rw [hf.key_eq, initArmed_key, ← initKey_key, hkey]
        · rw [hf.H_eq, initArmed_H, hH]
        · rw [hf.M_eq, hf.H_eq, initArmed_M, initArmed_H, hM]
    · rw [hf.dir_eq, initArmed_dir]
    · rw [hf.macBytes_eq, initArmed_macBytes, macBytesOf_toNat hlegal.mac]
    · rw [hf.cfgv_eq, initArmed_cfgv]
    · have hmul : mulH (respond .ok [] (initCommit dir keyv macbits key nonce aad s)) = mulH (initKey keyv key s) :=
        mulH_congr (by rw [hf.params_eq, initArmed_params, initKey_params]) (by rw [hf.H_eq, initArmed_H])
          (by rw [hf.M_eq, initArmed_M])
      rw [hf.J0_eq, initArmed_J0, deriveJ0, deriveJ0, hmul]

/-! Who writes the nonce-reuse memory (R16). -/

/-- The nonce-reuse memory (R16). -/
def rememberedPair (s : State) : Bool × Bytes × Bytes := (s.lev, s.lastEncKey, s.lastEncNonce)

theorem SessionFrame.rememberedPair_eq {s t : State} (h : SessionFrame s t) : rememberedPair t = rememberedPair s := by
  rw [rememberedPair, h.lev_eq, h.lastEncKey_eq, h.lastEncNonce_eq, rememberedPair]

/-- A command that is no encryption INIT leaves the memory. -/
theorem exec_rememberedPair {i : Instr} {s t : State} (hi : isEncInit i = false) (h : exec i s = .next t) :
    rememberedPair t = rememberedPair s := by
  obtain hf | ⟨rfl, rfl⟩ | ⟨dir, keyv, macbits, key, nonce, aad, rfl, _, rfl⟩ := exec_sessionFrame h
  · exact hf.rememberedPair_eq
  · obtain ⟨c, j, hf, _⟩ := resetSession_keeps s
    exact hf.rememberedPair_eq
  · have hdir : dir = false := hi
    subst hdir
    rw [(initCommit_sessionFrame false keyv macbits key nonce aad s).rememberedPair_eq]
    simp [rememberedPair]

/-- An encryption INIT leaves the memory when it fails, and writes the key in force and its nonce when it succeeds. -/
theorem exec_encInit_outcome {keyv : Bool} {macbits : BitVec 8} {key nonce aad : Bytes} {s t : State}
    (h : exec (.init true keyv macbits key nonce aad) s = .next t) :
    (rememberedPair t = rememberedPair s ∧ lastStatus t ≠ some .ok) ∨
    (lastStatus t = some .ok ∧ rememberedPair t = (true, (if keyv then key else s.key), nonce) ∧
      t.key = if keyv then key else s.key) := by
  obtain ⟨code, hcode, rfl⟩ | ⟨_, rfl⟩ := execInit_outcome h
  · refine .inl ⟨(fail_sessionFrame code s).rememberedPair_eq, ?_⟩
    rw [lastStatus_fail]
    exact fun hok => hcode (Option.some.inj hok)
  · have hf := initCommit_sessionFrame true keyv macbits key nonce aad s
    refine .inr ⟨lastStatus_respond .., ?_, by rw [hf.key_eq, initArmed_key]⟩
    rw [hf.rememberedPair_eq]
    simp [rememberedPair]

theorem runAll_rememberedPair {between : List Instr} {s t : State} (hb : ∀ i ∈ between, isEncInit i = false)
    (h : runAll between s = some t) : rememberedPair t = rememberedPair s := by
  induction between generalizing s with
  | nil => cases h; rfl
  | cons i rest ih =>
    obtain ⟨u, hu⟩ := exec_next i s
    rw [runAll, hu] at h
    rw [ih (fun j hj => hb j (List.mem_cons_of_mem i hj)) h, exec_rememberedPair (hb i List.mem_cons_self) hu]

/-! Who reads it: no operation but INIT's check does. Each one commutes with overwriting the memory. -/

/-- The same core with another pair in its nonce-reuse memory. -/
def withMemory (m : Bool × Bytes × Bytes) (s : State) : State :=
  { s with lev := m.1, lastEncKey := m.2.1, lastEncNonce := m.2.2 }

/-- The same work with its state changed. -/
def Work.mapState {α : Type} (f : State → State) : Work α → Work α
  | .done s r => .done (f s) r
  | .fails s code => .fails (f s) code

section
variable (m : Bool × Bytes × Bytes)

theorem nextKeystreamBlock_withMemory (s : State) :
    nextKeystreamBlock (withMemory m s) = (nextKeystreamBlock s).mapState (withMemory m) := by
  by_cases h : s.blocksRem = 0#32
  · rw [nextKeystreamBlock_exhausted s h, nextKeystreamBlock_exhausted (withMemory m s) h]
    rfl
  · rw [nextKeystreamBlock_eq s h, nextKeystreamBlock_eq (withMemory m s) h]
    rfl

theorem ensureSnapshot_withMemory (s : State) :
    ensureSnapshot (withMemory m s) = withMemory m (ensureSnapshot s) := by
  by_cases h : s.st = .stream
  · rw [ensureSnapshot_of_stream h, ensureSnapshot_of_stream (s := withMemory m s) h]
  · rw [ensureSnapshot, if_neg (show (withMemory m s).st ≠ .stream from h), ensureSnapshot, if_neg h]
    rfl

theorem cipherBlock_withMemory (b : Block) (s : State) :
    cipherBlock b (withMemory m s) = (cipherBlock b s).mapState (withMemory m) := by
  unfold cipherBlock
  have hd : (withMemory m s).dir = s.dir := rfl
  have hset : setHash (ghashBlock (withMemory m s) (withMemory m s).S b) (withMemory m s)
      = withMemory m (setHash (ghashBlock s s.S b) s) := rfl
  rw [hd, hset, nextKeystreamBlock_withMemory, nextKeystreamBlock_withMemory]
  split
  · cases nextKeystreamBlock s <;> rfl
  · cases nextKeystreamBlock (setHash (ghashBlock s s.S b) s) <;> rfl

theorem processBlock_withMemory (b : Block) (s : State) :
    processBlock b (withMemory m s) = (processBlock b s).mapState (withMemory m) := by
  rw [processBlock, ensureSnapshot_withMemory, cipherBlock_withMemory, processBlock]

theorem shiftWindow_withMemory (held : Bytes) (s : State) :
    shiftWindow held (withMemory m s) = withMemory m (shiftWindow held s) := by
  unfold shiftWindow
  have hd : (withMemory m s).dir = s.dir := rfl
  rw [hd]
  split <;> rfl

theorem absorbByte_withMemory (b : Byte) (s : State) :
    absorbByte b (withMemory m s) = (absorbByte b s).mapState (withMemory m) := by
  unfold absorbByte
  have hcap : windowCap (withMemory m s) = windowCap s := rfl
  have hbuf : (withMemory m s).buf = s.buf := rfl
  have hpos : (withMemory m s).bufPos = s.bufPos := rfl
  simp only [hcap, hbuf, hpos, processBlock_withMemory]
  split
  · cases processBlock (blockOfBytes ((s.buf.setIfInBounds s.bufPos.toNat b).toList.take 16)) s with
    | fails s' code => rfl
    | done s' out => simp only [Work.mapState, shiftWindow_withMemory]
  · rfl

theorem absorb_withMemory (d : Bytes) (s : State) :
    absorb d (withMemory m s) = (absorb d s).mapState (withMemory m) := by
  induction d generalizing s with
  | nil => rfl
  | cons b rest ih =>
    rw [absorb, absorb, absorbByte_withMemory]
    cases absorbByte b s with
    | fails s' code => rfl
    | done s' out =>
      simp only [Work.mapState, ih]
      cases absorb rest s' <;> rfl

theorem cipherPartial_withMemory (n : Nat) (s : State) :
    cipherPartial n (withMemory m s) = (cipherPartial n s).mapState (withMemory m) := by
  unfold cipherPartial
  have hstart : (if (withMemory m s).dir then withMemory m s
        else setHash (ghashPartial (withMemory m s) (withMemory m s).S ((withMemory m s).buf.toList.take n) n)
          (withMemory m s))
      = withMemory m (if s.dir then s else setHash (ghashPartial s s.S (s.buf.toList.take n) n) s) := by
    have hd : (withMemory m s).dir = s.dir := rfl
    rw [hd]
    split <;> rfl
  simp only [hstart, nextKeystreamBlock_withMemory]
  cases nextKeystreamBlock (if s.dir then s else setHash (ghashPartial s s.S (s.buf.toList.take n) n) s) with
  | fails s' code => rfl
  | done s' ks =>
    have hd : (withMemory m s').dir = s'.dir := rfl
    simp only [Work.mapState, hd]
    split <;> rfl

theorem processPartial_withMemory (n : Nat) (s : State) :
    processPartial n (withMemory m s) = (processPartial n s).mapState (withMemory m) := by
  unfold processPartial
  split
  · rfl
  · rw [ensureSnapshot_withMemory, cipherPartial_withMemory]

theorem reconcile_withMemory (s : State) : reconcile (withMemory m s) = withMemory m (reconcile s) := by
  by_cases h : s.atLenPre.toNat < aadTotal s
  · rw [reconcile, if_pos (show (withMemory m s).atLenPre.toNat < aadTotal (withMemory m s) from h), reconcile, if_pos h]
    rfl
  · rw [reconcile, if_neg (show ¬(withMemory m s).atLenPre.toNat < aadTotal (withMemory m s) from h), reconcile, if_neg h]

theorem computeTag_withMemory (s : State) :
    computeTag (withMemory m s) = (withMemory m (computeTag s).1, (computeTag s).2) := rfl

theorem finishPayload_withMemory (s : State) :
    finishPayload (withMemory m s) = (finishPayload s).mapState (withMemory m) := by
  unfold finishPayload
  have hextra : extraBytes (withMemory m s) = extraBytes s := rfl
  have htag : receivedTag (withMemory m s) = receivedTag s := rfl
  rw [hextra, htag, ensureSnapshot_withMemory, processPartial_withMemory]
  cases processPartial (extraBytes s) (ensureSnapshot s) with
  | fails s' code => rfl
  | done s' out =>
    have hd : ∀ u, (withMemory m u).dir = u.dir := fun _ => rfl
    simp only [Work.mapState, reconcile_withMemory, computeTag_withMemory, hd]
    split
    · rfl
    · split <;> rfl

theorem finalWork_withMemory (d : Bytes) (s : State) :
    finalWork d (withMemory m s) = (finalWork d s).mapState (withMemory m) := by
  unfold finalWork
  rw [absorb_withMemory]
  cases absorb d s with
  | fails s' code => rfl
  | done s' out =>
    have hd : (withMemory m s').dir = s'.dir := rfl
    have hpos : (withMemory m s').bufPos = s'.bufPos := rfl
    have hmac : (withMemory m s').macBytes = s'.macBytes := rfl
    simp only [Work.mapState, hd, hpos, hmac, finishPayload_withMemory]
    split
    · rfl
    · cases finishPayload s' <;> rfl

theorem aadIngestByte_withMemory (s : State) (b : Byte) :
    aadIngestByte (withMemory m s) b = withMemory m (aadIngestByte s b) := by
  unfold aadIngestByte
  have hpos : (withMemory m s).atPos = s.atPos := rfl
  simp only [hpos]
  split <;> rfl

theorem aadIngest_withMemory (data : Bytes) (s : State) :
    aadIngest data (withMemory m s) = withMemory m (aadIngest data s) := by
  induction data generalizing s with
  | nil => rfl
  | cons b rest ih =>
    rw [aadIngest, List.foldl_cons, aadIngestByte_withMemory]
    exact ih (aadIngestByte s b)

theorem resetSession_withMemory (s : State) : resetSession (withMemory m s) = withMemory m (resetSession s) := by
  by_cases h : s.cfgv = true ∧ s.dir = false
  · obtain ⟨hcfgv, hdir⟩ := h
    rw [resetSession_rearm s hcfgv hdir, resetSession_rearm (withMemory m s) hcfgv hdir]
    rfl
  · rw [resetSession_end s h, resetSession_end (withMemory m s) h]
    rfl

/-- A decryption INIT does not look at the pair. -/
theorem initFailure_dec_withMemory (keyv : Bool) (macbits : BitVec 8) (key nonce aad : Bytes) (s : State) :
    initFailure false keyv macbits key nonce aad (withMemory m s) = initFailure false keyv macbits key nonce aad s := rfl

theorem initCommit_dec_withMemory (keyv : Bool) (macbits : BitVec 8) (key nonce aad : Bytes) (s : State) :
    initCommit false keyv macbits key nonce aad (withMemory m s) =
      withMemory m (initCommit false keyv macbits key nonce aad s) := by
  have hkey : initKey keyv key (withMemory m s) = withMemory m (initKey keyv key s) := by
    by_cases h : ChangesKey keyv key s
    · rw [initKey_of_changed h, initKey_of_changed (s := withMemory m s) h]
      rfl
    · rw [initKey_of_kept h, initKey_of_kept (s := withMemory m s) h]
  have harmed : initArmed false keyv macbits key nonce (withMemory m s) =
      withMemory m (initArmed false keyv macbits key nonce s) := by
    rw [initArmed, hkey]
    rfl
  rw [initCommit_eq, harmed, aadIngest_withMemory, initCommit_eq]

/-- R16: no command but an encryption INIT reads the nonce-reuse memory. -/
theorem exec_withMemory {i : Instr} {s t : State} (hi : isEncInit i = false) (h : exec i s = .next t) :
    exec i (withMemory m s) = .next (withMemory m t) := by
  cases i with
  | init dir keyv macbits key nonce aad =>
    have hdir : dir = false := hi
    subst hdir
    simp only [exec, execInit, initFailure_dec_withMemory, initCommit_dec_withMemory] at h ⊢
    cases hf : initFailure false keyv macbits key nonce aad s with
    | some code => rw [hf] at h; cases h; rfl
    | none => rw [hf] at h; cases h; rfl
  | aad data =>
    have hchk : aadFailure data (withMemory m s) = aadFailure data s := rfl
    simp only [exec, execAad, hchk, aadIngest_withMemory] at h ⊢
    cases hf : aadFailure data s with
    | some code => rw [hf] at h; cases h; rfl
    | none => rw [hf] at h; cases h; rfl
  | proc data =>
    have hchk : payFailure data (withMemory m s) = payFailure data s := rfl
    simp only [exec, execProc, hchk, absorb_withMemory] at h ⊢
    cases hf : payFailure data s with
    | some code => rw [hf] at h; cases h; rfl
    | none =>
      rw [hf] at h
      cases hw : absorb data s <;> (rw [hw] at h; cases h; rfl)
  | final data =>
    have hchk : payFailure data (withMemory m s) = payFailure data s := rfl
    simp only [exec, execFinal, hchk, finalWork_withMemory] at h ⊢
    cases hf : payFailure data s with
    | some code => rw [hf] at h; cases h; rfl
    | none =>
      rw [hf] at h
      cases hw : finalWork data s <;> (rw [hw] at h; cases h; rfl)
  | getmac => cases h; rfl
  | reset => cases h; rw [exec, execReset, resetSession_withMemory]; rfl
  | outsz len => cases h; rfl
  | updsz len => cases h; rfl

end

/-- R119: an encryption INIT that is legal and repeats the pair is refused. -/
theorem exec_init_repeatsPair {keyv : Bool} {macbits : BitVec 8} {key nonce aad : Bytes} {s : State}
    (hl : InitParametersLegal keyv macbits nonce s) (hp : RepeatsPair true keyv key nonce s) :
    exec (.init true keyv macbits key nonce aad) s = .next (fail .nonceReuse s) := by
  have hfail : initFailure true keyv macbits key nonce aad s = some .nonceReuse := by
    rw [initFailure_of_legal hl, if_pos hp]
  rw [exec, execInit, hfail]

/-- R130: hardware reset clears the memory. -/
theorem step_hardwareReset {s : State} (h : s.resetIn = true) : step s = .next (hardwareReset s) := if_pos h

/-- Settles O24: in every state. The refusal follows from the pair staying in the memory until the next encryption INIT. -/
theorem nonceMemory : Obligations.NonceMemory := by
  refine ⟨?writes, ?written, ?reads, ?cleared, ?refused⟩
  case writes =>
    intro i s t h
    cases hi : isEncInit i with
    | false =>
      have hmem := exec_rememberedPair hi h
      simp only [rememberedPair, Prod.mk.injEq] at hmem
      exact .inl hmem
    | true =>
      cases i with
      | init dir keyv macbits key nonce aad =>
        have hdir : dir = true := hi
        subst hdir
        obtain ⟨hmem, _⟩ | ⟨hok, hmem, hkey⟩ := exec_encInit_outcome h
        · simp only [rememberedPair, Prod.mk.injEq] at hmem
          exact .inl hmem
        · simp only [rememberedPair, Prod.mk.injEq] at hmem
          obtain ⟨hlev, hek, hen⟩ := hmem
          exact .inr ⟨keyv, macbits, key, nonce, aad, rfl, hok, hlev, hek.trans hkey.symm, hek, hen⟩
      | _ => cases hi
  case written =>
    intro keyv macbits key nonce aad s t h hok
    obtain ⟨_, hfail⟩ | ⟨_, hmem, _⟩ := exec_encInit_outcome h
    · exact absurd hok hfail
    · simpa only [rememberedPair, Prod.mk.injEq] using hmem
  case reads => exact fun i s t b k n hi h => exec_withMemory (b, k, n) hi h
  case cleared => exact fun s hr => ⟨hardwareReset s, step_hardwareReset hr, rfl, rfl, rfl⟩
  case refused =>
    intro keyv macbits macbits' key nonce aad aad' between s t u h hok hb hrun hlegal
    obtain ⟨_, hfail⟩ | ⟨_, hmem, _⟩ := exec_encInit_outcome h
    · exact absurd hok hfail
    · have hkept : rememberedPair u = (true, (if keyv then key else s.key), nonce) :=
        (runAll_rememberedPair hb hrun).trans hmem
      simp only [rememberedPair, Prod.mk.injEq] at hkept
      obtain ⟨hlev, hek, hen⟩ := hkept
      exact exec_init_repeatsPair hlegal ⟨rfl, hlev, hen.symm, hek.symm⟩

end Sys2Proof.Machine

/-! PROOFS. The invariants (10_state.md R27): they hold at hardware reset, and every command keeps them. -/

namespace Sys2Proof.Machine

/-! The invariants in two parts: those of the registers outside the session, and the rest where the session is cleared. -/

/-- The invariants of the key, the configuration and the nonce-reuse memory (R27 items 5, 8 and 9, R14 to R16): no register
a session runs on is in them. -/
structure ConfigInv (s : State) : Prop where
  macBytes_range : 4 ≤ s.macBytes.toNat ∧ s.macBytes.toNat ≤ 16
  keyed : s.cfgv = true → s.kv = true
  subkey : s.kv = true → s.H = cipherE s 0#128
  remembered_key : s.lev = true → s.kv = true
  tables : s.M = tablesFor s.params.multImpl s.H
  remembered_nonce : s.lev = true → 1 ≤ s.lastEncNonce.length ∧ s.lastEncNonce.length ≤ s.params.nonceMax

theorem Inv.configInv {s : State} (h : Inv s) : ConfigInv s :=
  { h with }

theorem ConfigInv.of_sessionFrame {s t : State} (h : ConfigInv s) (hf : SessionFrame s t) : ConfigInv t := by
  rw [SessionFrame] at hf
  rw [hf]
  exact { h with }

/-- The invariants do not look at the channels, the port trace and the reset input. -/
theorem Inv.of_channels {s : State} (h : Inv s) (c : Bytes) (r : List Response) (p : List PortEvent) (b : Bool) :
    Inv { s with chan := c, resp := r, port := p, resetIn := b } :=
  { h with
    ready := fun hs => { h.ready hs with }
    stream := fun hs => { h.stream hs with }
    cleared := fun hs => { h.cleared hs with } }

theorem Inv.respond {s : State} (h : Inv s) (code : Status) (d : Bytes) : Inv (respond code d s) :=
  h.of_channels s.chan (s.resp ++ [mkResponse code d]) s.port s.resetIn

/-- A cleared session (R80) meets the invariants wherever the state machine then stands, STREAM apart, if `cfgv`, `J0`,
`macReg` and `err` are as that state wants them. -/
theorem SessionCleared.inv {s : State} (h : SessionCleared s) (hc : ConfigInv s) (hst : s.st ≠ .stream)
    (hconf : s.st = .ready ∨ s.st = .done → s.cfgv = true) (huninit : s.st = .uninit → s.cfgv = false ∧ s.J0 = 0#128)
    (hmac : s.st ≠ .done → s.macReg = zeroBuf 16) (herr : s.err ≠ .ok ↔ s.st = .failed) : Inv s :=
  have hcap := windowCap_pos s
  have htotal : aadTotal s = 0 := by simp [aadTotal, h.atLen, h.atPos]
  { hc with
    atLen_blocks := by simp [h.atLen]
    window := by simp [h.bufPos]; omega
    ready := fun _ => ⟨h.payLen, h.S, h.S_atPre, h.atLenPre, h.ctr, h.blocksRem⟩
    stream := fun hs => absurd hs hst
    configured := fun hs => hconf (by tauto)
    unconfigured := huninit
    cleared := fun _ => h
    macReg_zero := hmac
    ceiling := fun _ => by simp [htotal, h.payLen, h.bufPos, payEff]
    atBuf_canonical := by simp only [h.atBuf, stagedBytes, h.atPos]; rfl
    buf_canonical := by simp only [h.buf, windowBytes, h.bufPos]; rfl
    snapshot_covers := by simp [h.atLenPre]
    snapshot_empty := fun _ => h.S_atPre
    accumulator_empty := fun _ => h.S_at
    err_failed := herr }

/-! Hardware reset (R29, R130). -/

theorem resetWith_cleared (p : Params) : SessionCleared (State.resetWith p) := by
  constructor <;> rfl

theorem resetWith_configInv (p : Params) : ConfigInv (State.resetWith p) where
  macBytes_range := show 4 ≤ (16#5).toNat ∧ (16#5).toNat ≤ 16 by decide
  keyed := fun h => absurd h Bool.false_ne_true
  subkey := fun h => absurd h Bool.false_ne_true
  remembered_key := fun h => absurd h Bool.false_ne_true
  tables := zeroTables_eq p.multImpl
  remembered_nonce := fun h => absurd h Bool.false_ne_true

theorem inv_resetWith (p : Params) : Inv (State.resetWith p) :=
  (resetWith_cleared p).inv (resetWith_configInv p) (by simp [State.resetWith]) (by simp [State.resetWith])
    (fun _ => ⟨rfl, rfl⟩) (fun _ => rfl) (by simp [State.resetWith])

theorem inv_hardwareReset (s : State) : Inv (hardwareReset s) :=
  (inv_resetWith s.params).of_channels [] s.resp s.port false

/-- Settles O13. -/
theorem resetMeetsInvariant : Obligations.ResetMeetsInvariant :=
  ⟨inv_resetWith Params.default, fun p => ⟨inv_resetWith p, (resetWith_cleared p).holdsAad⟩⟩

/-! The ends of a session. -/

theorem fail_cleared (code : Status) (s : State) : SessionCleared (fail code s) := by
  constructor <;> rfl

/-- R112: a failure ends in a state that meets the invariants, from whatever the session had come to. -/
theorem ConfigInv.inv_fail {s : State} (h : ConfigInv s) {code : Status} (hcode : code ≠ .ok) : Inv (fail code s) :=
  (fail_cleared code s).inv (h.of_sessionFrame (fail_sessionFrame code s)) (by simp) (by simp) (by simp) (fun _ => rfl)
    (by simpa using hcode)

/-- R93: so does the ending of FINAL, in a configured session without an error. -/
theorem ConfigInv.inv_endSession {s : State} (h : ConfigInv s) (tag : Bytes) (hcfgv : s.cfgv = true)
    (herr : s.err = .ok) : Inv (endSession tag s) :=
  have hcleared : SessionCleared (endSession tag s) := by constructor <;> rfl
  hcleared.inv (h.of_sessionFrame (endSession_sessionFrame tag s)) (by simp) (fun _ => hcfgv) (by simp) (by simp)
    (by simp [herr])

theorem resetSession_cleared (s : State) : SessionCleared (resetSession s) := by
  unfold resetSession
  split <;> constructor <;> rfl

/-- R95. -/
theorem Inv.resetSession {s : State} (h : Inv s) : Inv (resetSession s) := by
  have hcleared := resetSession_cleared s
  by_cases hr : s.cfgv = true ∧ s.dir = false
  · obtain ⟨hcfgv, hdir⟩ := id hr
    rw [resetSession_rearm s hcfgv hdir] at hcleared ⊢
    exact hcleared.inv { h.configInv with } (by simp) (fun _ => hcfgv) (by simp) (fun _ => rfl) (by simp)
  · rw [resetSession_end s hr] at hcleared ⊢
    exact hcleared.inv { h.configInv with keyed := fun hc => absurd hc Bool.false_ne_true } (by simp) (by simp)
      (fun _ => ⟨rfl, rfl⟩) (fun _ => rfl) (by simp)

/-! INIT (R90). -/

theorem Inv.initKey_configured {s : State} (h : Inv s) (keyv : Bool) (key : Bytes) :
    ((initKey keyv key s).kv = true → (initKey keyv key s).H = cipherE (initKey keyv key s) 0#128) ∧
    (initKey keyv key s).M = tablesFor s.params.multImpl (initKey keyv key s).H := by
  by_cases hc : ChangesKey keyv key s
  · rw [initKey_of_changed hc]
    exact ⟨fun _ => rfl, rfl⟩
  · rw [initKey_of_kept hc]
    exact ⟨h.subkey, h.tables⟩

theorem Inv.initArmed_configInv {dir keyv : Bool} {macbits : BitVec 8} {key nonce : Bytes} {s : State} (h : Inv s)
    (hl : InitParametersLegal keyv macbits nonce s) : ConfigInv (initArmed dir keyv macbits key nonce s) := by
  obtain ⟨hsub, htab⟩ := h.initKey_configured keyv key
  have hkv : (initArmed dir keyv macbits key nonce s).kv = true := by rw [initArmed_kv, initKey_kv hl.key]
  have hmac := macBytesOf_toNat hl.mac
  obtain ⟨hmac4, hmac16, _⟩ := hl.mac
  refine ⟨?_, fun _ => hkv, fun _ => ?_, fun _ => hkv, ?_, fun hlev => ?_⟩
  · rw [initArmed_macBytes]; omega
  · rw [initArmed_H, hsub (initKey_kv hl.key)]
    exact congrFun (cipherE_congr (by simp) (by rw [initArmed_key, initKey_key])) _
  · rw [initArmed_M, htab, initArmed_H, initArmed_params]
  · rw [initArmed_lastEncNonce, initArmed_params]
    cases dir with
    | true => exact hl.nonce
    | false => exact h.remembered_nonce (by simpa using hlev)

/-- R90: the session INIT arms meets the invariants before its associated data come in. -/
theorem Inv.initArmed {dir keyv : Bool} {macbits : BitVec 8} {key nonce : Bytes} {s : State} (h : Inv s)
    (hl : InitParametersLegal keyv macbits nonce s) : Inv (initArmed dir keyv macbits key nonce s) :=
  (initArmed_cleared dir keyv macbits key nonce s).inv (h.initArmed_configInv hl) (by simp) (by simp) (by simp) (by simp)
    (by simp)

/-! What the invariants give in a session. -/

section
variable {s : State}

theorem Inv.aadTotal_le (h : Inv s) (hs : inSession s) : aadTotal s ≤ 2 ^ 36 - 32 :=
  le_trans (Nat.le_add_right ..) (h.ceiling hs)

theorem Inv.cfgv_of_inSession (h : Inv s) (hs : inSession s) : s.cfgv = true :=
  h.configured (by tauto)

theorem Inv.err_of_inSession (h : Inv s) (hs : inSession s) : s.err = .ok := by
  by_contra herr
  have hfailed := h.err_failed.mp herr
  obtain hs | hs := hs <;> exact absurd (hs.symm.trans hfailed) (by decide)

/-- Items 3, 4 and 11: whole blocks have gone through the cipher path, and the counter and the budget say how many. -/
theorem Inv.progress (h : Inv s) (hs : inSession s) :
    s.payLen.toNat % 16 = 0 ∧ s.blocksRem.toNat + s.payLen.toNat / 16 = 2 ^ 32 - 2 ∧
      s.ctr = inc32n (s.payLen.toNat / 16) s.J0 := by
  obtain hs | hs := hs
  · have hn := h.ready hs
    rw [hn.payLen, hn.blocksRem, hn.ctr]
    exact ⟨rfl, rfl, rfl⟩
  · have hn := h.stream hs
    exact ⟨hn.whole_blocks, hn.budget, hn.counter⟩

theorem takesAad.inSession (h : takesAad s) : inSession s := h.imp_right And.left

end

/-! Associated data (R72, R91). -/

/-- R72: the counts after ingesting, where they do not wrap round. -/
theorem aadState_counts (data : Bytes) (s : State) (h : aadTotal s + data.length < 2 ^ 64) :
    (aadState data s).atLen.toNat = s.atLen.toNat + 16 * ((s.atPos.toNat + data.length) / 16) ∧
    (aadState data s).atPos.toNat = (s.atPos.toNat + data.length) % 16 := by
  have hlen : (pendingAad data s).length = s.atPos.toNat + data.length := by
    rw [pendingAad, List.length_append, length_stagedBytes]
  rw [aadTotal] at h
  simp only [aadState, setAad_atLen, setAad_atPos, hlen, BitVec.toNat_add, BitVec.toNat_ofNat]
  omega

theorem aadTotal_aadState (data : Bytes) (s : State) (h : aadTotal s + data.length < 2 ^ 64) :
    aadTotal (aadState data s) = aadTotal s + data.length := by
  obtain ⟨hlen, hpos⟩ := aadState_counts data s h
  rw [aadTotal, hlen, hpos, aadTotal]
  omega

theorem stagedBytes_aadState (data : Bytes) (s : State) :
    stagedBytes (aadState data s) = (pendingAad data s).drop (16 * ((pendingAad data s).length / 16)) :=
  stagedBytes_setAad _ _ _ _ _ (by
    rw [List.length_drop, BitVec.toNat_ofNat]
    omega)

/-- R91: ingesting associated data within the ceiling keeps the invariants. -/
theorem Inv.aadState {s : State} (h : Inv s) (hs : inSession s) {data : Bytes} (hfit : aadFits s data.length) :
    Inv (aadState data s) := by
  have hlt : aadTotal s + data.length < 2 ^ 64 := by
    have := le_trans (Nat.le_add_right ..) hfit
    omega
  obtain ⟨hlen, hpos⟩ := aadState_counts data s hlt
  have htotal := aadTotal_aadState data s hlt
  have hnot : ¬(s.st = .uninit ∨ s.st = .done ∨ s.st = .failed) := by
    obtain hs | hs := hs <;> simp [hs]
  exact
  { h with
    atLen_blocks := by have := h.atLen_blocks; omega
    ready := fun hs => { h.ready hs with }
    stream := fun hs => { h.stream hs with }
    cleared := fun hs => absurd hs hnot
    ceiling := fun _ => by rw [htotal]; exact hfit
    atBuf_canonical := by rw [stagedBytes_aadState]; rfl
    snapshot_covers := by rw [htotal]; exact le_trans h.snapshot_covers (Nat.le_add_right ..)
    accumulator_empty := fun h0 => by
      have hzero : (Machine.aadState data s).atLen.toNat = 0 := by rw [h0]; rfl
      have hold : s.atLen = 0#64 := BitVec.eq_of_toNat_eq (by simp; omega)
      have hq : (pendingAad data s).length / 16 = 0 := by
        rw [pendingAad, List.length_append, length_stagedBytes]; omega
      show ghashRunWith (mulH s) ((pendingAad data s).length / 16) s.S_at (pendingAad data s) = 0#128
      rw [hq]
      exact h.accumulator_empty hold }

/-! Payload (R83 to R85, R92). -/

/-- R83: the snapshot covers all associated data. -/
theorem snapshot_atLenPre_toNat (s : State) (h : aadTotal s < 2 ^ 64) : (snapshot s).atLenPre.toNat = aadTotal s := by
  rw [aadTotal] at h ⊢
  have hp := s.atPos.isLt
  simp only [snapshot_atLenPre]
  split
  · rw [BitVec.toNat_add, BitVec.toNat_setWidth]
    omega
  · omega

/-- Item 12, first sentence, and R22, with the snapshot taken. -/
theorem Inv.ensureSnapshot {s : State} (h : Inv s) (hs : inSession s) :
    (ensureSnapshot s).atLenPre.toNat ≤ aadTotal s ∧
      ((ensureSnapshot s).atLenPre = 0#64 → (ensureSnapshot s).S_atPre = 0#128) := by
  by_cases hst : s.st = .stream
  · rw [ensureSnapshot_of_stream hst]
    exact ⟨h.snapshot_covers, h.snapshot_empty⟩
  · have hle := h.aadTotal_le hs
    have hpre := snapshot_atLenPre_toNat s (by omega)
    rw [Machine.ensureSnapshot, if_neg hst]
    refine ⟨hpre.le, fun h0 => ?_⟩
    have hzero : aadTotal s = 0 := by rw [← hpre, h0]; rfl
    rw [aadTotal] at hzero
    have hpos : ¬0 < s.atPos.toNat := by omega
    rw [snapshot_S_atPre, finalAadHash, if_neg hpos]
    exact h.accumulator_empty (BitVec.eq_of_toNat_eq (by simp; omega))

section
variable {s : State} {data : Bytes}

theorem Inv.length_pending (h : Inv s) : (pending data s).length = s.bufPos.toNat + data.length := by
  obtain ⟨_, hmac⟩ := h.macBytes_range
  have := h.window
  have := windowCap_le s hmac
  rw [pending, List.length_append, length_windowBytes s (by omega)]

/-- R85: the blocks released leave less than a window behind, and less than a block of its payload. -/
theorem blocksReleased_rest (s : State) (n : Nat) :
    16 * blocksReleased s n ≤ n ∧ n - 16 * blocksReleased s n < windowCap s ∧
      payEff s n < 16 * blocksReleased s n + 16 ∧ 16 * blocksReleased s n ≤ payEff s n := by
  unfold blocksReleased windowCap payEff
  split <;> omega

/-- The blocks FINAL would use lie within the budget (R19, R25). -/
theorem Inv.payload_within_budget (h : Inv s) (hs : inSession s) (hfit : payFits s data.length) :
    s.payLen.toNat + payEff s (pending data s).length ≤ 2 ^ 36 - 32 ∧
      blocksOf (payEff s (pending data s).length) ≤ s.blocksRem.toNat := by
  obtain ⟨hmod, hbudget, _⟩ := h.progress hs
  have hheld : s.dir = false → s.payLen.toNat = 0 ∨ s.macBytes.toNat ≤ s.bufPos.toNat := by
    intro hd
    obtain hs | hs := hs
    · exact .inl (by rw [(h.ready hs).payLen]; rfl)
    · exact .inr ((h.stream hs).held hd)
  rw [h.length_pending]
  have hceil : payEff s (s.payLen.toNat + s.bufPos.toNat + data.length) ≤ 2 ^ 36 - 32 :=
    le_trans (Nat.le_add_left ..) hfit
  unfold payEff at hceil ⊢
  unfold blocksOf
  by_cases hd : s.dir = true
  · rw [if_pos hd] at hceil ⊢
    omega
  · have hheld := hheld (by simpa using hd)
    rw [if_neg hd] at hceil ⊢
    omega

theorem Inv.blocksReleased_le (h : Inv s) (hs : inSession s) (hfit : payFits s data.length) :
    blocksReleased s (pending data s).length ≤ s.blocksRem.toNat := by
  obtain ⟨_, hbudget⟩ := h.payload_within_budget hs hfit
  obtain ⟨_, _, _, hrel⟩ := blocksReleased_rest s (pending data s).length
  unfold blocksOf at hbudget
  omega

/-- R92: within the ceiling PROC's work is done. -/
theorem Inv.absorb_eq (h : Inv s) (hs : inSession s) (hfit : payFits s data.length) :
    absorb data s = .done (procState data s) (procOutput data s) :=
  Machine.absorb_eq data s h.buf_canonical h.window h.macBytes_range.2 (h.blocksReleased_le hs hfit)

theorem Inv.procState_sessionFrame (h : Inv s) (hs : inSession s) (hfit : payFits s data.length) :
    SessionFrame s (procState data s) := by
  have hframe := (absorb_frame data s).sessionFrame
  rwa [h.absorb_eq hs hfit] at hframe

/-- R85, R92: with no block released only the window changes. -/
theorem procState_of_none (hk : blocksReleased s (pending data s).length = 0) :
    procState data s = setWindow (vecOfBytes 32 (pending data s)) (BitVec.ofNat 6 (pending data s).length) s := by
  simp [procState, hk]

theorem procState_of_some (hk : blocksReleased s (pending data s).length ≠ 0) :
    procState data s =
      setWindow (vecOfBytes 32 ((pending data s).drop (16 * blocksReleased s (pending data s).length)))
        (BitVec.ofNat 6 ((pending data s).length - 16 * blocksReleased s (pending data s).length))
        (pathState (blocksReleased s (pending data s).length)
          ((pending data s).take (16 * blocksReleased s (pending data s).length)) s) := by
  simp [procState, hk]

/-- R23, R85: what PROC leaves in the window. -/
theorem Inv.procState_window (h : Inv s) :
    windowBytes (procState data s) = (pending data s).drop (16 * blocksReleased s (pending data s).length) ∧
    (procState data s).buf = vecOfBytes 32 (windowBytes (procState data s)) ∧
    (procState data s).bufPos.toNat =
      (pending data s).length - 16 * blocksReleased s (pending data s).length := by
  obtain ⟨hle, hrest, _⟩ := blocksReleased_rest s (pending data s).length
  have hcap := windowCap_le s h.macBytes_range.2
  have hwin : windowBytes (procState data s) = (pending data s).drop (16 * blocksReleased s (pending data s).length) :=
    windowBytes_setWindow _ _ _ (List.length_drop ..) (by omega)
  refine ⟨hwin, by rw [hwin]; rfl, ?_⟩
  show (BitVec.ofNat 6 _).toNat = _
  rw [BitVec.toNat_ofNat]
  omega

/-- R84: how far the cipher path has come after PROC. -/
theorem Inv.procState_progress (h : Inv s) (hs : inSession s) (hfit : payFits s data.length) :
    (procState data s).payLen.toNat = s.payLen.toNat + 16 * blocksReleased s (pending data s).length ∧
    (procState data s).blocksRem.toNat = s.blocksRem.toNat - blocksReleased s (pending data s).length ∧
    (procState data s).ctr = inc32n (blocksReleased s (pending data s).length) s.ctr := by
  obtain ⟨hceil, _⟩ := h.payload_within_budget hs hfit
  have hrem := h.blocksReleased_le hs hfit
  obtain ⟨hle, _, _, hrel⟩ := blocksReleased_rest s (pending data s).length
  by_cases hk : blocksReleased s (pending data s).length = 0
  · rw [procState_of_none hk, hk]
    exact ⟨rfl, rfl, rfl⟩
  · have hrlt := s.blocksRem.isLt
    have hx : ((pending data s).take (16 * blocksReleased s (pending data s).length)).length
        = 16 * blocksReleased s (pending data s).length := by rw [List.length_take, min_eq_left hle]
    rw [procState_of_some hk]
    simp only [setWindow_payLen, setWindow_blocksRem, setWindow_ctr, pathState, setPath_payLen, setPath_blocksRem,
      setPath_ctr, hx, and_true]
    constructor
    · rw [BitVec.toNat_add, BitVec.toNat_ofNat]; omega
    · rw [BitVec.toNat_sub, BitVec.toNat_ofNat]; omega

/-- PROC leaves the registers of associated data, but for the snapshot it may take. -/
theorem procState_aad (data : Bytes) (s : State) :
    (procState data s).S_at = s.S_at ∧ (procState data s).atLen = s.atLen ∧ (procState data s).atBuf = s.atBuf ∧
      (procState data s).atPos = s.atPos ∧ (procState data s).macReg = s.macReg ∧ (procState data s).err = s.err := by
  by_cases hk : blocksReleased s (pending data s).length = 0
  · rw [procState_of_none hk]
    exact ⟨rfl, rfl, rfl, rfl, rfl, rfl⟩
  · rw [procState_of_some hk]
    simp [pathState]

/-- Where PROC releases a block the core is in STREAM, with the snapshot taken. -/
theorem procState_snapshot (data : Bytes) (s : State) :
    ((procState data s).st = s.st ∧ (procState data s).S_atPre = s.S_atPre ∧
      (procState data s).atLenPre = s.atLenPre ∧ blocksReleased s (pending data s).length = 0) ∨
    ((procState data s).st = .stream ∧ (procState data s).S_atPre = (ensureSnapshot s).S_atPre ∧
      (procState data s).atLenPre = (ensureSnapshot s).atLenPre ∧ 0 < blocksReleased s (pending data s).length) := by
  by_cases hk : blocksReleased s (pending data s).length = 0
  · rw [procState_of_none hk]
    exact .inl ⟨rfl, rfl, rfl, hk⟩
  · rw [procState_of_some hk]
    exact .inr ⟨by simp, by simp [pathState], by simp [pathState], Nat.pos_of_ne_zero hk⟩

theorem SessionFrame.windowCap_eq {t : State} (h : SessionFrame s t) : windowCap t = windowCap s := by
  rw [windowCap, h.dir_eq, h.macBytes_eq, windowCap]

theorem SessionFrame.payEff_eq {t : State} (h : SessionFrame s t) (n : Nat) : payEff t n = payEff s n := by
  rw [payEff, h.dir_eq, h.macBytes_eq, payEff]

/-- R85: in decryption a window that has let a block go, or held a tag before, still holds a tag. -/
theorem Inv.procState_held (h : Inv s) (hd : s.dir = false)
    (hk : 0 < blocksReleased s (pending data s).length ∨ s.macBytes.toNat ≤ s.bufPos.toNat) :
    s.macBytes.toNat ≤ (procState data s).bufPos.toNat := by
  obtain ⟨_, _, hpos⟩ := h.procState_window (data := data)
  obtain ⟨hle, _, _, hrel⟩ := blocksReleased_rest s (pending data s).length
  have hlen := h.length_pending (data := data)
  rw [payEff, hd, if_neg Bool.false_ne_true] at hrel
  omega

/-- R92: PROC within the ceiling keeps the invariants. -/
theorem Inv.procState (h : Inv s) (hs : inSession s) (hfit : payFits s data.length) : Inv (procState data s) := by
  have hframe := h.procState_sessionFrame hs hfit
  obtain ⟨_, hbuf, hpos⟩ := h.procState_window (data := data)
  obtain ⟨hpay, hrem, hctr⟩ := h.procState_progress hs hfit
  obtain ⟨hSat, hatLen, hatBuf, hatPos, hmacReg, herr⟩ := procState_aad data s
  obtain ⟨hle, hrest, _⟩ := blocksReleased_rest s (pending data s).length
  obtain ⟨hmod, hbudget, hcounter⟩ := h.progress hs
  have hk := h.blocksReleased_le hs hfit
  have hsnap := procState_snapshot data s
  have htotal : aadTotal (Machine.procState data s) = aadTotal s := aadTotal_congr hatLen hatPos
  have hst : inSession (Machine.procState data s) := by
    obtain ⟨hst, _⟩ | ⟨hst, _⟩ := hsnap
    · exact hs.imp hst.trans hst.trans
    · exact .inr hst
  have hnot : ¬((Machine.procState data s).st = .uninit ∨ (Machine.procState data s).st = .done ∨
      (Machine.procState data s).st = .failed) := by
    obtain hst | hst := hst <;> simp [hst]
  have hpre : (Machine.procState data s).atLenPre.toNat ≤ aadTotal s ∧
      ((Machine.procState data s).atLenPre = 0#64 → (Machine.procState data s).S_atPre = 0#128) := by
    obtain ⟨_, hS, hl, _⟩ | ⟨_, hS, hl, _⟩ := hsnap
    · rw [hS, hl]; exact ⟨h.snapshot_covers, h.snapshot_empty⟩
    · rw [hS, hl]; exact h.ensureSnapshot hs
  exact
  { h.configInv.of_sessionFrame hframe with
    atLen_blocks := by rw [hatLen]; exact h.atLen_blocks
    window := by rw [hframe.windowCap_eq, hpos]; exact hrest
    ready := fun hready => by
      obtain ⟨hst, _, _, hk0⟩ | ⟨hst, _⟩ := hsnap
      · have hn := h.ready (hst.symm.trans hready)
        rw [procState_of_none hk0]
        exact { hn with }
      · exact absurd (hst.symm.trans hready) (by decide)
    stream := fun hstream =>
      { whole_blocks := by rw [hpay]; omega
        one_block := by
          rw [hpay]
          obtain ⟨hst, _⟩ | ⟨_, _, _, hpos⟩ := hsnap
          · have := (h.stream (hst.symm.trans hstream)).one_block; omega
          · omega
        budget := by rw [hpay, hrem]; show _ = 2 ^ 32 - 2; omega
        counter := by
          have hdiv : (s.payLen.toNat + 16 * blocksReleased s (pending data s).length) / 16 =
              s.payLen.toNat / 16 + blocksReleased s (pending data s).length := by omega
          rw [hctr, hpay, hframe.J0_eq, hcounter, hdiv, inc32n_add]
        held := fun hd => by
          rw [hframe.macBytes_eq]
          rw [hframe.dir_eq] at hd
          refine h.procState_held hd ?_
          obtain ⟨hst, _⟩ | ⟨_, _, _, hpos⟩ := hsnap
          · exact .inr ((h.stream (hst.symm.trans hstream)).held hd)
          · exact .inl hpos }
    configured := fun _ => hframe.cfgv_eq.trans (h.cfgv_of_inSession hs)
    unconfigured := fun hu => absurd (.inl hu) hnot
    cleared := fun hc => absurd hc hnot
    macReg_zero := fun _ => by
      rw [hmacReg]
      exact h.macReg_zero (by obtain hs | hs := hs <;> simp [hs])
    ceiling := fun _ => by
      have hsum : s.payLen.toNat + 16 * blocksReleased s (pending data s).length +
          ((pending data s).length - 16 * blocksReleased s (pending data s).length) =
          s.payLen.toNat + s.bufPos.toNat + data.length := by
        have := h.length_pending (data := data)
        omega
      rw [htotal, hframe.payEff_eq, hpay, hpos, hsum]
      exact hfit
    atBuf_canonical := by
      rw [stagedBytes, hatBuf, hatPos]
      exact h.atBuf_canonical
    buf_canonical := hbuf
    snapshot_covers := by rw [htotal]; exact hpre.1
    snapshot_empty := hpre.2
    accumulator_empty := fun h0 => by
      rw [hSat]
      exact h.accumulator_empty (hatLen.symm.trans h0)
    err_failed := by
      have hok := herr.trans (h.err_of_inSession hs)
      exact ⟨fun hne => absurd hok hne, fun hf => absurd (.inr (.inr hf)) hnot⟩ }

end

/-! FINAL (R93). -/

/-- R93: within the ceiling FINAL's work can fail in the comparison of the tag only. -/
theorem Inv.finalWork_fails {s : State} {data : Bytes} (h : Inv s) (hs : inSession s) (hfit : payFits s data.length)
    {s' : State} {code : Status} (hw : finalWork data s = .fails s' code) : code = .authenticationFailed := by
  have hmac := h.macBytes_range.2
  by_cases hshort : s.dir = false ∧ (pending data s).length < s.macBytes.toNat
  · obtain ⟨hd, hlt⟩ := hshort
    obtain ⟨b, p, hfail⟩ := finalWork_short data s h.buf_canonical h.window hmac hd hlt
    rw [hfail] at hw
    cases hw
    rfl
  · obtain ⟨hceil, hbudget⟩ := h.payload_within_budget hs hfit
    have hlen : (finalPayload data s).length = payEff s (pending data s).length := by
      unfold finalPayload payEff
      split
      · rfl
      · rw [List.length_take, min_eq_left (Nat.sub_le ..)]
    rw [finalWork_eq data s h.buf_canonical h.window hmac (by rw [hlen]; exact hbudget) (by rw [hlen]; omega)
      (fun hd => not_lt.mp fun hlt => hshort ⟨hd, hlt⟩)] at hw
    split_ifs at hw
    cases hw
    rfl

end Sys2Proof.Machine

/-! PROOFS. Every command and every step (10_state.md R27): the invariants, and the associated data the registers hold. -/

namespace Sys2Proof.Machine

/-! The outcomes from a state that meets the invariants. -/

section
variable {s t : State} {data : Bytes}

/-- R90: INIT fails, or arms a session that meets the invariants and ingests its associated data. -/
theorem Inv.execInit_outcome {dir keyv : Bool} {macbits : BitVec 8} {key nonce aad : Bytes} (h : Inv s)
    (he : execInit dir keyv macbits key nonce aad s = .next t) :
    (∃ code, code ≠ .ok ∧ t = fail code s) ∨
    (Inv (Machine.initArmed dir keyv macbits key nonce s) ∧ aad.length ≤ 2 ^ 36 - 32 ∧
      t = Machine.respond .ok [] (Machine.aadState aad (Machine.initArmed dir keyv macbits key nonce s))) := by
  obtain hfail | ⟨hpass, rfl⟩ := Machine.execInit_outcome he
  · exact .inl hfail
  · obtain ⟨hlegal, _, hlen⟩ := initFailure_eq_none hpass
    have harmed : Inv (Machine.initArmed dir keyv macbits key nonce s) := h.initArmed hlegal
    exact .inr ⟨harmed, hlen, by rw [initCommit_eq, aadIngest_eq _ _ harmed.atBuf_canonical]⟩

/-- R91. -/
theorem Inv.execAad_outcome (h : Inv s) (he : execAad data s = .next t) :
    (∃ code, code ≠ .ok ∧ t = fail code s) ∨
    (inSession s ∧ aadFits s data.length ∧ t = Machine.respond .ok [] (Machine.aadState data s)) := by
  obtain hfail | ⟨hst, hfit, rfl⟩ := Machine.execAad_outcome he
  · exact .inl hfail
  · exact .inr ⟨hst.inSession, hfit, by rw [aadIngest_eq _ _ h.atBuf_canonical]⟩

/-- R92. -/
theorem Inv.execProc_outcome (h : Inv s) (he : execProc data s = .next t) :
    (∃ code, code ≠ .ok ∧ t = fail code s) ∨
    (inSession s ∧ payFits s data.length ∧ t = Machine.respond .ok (procOutput data s) (Machine.procState data s)) := by
  obtain hfail | ⟨hs, hfit, hwork⟩ := Machine.execProc_outcome he
  · exact .inl hfail
  · rw [h.absorb_eq hs hfit] at hwork
    obtain ⟨s', code, hw, _⟩ | ⟨s', out, hw, rfl⟩ := hwork
    · cases hw
    · cases hw
      exact .inr ⟨hs, hfit, rfl⟩

/-- R93: FINAL fails, in whatever state its work has come to, or ends the session. -/
theorem Inv.execFinal_outcome (h : Inv s) (he : execFinal data s = .next t) :
    (∃ s' code, SessionFrame s s' ∧ code ≠ .ok ∧ t = fail code s') ∨
    (∃ s' out tag, inSession s ∧ PathFrame s s' ∧ t = Machine.respond .ok out (endSession tag s')) := by
  have hframe := finalWork_frame data s
  obtain ⟨code, hcode, rfl⟩ | ⟨hs, hfit, ⟨s', code, hw, rfl⟩ | ⟨s', r, hw, rfl⟩⟩ := Machine.execFinal_outcome he
  · exact .inl ⟨s, code, .refl s, hcode, rfl⟩
  · rw [hw] at hframe
    have hcode : code = .authenticationFailed := h.finalWork_fails hs hfit hw
    exact .inl ⟨s', code, hframe.sessionFrame, by rw [hcode]; decide, rfl⟩
  · rw [hw] at hframe
    exact .inr ⟨s', r.1, r.2, hs, hframe, rfl⟩

end

theorem PathFrame.err_eq {s t : State} (h : PathFrame s t) : t.err = s.err := by
  unfold PathFrame at h
  rw [h]

/-! The invariants. -/

/-- R90: INIT's own associated data always fit its new session. -/
theorem initArmed_aadFits (dir keyv : Bool) (macbits : BitVec 8) (key nonce : Bytes) (s : State) {n : Nat}
    (h : n ≤ 2 ^ 36 - 32) : aadFits (initArmed dir keyv macbits key nonce s) n := by
  have hc := initArmed_cleared dir keyv macbits key nonce s
  simpa [aadFits, aadTotal, hc.atLen, hc.atPos, hc.payLen, hc.bufPos, payEff] using h

/-- R27: every command keeps the invariants. -/
theorem Inv.exec {i : Instr} {s t : State} (h : Inv s) (he : exec i s = .next t) : Inv t := by
  cases i with
  | init dir keyv macbits key nonce aad =>
    obtain ⟨code, hcode, rfl⟩ | ⟨harmed, hlen, rfl⟩ := h.execInit_outcome he
    · exact h.configInv.inv_fail hcode
    · exact (harmed.aadState (.inl rfl) (initArmed_aadFits dir keyv macbits key nonce s hlen)).respond _ _
  | aad data =>
    obtain ⟨code, hcode, rfl⟩ | ⟨hs, hfit, rfl⟩ := h.execAad_outcome he
    · exact h.configInv.inv_fail hcode
    · exact (h.aadState hs hfit).respond _ _
  | proc data =>
    obtain ⟨code, hcode, rfl⟩ | ⟨hs, hfit, rfl⟩ := h.execProc_outcome he
    · exact h.configInv.inv_fail hcode
    · exact (h.procState hs hfit).respond _ _
  | final data =>
    obtain ⟨s', code, hf, hcode, rfl⟩ | ⟨s', out, tag, hs, hf, rfl⟩ := h.execFinal_outcome he
    · exact (h.configInv.of_sessionFrame hf).inv_fail hcode
    · have hcfgv : s'.cfgv = true := hf.sessionFrame.cfgv_eq.trans (h.cfgv_of_inSession hs)
      have herr : s'.err = .ok := hf.err_eq.trans (h.err_of_inSession hs)
      exact ((h.configInv.of_sessionFrame hf.sessionFrame).inv_endSession tag hcfgv herr).respond _ _
  | getmac => cases he; exact h.respond _ _
  | reset => cases he; exact h.resetSession.respond _ _
  | outsz len => cases he; exact h.respond _ _
  | updsz len => cases he; exact h.respond _ _

/-- What a step can do: hardware reset, nothing, an illegal descriptor's failure, or one command. -/
theorem step_outcome {s t : State} (h : step s = .next t) :
    (s.resetIn = true ∧ t = hardwareReset s) ∨
    (s.resetIn = false ∧
      ((fetch s = .empty ∧ t = s) ∨
        (∃ reason rest, fetch s = .illegal reason rest ∧ t = fail .invalidParameter { s with chan := rest }) ∨
        ∃ i rest, fetch s = .command i rest ∧ exec i { s with chan := rest } = .next t)) := by
  unfold step runNext at h
  by_cases hr : s.resetIn = true
  · rw [if_pos hr] at h; cases h; exact .inl ⟨hr, rfl⟩
  · rw [if_neg hr] at h
    refine .inr ⟨Bool.eq_false_of_not_eq_true hr, ?_⟩
    cases hf : fetch s with
    | empty => rw [hf] at h; cases h; exact .inl ⟨rfl, rfl⟩
    | shortDescriptor => rw [hf] at h; cases h
    | shortData header => rw [hf] at h; cases h
    | illegal reason rest => rw [hf] at h; cases h; exact .inr (.inl ⟨reason, rest, rfl, rfl⟩)
    | command i rest => rw [hf] at h; exact .inr (.inr ⟨i, rest, rfl, h⟩)

/-- Settles O14: hardware reset meets the invariants whatever was before, a failure and a command keep them. -/
theorem stepKeepsInvariant : Obligations.StepKeepsInvariant := by
  intro s t h hstep
  obtain ⟨_, rfl⟩ | ⟨_, ⟨_, rfl⟩ | ⟨reason, rest, _, rfl⟩ | ⟨i, rest, _, he⟩⟩ := step_outcome hstep
  · exact inv_hardwareReset s
  · exact h
  · exact (h.of_channels rest s.resp s.port s.resetIn).configInv.inv_fail (by decide)
  · exact (h.of_channels rest s.resp s.port s.resetIn).exec he

/-! The session's associated data (R27 item 12, second sentence). -/

theorem HoldsAad.respond {a : Bytes} {s : State} (h : HoldsAad a s) (code : Status) (d : Bytes) :
    HoldsAad a (respond code d s) :=
  h.congr rfl rfl rfl rfl rfl fun hst => ⟨hst, rfl, rfl⟩

theorem mulH_of_inv {s : State} (h : Inv s) : mulH s = fun x => gfMul x s.H := mulH_eq_gfMul h.tables

/-- R91: associated data within the ceiling are appended. -/
theorem HoldsAad.aadState {a : Bytes} {s : State} (ha : HoldsAad a s) (h : Inv s) {data : Bytes}
    (hfit : aadFits s data.length) : HoldsAad (a ++ data) (aadState data s) := by
  have hlt : aadTotal s + data.length < 2 ^ 64 := by
    have := le_trans (Nat.le_add_right ..) hfit
    omega
  exact ha.aadState_append data (mulH_of_inv h) h.atLen_blocks hlt h.snapshot_covers

/-- R83: the snapshot, taken or to be taken, is of the same associated data. -/
theorem HoldsAad.ensureSnapshot {a : Bytes} {s : State} (ha : HoldsAad a s) (h : Inv s) (hs : inSession s) :
    HoldsAad a (ensureSnapshot s) := by
  by_cases hst : s.st = .stream
  · rw [ensureSnapshot_of_stream hst]
    exact ha
  · have hle := h.aadTotal_le hs
    rw [Machine.ensureSnapshot, if_neg hst]
    exact ha.snapshot_keeps (mulH_of_inv h) h.atLen_blocks (by omega)

/-- R92: PROC leaves the associated data. -/
theorem HoldsAad.procState {a : Bytes} {s : State} (ha : HoldsAad a s) (h : Inv s) (hs : inSession s) {data : Bytes}
    (hfit : payFits s data.length) : HoldsAad a (procState data s) := by
  have hH := (h.procState_sessionFrame hs hfit).H_eq
  obtain ⟨hSat, hatLen, hatBuf, hatPos, _⟩ := procState_aad data s
  obtain ⟨hst, hS, hl, _⟩ | ⟨_, hS, hl, _⟩ := procState_snapshot data s
  · exact ha.congr hH hSat hatLen hatBuf hatPos fun hstream => ⟨hst.symm.trans hstream, hS, hl⟩
  · have hsnap := ha.ensureSnapshot h hs
    exact hsnap.congr (hH.trans (ensureSnapshot_H s).symm) (hSat.trans (ensureSnapshot_S_at s).symm)
      (hatLen.trans (ensureSnapshot_atLen s).symm) (hatBuf.trans (ensureSnapshot_atBuf s).symm)
      (hatPos.trans (ensureSnapshot_atPos s).symm) fun _ => ⟨ensureSnapshot_st s, hS, hl⟩

/-- The session's associated data after a command that answers OK (R90 to R97): `sessionAadAfter` where it does. -/
def aadAfterOk : Instr → Bytes → Bytes
  | .init _ _ _ _ _ aad, _ => aad
  | .aad data, a => a ++ data
  | .final _, _ => []
  | .reset, _ => []
  | .proc _, a => a
  | .getmac, a => a
  | .outsz _, a => a
  | .updsz _, a => a

theorem sessionAadAfter_of_ok (i : Instr) {t : State} (hok : lastStatus t = some .ok) (a : Bytes) :
    sessionAadAfter i t a = aadAfterOk i a := by
  unfold sessionAadAfter
  rw [if_pos hok]
  cases i <;> rfl

theorem sessionAadAfter_respond (i : Instr) (d : Bytes) (s : State) (a : Bytes) :
    sessionAadAfter i (respond .ok d s) a = aadAfterOk i a :=
  sessionAadAfter_of_ok i (lastStatus_respond .ok d s) a

theorem sessionAadAfter_fail (i : Instr) {code : Status} (hcode : code ≠ .ok) (s : State) (a : Bytes) :
    sessionAadAfter i (fail code s) a = [] := by
  unfold sessionAadAfter
  rw [lastStatus_fail, if_neg fun hok => hcode (Option.some.inj hok)]

/-- R90: INIT starts the session's associated data anew, whatever the registers held before. -/
theorem Inv.holdsAad_init {dir keyv : Bool} {macbits : BitVec 8} {key nonce aad : Bytes} {s t : State} (h : Inv s)
    (he : Machine.exec (.init dir keyv macbits key nonce aad) s = .next t) (a : Bytes) :
    HoldsAad (sessionAadAfter (.init dir keyv macbits key nonce aad) t a) t := by
  obtain ⟨code, hcode, rfl⟩ | ⟨harmed, hlen, rfl⟩ := h.execInit_outcome he
  · rw [sessionAadAfter_fail _ hcode]
    exact holdsAad_fail code s
  · have hempty := (initArmed_cleared dir keyv macbits key nonce s).holdsAad
    have hfit := initArmed_aadFits dir keyv macbits key nonce s hlen
    rw [sessionAadAfter_respond]
    exact (hempty.aadState harmed hfit).respond _ _

/-- R27 item 12: every command keeps the registers those of the session's associated data. -/
theorem HoldsAad.exec {a : Bytes} {i : Instr} {s t : State} (ha : HoldsAad a s) (h : Inv s)
    (he : exec i s = .next t) : HoldsAad (sessionAadAfter i t a) t := by
  cases i with
  | init dir keyv macbits key nonce aad => exact h.holdsAad_init he a
  | aad data =>
    obtain ⟨code, hcode, rfl⟩ | ⟨_, hfit, rfl⟩ := h.execAad_outcome he
    · rw [sessionAadAfter_fail _ hcode]; exact holdsAad_fail code s
    · rw [sessionAadAfter_respond]; exact (ha.aadState h hfit).respond _ _
  | proc data =>
    obtain ⟨code, hcode, rfl⟩ | ⟨hs, hfit, rfl⟩ := h.execProc_outcome he
    · rw [sessionAadAfter_fail _ hcode]; exact holdsAad_fail code s
    · rw [sessionAadAfter_respond]; exact (ha.procState h hs hfit).respond _ _
  | final data =>
    obtain ⟨s', code, _, hcode, rfl⟩ | ⟨s', out, tag, _, _, rfl⟩ := h.execFinal_outcome he
    · rw [sessionAadAfter_fail _ hcode]; exact holdsAad_fail code s'
    · have hcleared : SessionCleared (endSession tag s') := by constructor <;> rfl
      rw [sessionAadAfter_respond]; exact hcleared.holdsAad.respond _ _
  | reset => cases he; rw [sessionAadAfter_respond]; exact (resetSession_cleared s).holdsAad.respond _ _
  | getmac => cases he; rw [sessionAadAfter_respond]; exact ha.respond _ _
  | outsz len => cases he; rw [sessionAadAfter_respond]; exact ha.respond _ _
  | updsz len => cases he; rw [sessionAadAfter_respond]; exact ha.respond _ _

/-- Settles O59: a reset or an illegal descriptor clears the session; a command is `HoldsAad.exec`. -/
theorem snapshotHashesSessionAad : Obligations.SnapshotHashesSessionAad := by
  intro a s t h ha hstep
  obtain ⟨hr, rfl⟩ | ⟨hr, ⟨hf, rfl⟩ | ⟨reason, rest, hf, rfl⟩ | ⟨i, rest, hf, he⟩⟩ := step_outcome hstep
  · have hcleared : SessionCleared (hardwareReset s) := by constructor <;> rfl
    rw [stepAadAfter, if_pos hr]
    exact hcleared.holdsAad
  all_goals
    rw [stepAadAfter, hr, if_neg Bool.false_ne_true, hf]
  · exact ha
  · exact holdsAad_fail _ _
  · have ha' : HoldsAad a { s with chan := rest } := ha.congr rfl rfl rfl rfl rfl fun hst => ⟨hst, rfl, rfl⟩
    exact ha'.exec (h.of_channels rest s.resp s.port s.resetIn) he

/-! A run of commands that all answer OK. -/

theorem runOk_cons {i : Instr} {rest : List Instr} {s t : State} (h : runOk (i :: rest) s = some t) :
    ∃ u, exec i s = .next u ∧ lastStatus u = some .ok ∧ runOk rest u = some t := by
  obtain ⟨u, hu⟩ := exec_next i s
  rw [runOk, hu] at h
  dsimp only at h
  split_ifs at h with hok
  exact ⟨u, hu, hok, h⟩

/-- R91, R92: AAD and PROC add what they carry to the session's associated data. -/
theorem sessionAadAfter_streaming {i : Instr} {t : State} (hi : isStreaming i = true) (hok : lastStatus t = some .ok)
    (a : Bytes) : sessionAadAfter i t a = a ++ aadOf i := by
  rw [sessionAadAfter_of_ok i hok]
  cases i with
  | aad data => rfl
  | proc data => exact (List.append_nil a).symm
  | _ => cases hi

theorem HoldsAad.runOk {between : List Instr} {a : Bytes} {s t : State} (ha : HoldsAad a s) (h : Inv s)
    (hb : ∀ i ∈ between, isStreaming i = true) (hrun : runOk between s = some t) :
    Inv t ∧ HoldsAad (a ++ between.flatMap aadOf) t := by
  induction between generalizing a s with
  | nil =>
    cases hrun
    exact ⟨h, by simpa using ha⟩
  | cons i rest ih =>
    obtain ⟨u, he, hok, hrest⟩ := runOk_cons hrun
    have hu := ha.exec h he
    rw [sessionAadAfter_streaming (hb i List.mem_cons_self) hok] at hu
    rw [List.flatMap_cons, ← List.append_assoc]
    exact ih hu (h.exec he) (fun j hj => hb j (List.mem_cons_of_mem i hj)) hrest

/-- Settles O60: by induction over the commands between, from the session INIT starts. -/
theorem sessionHashesItsAad : Obligations.SessionHashesItsAad := by
  intro dir keyv macbits key nonce aad between s t h hb hrun
  obtain ⟨u, he, hok, hrest⟩ := runOk_cons hrun
  have hstart : HoldsAad aad u := by
    have hu := h.holdsAad_init he []
    rwa [sessionAadAfter_of_ok _ hok] at hu
  obtain ⟨hinv, hold⟩ := hstart.runOk (h.exec he) hb hrest
  refine ⟨hold.total, ?_, fun hst => ⟨hold.total ▸ hinv.snapshot_covers, hold.snapshot hst⟩⟩
  rw [finalAadHash_eq (mulH_of_inv hinv), hold.hash_eq hinv.atLen_blocks]

end Sys2Proof.Machine

/-! PROOFS. Taking a command off the channel (20_memory.md R31, R36): what the host's encoding of a command decodes to, and
what a step then runs. -/

namespace Sys2Proof

/-! When a command that carries data is well-formed (30_encoding.md R42, R45 (e)). -/

theorem wellFormed_init_iff (dir keyv : Bool) (macbits : BitVec 8) (key nonce aad : Bytes) :
    WellFormed (.init dir keyv macbits key nonce aad) ↔
      (keyv = false → key = []) ∧ lengthFits key = true ∧ lengthFits nonce = true ∧ lengthFits aad = true := by
  have hcarries : (!keyv && !key.isEmpty) = false ↔ (keyv = false → key = []) := by
    cases keyv <;> simp
  rw [← hcarries]
  simp only [WellFormed, illFormed]
  split_ifs <;> simp_all

theorem wellFormed_aad_iff (data : Bytes) : WellFormed (.aad data) ↔ lengthFits data = true := by
  simp [WellFormed, illFormed]

theorem wellFormed_proc_iff (data : Bytes) : WellFormed (.proc data) ↔ lengthFits data = true := by
  simp [WellFormed, illFormed]

theorem wellFormed_final_iff (data : Bytes) : WellFormed (.final data) ↔ lengthFits data = true := by
  simp [WellFormed, illFormed]

/-! The header a command's descriptor decodes to (R46). -/

/-- What the descriptor of a command announces (R42). -/
def announcedHeader : Instr → Header
  | .init dir keyv macbits key nonce aad =>
    .init dir keyv macbits (lengthWord nonce) (lengthWord key) (lengthWord aad)
  | .aad data => .aad (lengthWord data)
  | .proc data => .proc (lengthWord data)
  | .final data => .final (lengthWord data)
  | .getmac => .getmac
  | .reset => .reset
  | .outsz len => .outsz len
  | .updsz len => .updsz len

/-- R45 (e) is the only check that an INIT descriptor can fail. -/
theorem decodeDescriptor_init (dir keyv : Bool) (macbits : BitVec 8) (nlen klen alen : Word)
    (hkey : keyv = false → klen = 0#32) :
    decodeDescriptor ⟨encodeW0 1 dir keyv macbits, nlen, klen, alen⟩ = .ok (.init dir keyv macbits nlen klen alen) := by
  have hklen : ¬(keyv = false ∧ ¬klen = 0#32) := fun ⟨hv, hne⟩ => hne (hkey hv)
  simp [decodeDescriptor, fieldOp_encodeW0, fieldRsv_encodeW0, fieldDir_encodeW0, fieldKeyv_encodeW0,
    fieldMacbits_encodeW0, hklen]

/-- R45 (c): the descriptors of the other commands have their unused fields zero. -/
theorem unusedFieldSet_plain (op : Nat) (len : Word) (h : op < 16) :
    unusedFieldSet ⟨encodeW0 op false false 0#8, len, 0#32, 0#32⟩ = false := by
  simp [unusedFieldSet, fieldDir_encodeW0 _ _ _ _ h, fieldKeyv_encodeW0 _ _ _ _ h, fieldMacbits_encodeW0 _ _ _ _ h]

theorem decodeDescriptor_encodeDescriptor {i : Instr} (h : WellFormed i) :
    decodeDescriptor (encodeDescriptor i) = .ok (announcedHeader i) := by
  cases i with
  | init dir keyv macbits key nonce aad =>
    obtain ⟨hkey, _⟩ := (wellFormed_init_iff ..).mp h
    exact decodeDescriptor_init _ _ _ _ _ _ fun hv => by rw [hkey hv]; rfl
  | aad w | proc w | final w | outsz w | updsz w =>
    simp [decodeDescriptor, encodeDescriptor, opcode, fieldOp_encodeW0, fieldRsv_encodeW0, unusedFieldSet_plain,
      announcedHeader]
  | getmac | reset => rfl

/-! The data behind the descriptor (R43). -/

/-- R43: a header announces as many bytes as the command carries. -/
theorem headerDlen_announcedHeader {i : Instr} (h : WellFormed i) :
    headerDlen (announcedHeader i) = (commandData i).length := by
  cases i with
  | init dir keyv macbits key nonce aad =>
    obtain ⟨_, hkey, hnonce, haad⟩ := (wellFormed_init_iff ..).mp h
    simp only [announcedHeader, headerDlen, commandData, toNat_lengthWord _ hkey, toNat_lengthWord _ hnonce,
      toNat_lengthWord _ haad, List.length_append]
  | aad data => exact toNat_lengthWord _ ((wellFormed_aad_iff data).mp h)
  | proc data => exact toNat_lengthWord _ ((wellFormed_proc_iff data).mp h)
  | final data => exact toNat_lengthWord _ ((wellFormed_final_iff data).mp h)
  | getmac | reset | outsz len | updsz len => rfl

/-- R43, R52: the header and the data give the command back. -/
theorem attachData_announcedHeader {i : Instr} (h : WellFormed i) :
    attachData (announcedHeader i) (commandData i) = i := by
  cases i with
  | init dir keyv macbits key nonce aad =>
    obtain ⟨_, hkey, hnonce, haad⟩ := (wellFormed_init_iff ..).mp h
    simp [announcedHeader, attachData, commandData, toNat_lengthWord _ hkey, toNat_lengthWord _ hnonce,
      toNat_lengthWord _ haad]
  | aad data =>
    simp [announcedHeader, attachData, commandData, toNat_lengthWord _ ((wellFormed_aad_iff data).mp h)]
  | proc data =>
    simp [announcedHeader, attachData, commandData, toNat_lengthWord _ ((wellFormed_proc_iff data).mp h)]
  | final data =>
    simp [announcedHeader, attachData, commandData, toNat_lengthWord _ ((wellFormed_final_iff data).mp h)]
  | getmac | reset | outsz len | updsz len => rfl

/-- What `decode` does with 16 bytes of a legal descriptor and at least the data it announces. -/
theorem decode_descriptorBytes {d : Descriptor} {header : Header} (hd : decodeDescriptor d = .ok header)
    {data : Bytes} (hlen : headerDlen header = data.length) (rest : Bytes) :
    decode (descriptorBytes d ++ data ++ rest) = .command (attachData header data) rest := by
  have hd16 : (descriptorBytes d).length = 16 := length_descriptorBytes d
  have hempty : (descriptorBytes d ++ (data ++ rest)).isEmpty = false := by
    rw [List.isEmpty_eq_false_iff_exists_mem]
    exact ⟨(descriptorBytes d)[0], by simp⟩
  have hdrop : (descriptorBytes d ++ (data ++ rest)).drop 16 = data ++ rest := List.drop_left' hd16
  rw [List.append_assoc, decode, hempty, if_neg Bool.false_ne_true, if_neg (by simp), parseDescriptor_append, hd]
  simp only [hlen]
  rw [if_neg (by simp), hdrop, List.take_left, ← List.drop_drop, hdrop, List.drop_left]

/-- R40, R43: the bytes of a well-formed command decode to it, whatever follows. -/
theorem decode_encode {i : Instr} (h : WellFormed i) (rest : Bytes) : decode (encode i ++ rest) = .command i rest := by
  rw [encode, decode_descriptorBytes (decodeDescriptor_encodeDescriptor h) (headerDlen_announcedHeader h),
    attachData_announcedHeader h]

end Sys2Proof

namespace Sys2Proof.Machine

/-- R31, R36: with the reset input not asserted, a step runs the command its fetch finds. -/
theorem step_of_fetch_command {s : State} {i : Instr} {rest : Bytes} (hr : s.resetIn = false)
    (hf : fetch s = .command i rest) : step s = exec i { s with chan := rest } := by
  rw [step, runNext, if_neg (by simp [hr]), hf]
  rfl

/-- Settles O10: the second part is the first, by the round trip of the encoding. -/
theorem stepRunsDecodedCommand : Obligations.StepRunsDecodedCommand := by
  refine ⟨fun s i rest hr hd => step_of_fetch_command hr hd, fun s i rest hr hw hchan => ?_⟩
  have hdecode : decode s.chan = .command i rest := by rw [hchan, decode_encode hw]
  exact step_of_fetch_command hr hdecode

end Sys2Proof.Machine

/-! PROOFS. The calls on the cipher port (20_memory.md R33), by command, and the counter values they carry. -/

namespace Sys2Proof.Machine

/-! The counter (42_counter.md R76): its last four bytes count modulo 2^32, so no value comes back within a session. -/

theorem inc32_low (c : Block) : (inc32 c).extractLsb' 0 32 = c.extractLsb' 0 32 + 1#32 := by
  rw [inc32, BitVec.extractLsb'_append_eq_of_add_le (Nat.le_refl 32), BitVec.extractLsb'_eq_self]

theorem inc32n_low (n : Nat) (c : Block) : (inc32n n c).extractLsb' 0 32 = c.extractLsb' 0 32 + BitVec.ofNat 32 n := by
  induction n generalizing c with
  | zero => exact (BitVec.add_zero _).symm
  | succ n ih => rw [inc32n, ih, inc32_low, Nat.add_comm n 1, BitVec.ofNat_add, BitVec.add_assoc]

/-- R77: counter values less than 2^32 apart differ. -/
theorem inc32n_ne {j k : Nat} (c : Block) (hjk : j < k) (hk : k < 2 ^ 32) : inc32n j c ≠ inc32n k c := by
  intro heq
  have hlow := congrArg (BitVec.extractLsb' 0 32) heq
  rw [inc32n_low, inc32n_low, BitVec.add_right_inj] at hlow
  have hnat := congrArg BitVec.toNat hlow
  rw [BitVec.toNat_ofNat, BitVec.toNat_ofNat] at hnat
  omega

theorem mem_keystreamEvents {n : Nat} {c : Block} {e : PortEvent} :
    e ∈ keystreamEvents n c ↔ ∃ i < n, e = .enc (inc32n (i + 1) c) := by
  simp [keystreamEvents, eq_comm]

/-- R33, R78: with the budget that is left the counter never comes back to `J0`. -/
theorem Inv.J0_not_keystream {s : State} (h : Inv s) (hs : inSession s) {n : Nat} (hn : n ≤ s.blocksRem.toNat) :
    .enc s.J0 ∉ keystreamEvents n s.ctr := by
  obtain ⟨_, hbudget, hctr⟩ := h.progress hs
  rw [mem_keystreamEvents]
  rintro ⟨i, hi, heq⟩
  rw [hctr, ← inc32n_add, PortEvent.enc.injEq] at heq
  exact inc32n_ne s.J0 (j := 0) (by omega) (by omega) heq

/-! INIT and AAD (43_engine_commands.md R90, R91). -/

@[simp] theorem aadIngestByte_port (s : State) (b : Byte) : (aadIngestByte s b).port = s.port := by
  unfold aadIngestByte
  dsimp only
  split <;> exact setAad_port ..

/-- No GHASH operation touches the port. -/
@[simp] theorem aadIngest_port (data : Bytes) (s : State) : (aadIngest data s).port = s.port := by
  induction data generalizing s with
  | nil => rfl
  | cons b rest ih => exact (ih (aadIngestByte s b)).trans (aadIngestByte_port s b)

@[simp] theorem initArmed_port (dir keyv : Bool) (macbits : BitVec 8) (key nonce : Bytes) (s : State) :
    (initArmed dir keyv macbits key nonce s).port = (initKey keyv key s).port := by
  rw [initArmed_eq]; rfl

@[simp] theorem initCommit_port (dir keyv : Bool) (macbits : BitVec 8) (key nonce aad : Bytes) (s : State) :
    (initCommit dir keyv macbits key nonce aad s).port = (initKey keyv key s).port := by
  rw [initCommit_eq, aadIngest_port, initArmed_port]

theorem loadNewKey_port (key : Bytes) (s : State) : (loadNewKey key s).port = s.port ++ [.load key, .enc 0#128] := by
  simp [loadNewKey]

theorem execInit_port {dir keyv : Bool} {macbits : BitVec 8} {key nonce aad : Bytes} {s t : State}
    (he : execInit dir keyv macbits key nonce aad s = .next t) :
    (lastStatus t = some .ok → ChangesKey keyv key s → t.port = s.port ++ [.load key, .enc 0#128]) ∧
    (lastStatus t ≠ some .ok ∨ ¬ChangesKey keyv key s → t.port = s.port) := by
  obtain ⟨code, hcode, rfl⟩ | ⟨_, rfl⟩ := execInit_outcome he
  · simp [hcode]
  · rw [lastStatus_respond, respond_port, initCommit_port]
    refine ⟨fun _ hchange => ?_, fun hkept => ?_⟩
    · rw [initKey_of_changed hchange, loadNewKey_port]
    · obtain hne | hkept := hkept
      · exact absurd rfl hne
      · rw [initKey_of_kept hkept]

theorem execAad_port {data : Bytes} {s t : State} (he : execAad data s = .next t) : t.port = s.port := by
  obtain ⟨code, _, rfl⟩ | ⟨_, _, rfl⟩ := execAad_outcome he
  · exact fail_port ..
  · rw [respond_port, aadIngest_port]

@[simp] theorem resetSession_port (s : State) : (resetSession s).port = s.port := by
  unfold resetSession
  split <;> rfl

/-! PROC (R92). -/

theorem procState_port (data : Bytes) (s : State) :
    (procState data s).port = s.port ++ keystreamEvents (blocksReleased s (pending data s).length) s.ctr := by
  by_cases hk : blocksReleased s (pending data s).length = 0
  · rw [procState_of_none hk, hk, keystreamEvents_zero, List.append_nil, setWindow_port]
  · rw [procState_of_some hk, setWindow_port, pathState, setPath_port]

section
variable {s t : State} {data : Bytes}

theorem Inv.execProc_port (h : Inv s) (he : execProc data s = .next t) :
    (lastStatus t = some .ok →
      t.port = s.port ++ keystreamEvents (blocksReleased s (s.bufPos.toNat + data.length)) s.ctr) ∧
    (lastStatus t ≠ some .ok → t.port = s.port) := by
  obtain ⟨code, hcode, rfl⟩ | ⟨_, _, rfl⟩ := h.execProc_outcome he
  · simp [hcode]
  · simp [procState_port, h.length_pending]

/-! FINAL (R93). -/

theorem payFailure_code {code : Status} (h : payFailure data s = some code) :
    code = .invalidState ∨ code = .inputTooLarge := by
  unfold payFailure at h
  split_ifs at h <;> cases h
  · exact .inl rfl
  · exact .inr rfl

/-- R82, R93: in decryption the tag behind the payload does not count. -/
theorem length_finalPayload (data : Bytes) (s : State) :
    (finalPayload data s).length = payEff s (pending data s).length := by
  unfold finalPayload payEff
  split
  · rfl
  · rw [List.length_take, min_eq_left (Nat.sub_le ..)]

/-- R93: `finalWork_eq` within the ceiling, where the budget lasts. -/
theorem Inv.finalWork_eq (h : Inv s) (hs : inSession s) (hfit : payFits s data.length)
    (htag : s.dir = false → s.macBytes.toNat ≤ s.bufPos.toNat + data.length) :
    finalWork data s =
      if s.dir = true then
        .done (finalState data (finalPayload data s) s)
          (gctr (cipherE s) s.ctr (finalPayload data s) ++ finalTag (finalPayload data s) s,
            finalTag (finalPayload data s) s)
      else if finalTag (finalPayload data s) s = finalReceived data s then
        .done (finalState data (finalPayload data s) s)
          (gctr (cipherE s) s.ctr (finalPayload data s), finalTag (finalPayload data s) s)
      else .fails (finalState data (finalPayload data s) s) .authenticationFailed := by
  obtain ⟨hceil, hbudget⟩ := h.payload_within_budget hs hfit
  rw [← length_finalPayload] at hceil hbudget
  exact Machine.finalWork_eq data s h.buf_canonical h.window h.macBytes_range.2 hbudget (by omega)
    (by rwa [h.length_pending])

/-- What FINAL answers (R93): a check fails; a decryption stream is shorter than a tag; or the tag is computed, with all its
calls on the port, and then, in decryption, it may not be the one received. -/
theorem Inv.execFinal_answer (h : Inv s) (he : execFinal data s = .next t) :
    (∃ code, (code = .invalidState ∨ code = .inputTooLarge) ∧ t = fail code s) ∨
    (s.dir = false ∧ s.bufPos.toNat + data.length < s.macBytes.toNat ∧ t = fail .authenticationFailed s) ∨
    (∃ out tag, t = Machine.respond .ok out (endSession tag (portCalls (finalEvents (finalPayload data s) s) s))) ∨
    (s.dir = false ∧ s.macBytes.toNat ≤ s.bufPos.toNat + data.length ∧
      t = fail .authenticationFailed (portCalls (finalEvents (finalPayload data s) s) s)) := by
  unfold execFinal at he
  cases hf : payFailure data s with
  | some code => rw [hf] at he; cases he; exact .inl ⟨code, payFailure_code hf, rfl⟩
  | none =>
    obtain ⟨hs, hfit⟩ := (payFailure_eq_none_iff data s).mp hf
    rw [hf] at he
    refine .inr ?_
    by_cases hshort : s.dir = false ∧ s.bufPos.toNat + data.length < s.macBytes.toNat
    · obtain ⟨hd, hlt⟩ := hshort
      obtain ⟨b, p, hw⟩ := finalWork_short data s h.buf_canonical h.window h.macBytes_range.2 hd
        (by rwa [h.length_pending])
      rw [hw] at he; cases he
      exact .inl ⟨hd, hlt, fail_setWindow ..⟩
    · have htag : s.dir = false → s.macBytes.toNat ≤ s.bufPos.toNat + data.length :=
        fun hd => not_lt.mp fun hlt => hshort ⟨hd, hlt⟩
      rw [h.finalWork_eq hs hfit htag] at he
      refine .inr ?_
      split_ifs at he with hd hmatch
      · cases he; exact .inl ⟨_, _, by rw [endSession_finalState]⟩
      · cases he; exact .inl ⟨_, _, by rw [endSession_finalState]⟩
      · cases he
        have hd := Bool.eq_false_of_not_eq_true hd
        exact .inr ⟨hd, htag hd, fail_finalState ..⟩

theorem Inv.execFinal_port (h : Inv s) (he : execFinal data s = .next t) :
    (lastStatus t = some .ok ∨
        (lastStatus t = some .authenticationFailed ∧ s.macBytes.toNat ≤ s.bufPos.toNat + data.length) →
      t.port = s.port ++ keystreamEvents (blocksOf (finalPayload data s).length) s.ctr ++ [.enc s.J0]) ∧
    (lastStatus t = some .invalidState ∨ lastStatus t = some .inputTooLarge ∨
        (lastStatus t = some .authenticationFailed ∧ s.bufPos.toNat + data.length < s.macBytes.toNat) →
      t.port = s.port) := by
  obtain ⟨code, rfl | rfl, rfl⟩ | ⟨_, hshort, rfl⟩ | ⟨out, tag, rfl⟩ | ⟨_, hfull, rfl⟩ := h.execFinal_answer he
  · simp
  · simp
  · simp [hshort]
  · simp [finalEvents]
  · simp [finalEvents, hfull]

end

/-- Settles O39: by command, then the counter values of a session. -/
theorem cipherPortTrace : Obligations.CipherPortTrace := by
  refine ⟨fun i s t h he => ?_, fun s n h hs hn => h.J0_not_keystream hs hn⟩
  cases i with
  | init dir keyv macbits key nonce aad => exact execInit_port he
  | aad data => exact execAad_port he
  | proc data => exact h.execProc_port he
  | final data => exact h.execFinal_port he
  | reset => cases he; rw [respond_port, resetSession_port]
  | getmac | outsz len | updsz len => cases he; exact respond_port ..

end Sys2Proof.Machine

/-! PROOFS. Descriptors read backwards (30_encoding.md R41 to R46): what a legal one announces fixes its four words, and a
decoded command fixes its bytes. -/

namespace Sys2Proof

/-! The fields of `W0` in the arithmetic of the word (R41). -/

theorem fieldOp_toNat (w : Word) : (fieldOp w).toNat = w.toNat / 2 ^ 28 := by
  have hw := w.isLt
  rw [fieldOp, BitVec.extractLsb'_toNat, Nat.shiftRight_eq_div_pow]
  omega

theorem fieldRsv_toNat (w : Word) : (fieldRsv w).toNat = w.toNat / 2 ^ 8 % 2 ^ 18 := by
  rw [fieldRsv, BitVec.extractLsb'_toNat, Nat.shiftRight_eq_div_pow]

theorem fieldMacbits_toNat (w : Word) : (fieldMacbits w).toNat = w.toNat % 2 ^ 8 := by
  rw [fieldMacbits, BitVec.extractLsb'_toNat, Nat.shiftRight_zero]

theorem fieldDir_toNat (w : Word) : (fieldDir w).toNat = w.toNat / 2 ^ 27 % 2 := by
  rw [fieldDir, BitVec.getLsbD, Nat.toNat_testBit]

theorem fieldKeyv_toNat (w : Word) : (fieldKeyv w).toNat = w.toNat / 2 ^ 26 % 2 := by
  rw [fieldKeyv, BitVec.getLsbD, Nat.toNat_testBit]

/-- R41's equation. -/
theorem word_eq_fields (w : Word) :
    w.toNat = (fieldOp w).toNat * 2 ^ 28 + (fieldDir w).toNat * 2 ^ 27 + (fieldKeyv w).toNat * 2 ^ 26
      + (fieldRsv w).toNat * 2 ^ 8 + (fieldMacbits w).toNat := by
  rw [fieldOp_toNat, fieldDir_toNat, fieldKeyv_toNat, fieldRsv_toNat, fieldMacbits_toNat]
  omega

/-- A `W0` with `RSV` zero is put together again from its other fields. -/
theorem encodeW0_fields {w : Word} (hrsv : fieldRsv w = 0#18) :
    encodeW0 (fieldOp w).toNat (fieldDir w) (fieldKeyv w) (fieldMacbits w) = w := by
  have hw := word_eq_fields w
  have hop : (fieldOp w).toNat < 16 := (fieldOp w).isLt
  rw [hrsv, BitVec.toNat_zero] at hw
  apply BitVec.eq_of_toNat_eq
  rw [toNat_encodeW0 _ _ _ _ hop]
  omega

/-! What a legal descriptor announces (R42, R44, R46). -/

/-- The descriptor that announces a header: the inverse of `decodeDescriptor`. -/
def headerDescriptor : Header → Descriptor
  | .init dir keyv macbits nlen klen alen => ⟨encodeW0 1 dir keyv macbits, nlen, klen, alen⟩
  | .aad len => ⟨encodeW0 2 false false 0#8, len, 0#32, 0#32⟩
  | .proc len => ⟨encodeW0 3 false false 0#8, len, 0#32, 0#32⟩
  | .final len => ⟨encodeW0 4 false false 0#8, len, 0#32, 0#32⟩
  | .getmac => ⟨encodeW0 5 false false 0#8, 0#32, 0#32, 0#32⟩
  | .reset => ⟨encodeW0 6 false false 0#8, 0#32, 0#32, 0#32⟩
  | .outsz len => ⟨encodeW0 7 false false 0#8, len, 0#32, 0#32⟩
  | .updsz len => ⟨encodeW0 8 false false 0#8, len, 0#32, 0#32⟩

/-- R45 (e): a header that keeps the loaded key announces no key. -/
def HeaderLegal : Header → Prop
  | .init _ keyv _ _ klen _ => keyv = false → klen = 0#32
  | .aad _ | .proc _ | .final _ | .getmac | .reset | .outsz _ | .updsz _ => True

theorem unusedFieldSet_eq_false_iff (d : Descriptor) :
    unusedFieldSet d = false ↔
      fieldDir d.w0 = false ∧ fieldKeyv d.w0 = false ∧ fieldMacbits d.w0 = 0#8 ∧ d.w2 = 0#32 ∧ d.w3 = 0#32 := by
  simp [unusedFieldSet, and_assoc]

/-- R45 (b), (c): a descriptor other than INIT's is its operation code and `W1`. -/
theorem descriptor_eq_of_unused {d : Descriptor} {op : Nat} (hop : (fieldOp d.w0).toNat = op)
    (hrsv : fieldRsv d.w0 = 0#18) (hunused : unusedFieldSet d = false) :
    d = ⟨encodeW0 op false false 0#8, d.w1, 0#32, 0#32⟩ := by
  obtain ⟨hdir, hkeyv, hmac, hw2, hw3⟩ := (unusedFieldSet_eq_false_iff d).mp hunused
  have hw0 := encodeW0_fields hrsv
  rw [hop, hdir, hkeyv, hmac] at hw0
  calc d = ⟨d.w0, d.w1, d.w2, d.w3⟩ := rfl
    _ = ⟨encodeW0 op false false 0#8, d.w1, 0#32, 0#32⟩ := by rw [hw0, hw2, hw3]

/-- The eight legal descriptors, each with what it announces. -/
theorem decodeDescriptor_eq_ok {d : Descriptor} {h : Header} (hd : decodeDescriptor d = .ok h) :
    d = headerDescriptor h ∧ HeaderLegal h := by
  unfold decodeDescriptor at hd
  dsimp only at hd
  split_ifs at hd with hop hrsv hunused hlen hklen
  have hrsv := not_not.mp hrsv
  have hplain : ∀ op, (fieldOp d.w0).toNat = op → op ≠ 1 → d = ⟨encodeW0 op false false 0#8, d.w1, 0#32, 0#32⟩ :=
    fun op heq hne => descriptor_eq_of_unused heq hrsv
      (Bool.eq_false_of_not_eq_true fun hu => hunused ⟨heq ▸ hne, hu⟩)
  have hbare : ∀ op, (fieldOp d.w0).toNat = op → op = 5 ∨ op = 6 →
      d = ⟨encodeW0 op false false 0#8, 0#32, 0#32, 0#32⟩ := by
    intro op heq h56
    have hw1 : d.w1 = 0#32 := not_not.mp fun hne => hlen ⟨heq ▸ h56, hne⟩
    have hd := hplain op heq (by omega)
    rwa [hw1] at hd
  split at hd <;> cases hd
  case h_1 heq =>
    have hw0 := encodeW0_fields hrsv
    rw [heq] at hw0
    exact ⟨by rw [headerDescriptor, hw0], fun hv => not_not.mp fun hne => hklen ⟨heq, hv, hne⟩⟩
  case h_2 heq => exact ⟨hplain 2 heq (by decide), trivial⟩
  case h_3 heq => exact ⟨hplain 3 heq (by decide), trivial⟩
  case h_4 heq => exact ⟨hplain 4 heq (by decide), trivial⟩
  case h_5 heq => exact ⟨hbare 5 heq (.inl rfl), trivial⟩
  case h_6 heq => exact ⟨hbare 6 heq (.inr rfl), trivial⟩
  case h_7 heq => exact ⟨hplain 7 heq (by decide), trivial⟩
  case h_8 heq => exact ⟨hplain 8 heq (by decide), trivial⟩

/-- R44: the operation code in a descriptor put together from its fields. -/
theorem encodeW0_div (op : Nat) (dir keyv : Bool) (m : BitVec 8) (h : op < 16) :
    (encodeW0 op dir keyv m).toNat / 2 ^ 28 = op := by
  rw [← fieldOp_toNat, fieldOp_encodeW0 op dir keyv m h]

/-! Illegal descriptors (R45). -/

/-- R45 (a) to (e), the checks of R46 as one condition. -/
theorem decodeDescriptor_eq_error_iff (d : Descriptor) :
    (∃ reason, decodeDescriptor d = .error reason) ↔
      ((fieldOp d.w0).toNat = 0 ∨ 9 ≤ (fieldOp d.w0).toNat) ∨ fieldRsv d.w0 ≠ 0#18 ∨
      ((fieldOp d.w0).toNat ≠ 1 ∧ unusedFieldSet d = true) ∨
      (((fieldOp d.w0).toNat = 5 ∨ (fieldOp d.w0).toNat = 6) ∧ d.w1 ≠ 0#32) ∨
      ((fieldOp d.w0).toNat = 1 ∧ fieldKeyv d.w0 = false ∧ d.w2 ≠ 0#32) := by
  unfold decodeDescriptor
  dsimp only
  split_ifs with hop hrsv hunused hlen hklen
  · exact iff_of_true ⟨_, rfl⟩ (.inl hop)
  · exact iff_of_true ⟨_, rfl⟩ (.inr (.inl hrsv))
  · exact iff_of_true ⟨_, rfl⟩ (.inr (.inr (.inl hunused)))
  · exact iff_of_true ⟨_, rfl⟩ (.inr (.inr (.inr (.inl hlen))))
  · exact iff_of_true ⟨_, rfl⟩ (.inr (.inr (.inr (.inr hklen))))
  · refine iff_of_false ?_ (by tauto)
    rintro ⟨reason, hr⟩
    have hlegal : (fieldOp d.w0).toNat = 1 ∨ (fieldOp d.w0).toNat = 2 ∨ (fieldOp d.w0).toNat = 3 ∨
        (fieldOp d.w0).toNat = 4 ∨ (fieldOp d.w0).toNat = 5 ∨ (fieldOp d.w0).toNat = 6 ∨ (fieldOp d.w0).toNat = 7 ∨
        (fieldOp d.w0).toNat = 8 := by omega
    obtain h | h | h | h | h | h | h | h := hlegal <;> (rw [h] at hr; cases hr)

/-- R45 (c) in the arithmetic of the word. -/
theorem unusedFieldSet_iff (d : Descriptor) :
    unusedFieldSet d = true ↔
      d.w0.toNat / 2 ^ 27 % 2 ≠ 0 ∨ d.w0.toNat / 2 ^ 26 % 2 ≠ 0 ∨ d.w0.toNat % 2 ^ 8 ≠ 0 ∨ d.w2 ≠ 0#32 ∨ d.w3 ≠ 0#32 := by
  have hmac : fieldMacbits d.w0 = 0#8 ↔ (fieldMacbits d.w0).toNat = 0 := BitVec.toNat_eq
  rw [← fieldDir_toNat, ← fieldKeyv_toNat, ← fieldMacbits_toNat, ne_eq, ne_eq, ne_eq, ← hmac, Bool.toNat_eq_zero,
    Bool.toNat_eq_zero]
  simp [unusedFieldSet, or_assoc]

/-- R45 (a) to (e) in the arithmetic of the words. -/
theorem decodeDescriptor_illegal_iff (d : Descriptor) :
    (∃ reason, decodeDescriptor d = .error reason) ↔
      (d.w0.toNat / 2 ^ 28 = 0 ∨ d.w0.toNat / 2 ^ 28 ≥ 9) ∨ d.w0.toNat / 2 ^ 8 % 2 ^ 18 ≠ 0 ∨
      (d.w0.toNat / 2 ^ 28 ≠ 1 ∧ (d.w0.toNat / 2 ^ 27 % 2 ≠ 0 ∨ d.w0.toNat / 2 ^ 26 % 2 ≠ 0 ∨ d.w0.toNat % 2 ^ 8 ≠ 0 ∨
        d.w2 ≠ 0#32 ∨ d.w3 ≠ 0#32)) ∨
      ((d.w0.toNat / 2 ^ 28 = 5 ∨ d.w0.toNat / 2 ^ 28 = 6) ∧ d.w1 ≠ 0#32) ∨
      (d.w0.toNat / 2 ^ 28 = 1 ∧ d.w0.toNat / 2 ^ 26 % 2 = 0 ∧ d.w2 ≠ 0#32) := by
  have hrsv : fieldRsv d.w0 = 0#18 ↔ (fieldRsv d.w0).toNat = 0 := BitVec.toNat_eq
  rw [decodeDescriptor_eq_error_iff, unusedFieldSet_iff, ← fieldOp_toNat, ← fieldRsv_toNat, ← fieldKeyv_toNat,
    ne_eq (fieldRsv d.w0), hrsv, ← Bool.toNat_eq_zero]

/-- R45: an illegal descriptor takes no data with it. -/
theorem decode_illegal {d : Descriptor} {reason : IllegalReason} (hd : decodeDescriptor d = .error reason)
    (rest : Bytes) : decode (descriptorBytes d ++ rest) = .illegal reason rest := by
  have hlen : (descriptorBytes d).length = 16 := length_descriptorBytes d
  have hempty : (descriptorBytes d ++ rest).isEmpty = false := by
    rw [List.isEmpty_eq_false_iff, ← List.length_pos_iff, List.length_append]
    omega
  rw [decode, hempty, if_neg Bool.false_ne_true, if_neg (by simp), parseDescriptor_append, hd]
  exact congrArg (Fetched.illegal reason) (List.drop_left' hlen)

/-! From the channel's bytes to the command and back (R40, R43). -/

theorem decode_eq_command {bs : Bytes} {i : Instr} {rest : Bytes} (h : decode bs = .command i rest) :
    ∃ header, decodeDescriptor (parseDescriptor bs) = .ok header ∧ 16 + headerDlen header ≤ bs.length ∧
      i = attachData header ((bs.drop 16).take (headerDlen header)) ∧ rest = bs.drop (16 + headerDlen header) := by
  unfold decode at h
  split_ifs at h
  cases hd : decodeDescriptor (parseDescriptor bs) with
  | error reason => rw [hd] at h; cases h
  | ok header =>
    rw [hd] at h
    dsimp only at h
    split_ifs at h with hshort
    cases h
    exact ⟨header, rfl, not_lt.mp hshort, rfl, rfl⟩

/-- R40: a word is four bytes of the descriptor. -/
theorem be32_wordAt {bs : Bytes} {k : Nat} (h : 4 * k + 4 ≤ bs.length) :
    be32 (wordAt bs k) = (bs.drop (4 * k)).take 4 := by
  have hlen : ((bs.drop (4 * k)).take 4).length = 4 := by
    rw [List.length_take, List.length_drop]
    omega
  have hlt := beNat_lt ((bs.drop (4 * k)).take 4)
  have hback := beBytes_beNat ((bs.drop (4 * k)).take 4)
  rw [hlen] at hlt hback
  rwa [be32, wordAt, BitVec.toNat_ofNat, Nat.mod_eq_of_lt (lt_of_lt_of_eq hlt (by decide))]

/-- R40: the four words of a descriptor are its 16 bytes. -/
theorem descriptorBytes_parseDescriptor {bs : Bytes} (h : 16 ≤ bs.length) :
    descriptorBytes (parseDescriptor bs) = bs.take 16 := by
  have htake : bs.take 16 = bs.take 4 ++ (bs.drop 4).take 4 ++ (bs.drop 8).take 4 ++ (bs.drop 12).take 4 := by
    rw [← List.take_add, ← List.take_add, ← List.take_add]
  rw [descriptorBytes, parseDescriptor, be32_wordAt (by omega), be32_wordAt (by omega), be32_wordAt (by omega),
    be32_wordAt (by omega), htake]
  rfl

theorem lengthFits_of_length {b : Bytes} {w : Word} (h : b.length = w.toNat) : lengthFits b = true :=
  decide_eq_true (h ▸ w.isLt)

theorem lengthWord_of_length {b : Bytes} {w : Word} (h : b.length = w.toNat) : lengthWord b = w := by
  rw [lengthWord, h, BitVec.ofNat_toNat, BitVec.setWidth_eq]

/-- R43: INIT's data split into key, nonce and associated data of the announced lengths. -/
theorem init_data_split {data : Bytes} {n k a : Nat} (h : k + n + a = data.length) :
    (data.take k).length = k ∧ ((data.drop k).take n).length = n ∧ ((data.drop (k + n)).take a).length = a ∧
      data.take k ++ (data.drop k).take n ++ (data.drop (k + n)).take a = data := by
  refine ⟨?_, ?_, ?_, ?_⟩
  · rw [List.length_take]; omega
  · rw [List.length_take, List.length_drop]; omega
  · rw [List.length_take, List.length_drop]; omega
  · rw [← List.take_add, ← List.take_add, h, List.take_length]

/-- R42, R43: the command of a legal header and its data has that header's descriptor and that data. -/
theorem encode_attachData {header : Header} (hlegal : HeaderLegal header) {data : Bytes}
    (hlen : headerDlen header = data.length) :
    WellFormed (attachData header data) ∧
      encode (attachData header data) = descriptorBytes (headerDescriptor header) ++ data := by
  cases header with
  | init dir keyv macbits nlen klen alen =>
    obtain ⟨hkey, hnonce, haad, hdata⟩ := init_data_split hlen
    refine ⟨(wellFormed_init_iff ..).mpr ⟨fun hv => ?_, lengthFits_of_length hkey, lengthFits_of_length hnonce,
      lengthFits_of_length haad⟩, ?_⟩
    · rw [hlegal hv]
      exact List.take_zero
    · simp only [attachData, encode, encodeDescriptor, commandData, headerDescriptor, opcode, lengthWord_of_length hkey,
        lengthWord_of_length hnonce, lengthWord_of_length haad, hdata]
  | aad len | proc len | final len =>
    have hdata : data.take len.toNat = data := List.take_of_length_le hlen.ge
    have hfits : lengthFits data = true := lengthFits_of_length hlen.symm
    have hword : lengthWord data = len := lengthWord_of_length hlen.symm
    refine ⟨by simp [attachData, WellFormed, illFormed, hdata, hfits], ?_⟩
    simp only [attachData, encode, encodeDescriptor, commandData, headerDescriptor, opcode, hdata, hword]
    rfl
  | getmac | reset | outsz len | updsz len =>
    have hnil : data = [] := List.length_eq_zero_iff.mp hlen.symm
    subst hnil
    exact ⟨rfl, rfl⟩

/-- Settles O1. -/
theorem decodeOfEncode : Obligations.DecodeOfEncode :=
  fun _ rest hw => decode_encode hw rest

/-- Settles O2: the descriptor is the one its header fixes, and the data are those it announces. -/
theorem encodeOfDecode : Obligations.EncodeOfDecode := by
  intro bs i rest hdec
  obtain ⟨header, hd, hlen, rfl, rfl⟩ := decode_eq_command hdec
  obtain ⟨hdesc, hlegal⟩ := decodeDescriptor_eq_ok hd
  have hdata : headerDlen header = ((bs.drop 16).take (headerDlen header)).length := by
    rw [List.length_take, List.length_drop]
    omega
  obtain ⟨hwf, henc⟩ := encode_attachData hlegal hdata
  refine ⟨hwf, ?_⟩
  rw [henc, ← hdesc, descriptorBytes_parseDescriptor (by omega), ← List.take_add, List.take_append_drop]

/-- Settles O3: the equation holds of every word, the rest of the eight legal descriptors. -/
theorem descriptorWordFields : Obligations.DescriptorWordFields := by
  refine fun d => ⟨word_eq_fields d.w0, fun h hd => ?_⟩
  obtain ⟨rfl, _⟩ := decodeDescriptor_eq_ok hd
  cases h with
  | init dir keyv macbits nlen klen alen =>
    have hop : fieldOp (encodeW0 1 dir keyv macbits) = 1#4 :=
      BitVec.eq_of_toNat_eq (fieldOp_encodeW0 1 dir keyv macbits (by decide))
    simp only [headerDescriptor, fieldRsv_encodeW0 1 _ _ _ (by decide), fieldDir_encodeW0 1 _ _ _ (by decide),
      fieldKeyv_encodeW0 1 _ _ _ (by decide), fieldMacbits_encodeW0 1 _ _ _ (by decide)]
    exact ⟨trivial, fun _ => trivial, fun hne => absurd hop hne⟩
  | aad len | proc len | final len | getmac | reset | outsz len | updsz len =>
    exact ⟨fieldRsv_encodeW0 _ _ _ _ (by decide),
      fun (hop : fieldOp (encodeW0 _ _ _ _) = 1#4) => absurd hop (by decide),
      fun _ => ⟨fieldDir_encodeW0 _ _ _ _ (by decide), fieldKeyv_encodeW0 _ _ _ _ (by decide),
        fieldMacbits_encodeW0 _ _ _ _ (by decide)⟩⟩

/-- Settles O5: each legal descriptor is that of its header. -/
theorem legalDescriptors : Obligations.LegalDescriptors := by
  intro d h hd
  obtain ⟨rfl, _⟩ := decodeDescriptor_eq_ok hd
  cases h with
  | init dir keyv macbits nlen klen alen =>
    simp only [headerDescriptor, encodeW0_div 1 _ _ _ (by decide), fieldDir_encodeW0 1 _ _ _ (by decide),
      fieldKeyv_encodeW0 1 _ _ _ (by decide), fieldMacbits_encodeW0 1 _ _ _ (by decide), headerDlen, true_and]
    omega
  | aad len | proc len | final len | getmac | reset | outsz len | updsz len =>
    rw [headerDescriptor, encodeW0_div _ _ _ _ (by decide)]
    exact ⟨rfl, rfl⟩

end Sys2Proof

/-! PROOFS. What a step does with an encoding (30_encoding.md R45, R50, R51): an illegal descriptor, the commands of a line of
the assembler, a pseudo-command. -/

namespace Sys2Proof.Machine

/-! Illegal descriptors, and INIT's parameters (R45, 43_engine_commands.md R90). -/

/-- R45: an illegal descriptor's step is `Fail(InvalidParameter)` on the state without its 16 bytes. -/
theorem step_of_fetch_illegal {s : State} {reason : IllegalReason} {rest : Bytes} (hr : s.resetIn = false)
    (hf : fetch s = .illegal reason rest) : step s = .next (fail .invalidParameter { s with chan := rest }) := by
  rw [step, runNext, if_neg (by simp [hr]), hf]
  rfl

/-- R90, R113: the checks of the tag length and the nonce come before all others with another status. -/
theorem initFailure_of_bad_parameters {dir keyv : Bool} {macbits : BitVec 8} {key nonce aad : Bytes} {s : State}
    (h : macBitsLegal macbits = false ∨ nonceLegal nonce s = false) :
    initFailure dir keyv macbits key nonce aad s = some .invalidParameter := by
  obtain hmac | hnonce := h
  · simp [initFailure, hmac]
  · simp [initFailure, hnonce]

/-- Settles O4: the checks in arithmetic, then the step of an illegal descriptor, then INIT's own checks. -/
theorem illegalDescriptors : Obligations.IllegalDescriptors := by
  refine ⟨decodeDescriptor_illegal_iff, fun s d reason rest hr hchan hd => ?_,
    fun dir keyv macbits key nonce aad s hbad => ?_⟩
  · have hfetch : fetch s = .illegal reason rest := by rw [fetch, hchan, decode_illegal hd]
    exact ⟨_, step_of_fetch_illegal hr hfetch, rfl, lastStatus_fail .., lastData_fail ..⟩
  · have hchecks : macBitsLegal macbits = false ∨ nonceLegal nonce s = false := by
      refine hbad.imp decide_eq_false ?_
      rintro rfl
      exact decide_eq_false (by simp)
    rw [exec, execInit, initFailure_of_bad_parameters hchecks]

/-! The assembler (R50, R51). -/

/-- R50: a line other than RAW that assembles has its numbers in range and its commands well-formed. -/
theorem assemble_eq_some {l : AsmLine} {bs : Bytes} (h : assemble l = some bs) (hraw : ∀ d data, l ≠ .raw d data) :
    (asmCommands l).2 = true ∧ (∀ i ∈ (asmCommands l).1, WellFormed i) ∧ bs = (asmCommands l).1.flatMap encode := by
  have hcommands : assemble l =
      if (asmCommands l).2 && (asmCommands l).1.all (fun i => decide (illFormed i = none)) then
        some ((asmCommands l).1.flatMap encode)
      else none := by
    cases l with
    | raw d data => exact absurd rfl (hraw d data)
    | _ => rfl
  rw [hcommands] at h
  split_ifs at h with hok
  cases h
  rw [Bool.and_eq_true, List.all_eq_true] at hok
  obtain ⟨hrange, hwf⟩ := hok
  exact ⟨hrange, fun i hi => of_decide_eq_true (hwf i hi), rfl⟩

/-- Every line but RAW has a first command. -/
theorem asmCommands_eq_cons {l : AsmLine} (hraw : ∀ d data, l ≠ .raw d data) :
    ∃ i more, (asmCommands l).1 = i :: more := by
  cases l with
  | raw d data => exact absurd rfl (hraw d data)
  | _ => exact ⟨_, _, rfl⟩

/-- Settles O7: the first command decodes by the round trip of the encoding. -/
theorem assembledLinesAreLegal : Obligations.AssembledLinesAreLegal := by
  intro l bs hasm hraw
  obtain ⟨hrange, hwf, rfl⟩ := assemble_eq_some hasm hraw
  obtain ⟨i, more, hcons⟩ := asmCommands_eq_cons hraw
  refine ⟨hwf, rfl, ⟨i, more, hcons, fun rest => ?_⟩, ?_⟩
  · have hi : WellFormed i := hwf i (hcons ▸ List.mem_cons_self)
    rw [hcons, List.flatMap_cons, List.append_assoc, decode_encode hi]
  · rintro dir key nonce aad mac rfl
    have hmac : mac < 2 ^ 8 := of_decide_eq_true hrange
    exact ⟨BitVec.ofNat 8 mac, by rw [BitVec.toNat_ofNat, Nat.mod_eq_of_lt hmac], rfl⟩

/-! What a command leaves for the commands behind it: the channel and the reset input. -/

theorem SessionFrame.chan_eq {s t : State} (h : SessionFrame s t) : t.chan = s.chan := by
  rw [SessionFrame] at h; rw [h]

theorem SessionFrame.resetIn_eq {s t : State} (h : SessionFrame s t) : t.resetIn = s.resetIn := by
  rw [SessionFrame] at h; rw [h]

theorem initKey_channels (keyv : Bool) (key : Bytes) (s : State) :
    (initKey keyv key s).chan = s.chan ∧ (initKey keyv key s).resetIn = s.resetIn ∧
      (initKey keyv key s).resp = s.resp := by
  unfold initKey
  split <;> exact ⟨rfl, rfl, rfl⟩

theorem initArmed_channels (dir keyv : Bool) (macbits : BitVec 8) (key nonce : Bytes) (s : State) :
    (initArmed dir keyv macbits key nonce s).chan = s.chan ∧
      (initArmed dir keyv macbits key nonce s).resetIn = s.resetIn ∧
      (initArmed dir keyv macbits key nonce s).resp = s.resp := by
  rw [initArmed_eq]
  exact initKey_channels keyv key s

/-- R31: a command takes nothing from the channel beyond its own bytes, and does not drive the reset input. -/
theorem exec_keeps_channel {i : Instr} {s t : State} (h : exec i s = .next t) :
    t.chan = s.chan ∧ t.resetIn = s.resetIn := by
  obtain hf | ⟨rfl, rfl⟩ | ⟨dir, keyv, macbits, key, nonce, aad, rfl, _, rfl⟩ := exec_sessionFrame h
  · exact ⟨hf.chan_eq, hf.resetIn_eq⟩
  · obtain ⟨c, j, hf, _⟩ := resetSession_keeps s
    exact ⟨hf.chan_eq, hf.resetIn_eq⟩
  · have hf := initCommit_sessionFrame dir keyv macbits key nonce aad s
    obtain ⟨hchan, hreset, _⟩ := initArmed_channels dir keyv macbits key nonce s
    exact ⟨hf.chan_eq.trans hchan, hf.resetIn_eq.trans hreset⟩

/-- R36: the step that runs a well-formed command from the front of the channel. -/
theorem step_of_encode {s : State} {i : Instr} {rest : Bytes} (hr : s.resetIn = false) (hw : WellFormed i)
    (hchan : s.chan = encode i ++ rest) : step s = exec i { s with chan := rest } :=
  step_of_fetch_command hr (by rw [fetch, hchan, decode_encode hw])

/-- R81: FINAL is not legal in FAILED. -/
theorem exec_final_of_failed {s : State} (data : Bytes) (h : s.st = .failed) :
    exec (.final data) s = .next (fail .invalidState s) := by
  have hcheck : payFailure data s = some .invalidState := by simp [payFailure, streamLegal, h]
  rw [exec, execFinal, hcheck]

/-- R51: the bytes of SEAL and OPEN are those of an INIT and a FINAL, both well-formed. -/
theorem assemble_pseudo {dir : Bool} {key : Option Bytes} {nonce aad data bs : Bytes} {mac : Nat}
    (h : assemble (if dir then .seal key nonce aad mac data else .unseal key nonce aad mac data) = some bs) :
    WellFormed (asmInit dir key nonce aad mac) ∧ WellFormed (.final data) ∧
      bs = encode (asmInit dir key nonce aad mac) ++ encode (.final data) := by
  cases dir with
  | true =>
    obtain ⟨_, hwf, rfl⟩ := assemble_eq_some h (by simp)
    exact ⟨hwf _ (by simp [asmCommands]), hwf _ (by simp [asmCommands]), by simp [asmCommands]⟩
  | false =>
    obtain ⟨_, hwf, rfl⟩ := assemble_eq_some h (by simp)
    exact ⟨hwf _ (by simp [asmCommands]), hwf _ (by simp [asmCommands]), by simp [asmCommands]⟩

/-- Settles O8: two commands from the front of the channel, one step each; a failing INIT leaves FAILED behind. -/
theorem pseudoCommands : Obligations.PseudoCommands := by
  intro dir key nonce aad data bs rest mac s hasm hr hchan
  obtain ⟨hwinit, hwfinal, rfl⟩ := assemble_pseudo hasm
  have hfirst : step s = exec (asmInit dir key nonce aad mac) { s with chan := encode (.final data) ++ rest } :=
    step_of_encode hr hwinit (by rw [hchan, List.append_assoc])
  refine ⟨hfirst, fun t ht => ?_⟩
  have hexec := hfirst.symm.trans ht
  obtain ⟨htchan, htreset⟩ := exec_keeps_channel hexec
  have hsecond : step t = exec (.final data) { t with chan := rest } := step_of_encode (htreset.trans hr) hwfinal htchan
  refine ⟨hsecond, fun hfailed => ?_⟩
  have hst : t.st = .failed := by
    obtain ⟨code, _, rfl⟩ | ⟨_, rfl⟩ := execInit_outcome hexec
    · exact fail_st ..
    · exact absurd (lastStatus_respond ..) hfailed
  exact ⟨_, hsecond.trans (exec_final_of_failed data hst), lastStatus_fail ..⟩

/-! The worked encodings and the codes (R53, R48, R110, R10). -/

/-- A row of R53: the bytes written out are the encoding of the command. -/
theorem decode_of_encode_eq {bs : Bytes} {i : Instr} (hw : WellFormed i) (h : encode i = bs) :
    decode bs = .command i [] := by
  rw [← h, ← List.append_nil (encode i), decode_encode hw]

/-- Settles O6: row by row, by the round trip of the encoding. -/
theorem workedEncodings : Obligations.WorkedEncodings := by
  refine ⟨?_, ?_, ?_, ?_, ?_, ?_, ?_, ?_, ?_⟩
  all_goals exact decode_of_encode_eq (by decide) (by decide)

/-- R48: no code is above 5. -/
theorem statusCode_le (c : Status) : (statusCode c).toNat ≤ 5 := by
  cases c <;> decide

/-- R10, R11: the sideband loses nothing of the status code. -/
theorem sideband_err (s : State) : (sideband s).2.toNat = (statusCode s.err).toNat := by
  have hle := statusCode_le s.err
  show ((statusCode s.err).setWidth 3).toNat = _
  rw [BitVec.toNat_setWidth]
  omega

/-- R34, R47: a response's length is read back from its eight bytes. -/
theorem beNat_be64 (n : BitVec 64) : beNat (be64 n.toNat) = n.toNat := by
  rw [be64, beNat_beBytes]
  exact Nat.mod_eq_of_lt (lt_of_lt_of_eq n.isLt (by decide))

/-- Settles O9. -/
theorem statusCodes : Obligations.StatusCodes :=
  ⟨rfl, rfl, rfl, rfl, rfl, rfl, statusCode_le, rfl, rfl, rfl, rfl, rfl, fun s => ⟨rfl, sideband_err s⟩,
    fun r => ⟨rfl, beNat_be64 r.rlen⟩⟩

end Sys2Proof.Machine

/-! PROOFS. The response of a command (30_encoding.md R47): that there is one, its form, and what an OK response holds. -/

namespace Sys2Proof.Machine

/-! The lengths of what the commands return (R94, R96, R97). -/

section
variable {s t : State} {data : Bytes}

/-- R82: what a streaming command within the ceiling could return is far from wrapping `rlen`. -/
theorem Inv.stream_length_lt (h : Inv s) (hfit : payFits s data.length) : s.bufPos.toNat + data.length < 2 ^ 37 := by
  have hmac := h.macBytes_range.2
  have hceil : payEff s (s.payLen.toNat + s.bufPos.toNat + data.length) ≤ 2 ^ 36 - 32 :=
    le_trans (Nat.le_add_left ..) hfit
  unfold payEff at hceil
  split at hceil <;> omega

/-- R97: PROC returns the whole blocks that UPDSZ counts. -/
theorem Inv.length_procOutput (h : Inv s) :
    (procOutput data s).length % 16 = 0 ∧ (procOutput data s).length = updSize data.length s := by
  obtain ⟨hle, _⟩ := blocksReleased_rest s (pending data s).length
  have hlen : (procOutput data s).length = 16 * blocksReleased s (data.length + s.bufPos.toNat) := by
    rw [procOutput, length_gctr, List.length_take, min_eq_left hle, h.length_pending, Nat.add_comm]
  rw [hlen]
  refine ⟨Nat.mul_mod_right .., ?_⟩
  dsimp only [blocksReleased, updSize]
  split
  · omega
  · split <;> omega

theorem Inv.length_finalTag (h : Inv s) (x : Bytes) : (finalTag x s).length = s.macBytes.toNat := by
  rw [finalTag, List.length_take, length_bytesOfBlock, min_eq_left h.macBytes_range.2]

/-- What a successful FINAL returns (R93): the rest of the payload, in encryption with the tag behind it. -/
def finalOutput (data : Bytes) (s : State) : Bytes :=
  gctr (cipherE s) s.ctr (finalPayload data s) ++ (if s.dir then finalTag (finalPayload data s) s else [])

/-- R96: FINAL returns what OUTSZ counts. -/
theorem Inv.length_finalOutput (h : Inv s) : (finalOutput data s).length = outSize data.length s := by
  rw [finalOutput, List.length_append, length_gctr, length_finalPayload, h.length_pending]
  dsimp only [payEff, outSize]
  split
  · rw [h.length_finalTag]
    omega
  · rw [List.length_nil]
    split <;> omega

theorem Inv.length_macOut (h : Inv s) : (macOut s).length = s.macBytes.toNat := by
  rw [macOut, List.length_take, Vector.length_toList, min_eq_left h.macBytes_range.2]

/-! The commands only add their own response. -/

theorem PathFrame.resp_eq (h : PathFrame s t) : t.resp = s.resp := by
  unfold PathFrame at h
  rw [h]

theorem resetSession_resp (s : State) : (resetSession s).resp = s.resp := by
  unfold resetSession
  split <;> rfl

theorem aadState_resp (data : Bytes) (s : State) : (aadState data s).resp = s.resp :=
  setAad_resp ..

theorem Inv.procState_resp (h : Inv s) (hs : inSession s) (hfit : payFits s data.length) :
    (Machine.procState data s).resp = s.resp := by
  have hframe := absorb_frame data s
  rw [h.absorb_eq hs hfit] at hframe
  exact hframe.resp_eq

/-- R93: FINAL fails, or it ends the session with `finalOutput`. -/
theorem Inv.execFinal_result (h : Inv s) (he : execFinal data s = .next t) :
    (∃ s' code, s'.resp = s.resp ∧ code ≠ .ok ∧ t = fail code s') ∨
    (∃ s' tag, s'.resp = s.resp ∧ payFits s data.length ∧
      t = Machine.respond .ok (finalOutput data s) (endSession tag s')) := by
  have hresp := (finalWork_frame data s).resp_eq
  obtain ⟨code, hcode, rfl⟩ | ⟨hs, hfit, ⟨s', code, hw, rfl⟩ | ⟨s', r, hw, rfl⟩⟩ := Machine.execFinal_outcome he
  · exact .inl ⟨s, code, rfl, hcode, rfl⟩
  · rw [hw] at hresp
    have hcode : code = .authenticationFailed := h.finalWork_fails hs hfit hw
    exact .inl ⟨s', code, hresp, by rw [hcode]; decide, rfl⟩
  · rw [hw] at hresp
    have htag : s.dir = false → s.macBytes.toNat ≤ s.bufPos.toNat + data.length := by
      refine fun hd => not_lt.mp fun hlt => ?_
      obtain ⟨b, p, hfail⟩ := finalWork_short data s h.buf_canonical h.window h.macBytes_range.2 hd
        (by rwa [h.length_pending])
      rw [hfail] at hw
      cases hw
    have hr : r.1 = finalOutput data s := by
      rw [h.finalWork_eq hs hfit htag] at hw
      unfold finalOutput
      split_ifs at hw ⊢
      · cases hw; rfl
      · cases hw; exact (List.append_nil _).symm
    exact .inr ⟨s', r.2, hresp, hfit, by rw [hr]⟩

end

/-! The one response (R47). -/

/-- R47's table: what the data of an OK response are. -/
def OkData (i : Instr) (s : State) (d : Bytes) : Prop :=
  match i with
  | .init .. | .aad _ | .reset => d = []
  | .proc data => d = procOutput data s ∧ d.length % 16 = 0 ∧ d.length = updSize data.length s
  | .final data => d = finalOutput data s ∧ d.length = outSize data.length s
  | .getmac => d = macOut s ∧ d.length = s.macBytes.toNat
  | .outsz n => d = be64 (outSize n.toNat s) ∧ d.length = 8
  | .updsz n => d = be64 (updSize n.toNat s) ∧ d.length = 8

/-- The command `i`, run in `s`, has added one response in `t`, of R47's form. -/
def Answers (i : Instr) (s t : State) : Prop :=
  ∃ code d, t.resp = s.resp ++ [mkResponse code d] ∧ d.length < 2 ^ 64 ∧ (code ≠ .ok → d = []) ∧
    (code = .ok → OkData i s d)

theorem answers_fail {i : Instr} {s s' : State} {code : Status} (hcode : code ≠ .ok) (hresp : s'.resp = s.resp) :
    Answers i s (fail code s') :=
  ⟨code, [], by rw [fail_resp, hresp], by simp, fun _ => rfl, fun hok => absurd hok hcode⟩

theorem answers_respond {i : Instr} {s s' : State} {d : Bytes} (hresp : s'.resp = s.resp) (hlen : d.length < 2 ^ 64)
    (hdata : OkData i s d) : Answers i s (respond .ok d s') :=
  ⟨.ok, d, by rw [respond_resp, hresp], hlen, fun hne => absurd rfl hne, fun _ => hdata⟩

/-- R47: from a state that meets the invariants every command answers once. -/
theorem Inv.answers {i : Instr} {s t : State} (h : Inv s) (he : Machine.exec i s = .next t) : Answers i s t := by
  cases i with
  | init dir keyv macbits key nonce aad =>
    obtain ⟨code, hcode, rfl⟩ | ⟨_, _, rfl⟩ := h.execInit_outcome he
    · exact answers_fail hcode rfl
    · obtain ⟨_, _, hresp⟩ := initArmed_channels dir keyv macbits key nonce s
      exact answers_respond ((aadState_resp ..).trans hresp) (by simp) rfl
  | aad data =>
    obtain ⟨code, hcode, rfl⟩ | ⟨_, _, rfl⟩ := h.execAad_outcome he
    · exact answers_fail hcode rfl
    · exact answers_respond (aadState_resp data s) (by simp) rfl
  | proc data =>
    obtain ⟨code, hcode, rfl⟩ | ⟨hs, hfit, rfl⟩ := h.execProc_outcome he
    · exact answers_fail hcode rfl
    · obtain ⟨hblocks, hlen⟩ := h.length_procOutput (data := data)
      have hlt := h.stream_length_lt hfit
      refine answers_respond (h.procState_resp hs hfit) ?_ ⟨rfl, hblocks, hlen⟩
      rw [hlen, updSize]
      split_ifs <;> omega
  | final data =>
    obtain ⟨s', code, hresp, hcode, rfl⟩ | ⟨s', tag, hresp, hfit, rfl⟩ := h.execFinal_result he
    · exact answers_fail hcode hresp
    · have hlen := h.length_finalOutput (data := data)
      have hlt := h.stream_length_lt hfit
      have hmac := h.macBytes_range.2
      refine answers_respond ((endSession_resp tag s').trans hresp) ?_ ⟨rfl, hlen⟩
      rw [hlen, outSize]
      split_ifs <;> omega
  | getmac =>
    cases he
    have hlen := h.length_macOut
    exact answers_respond rfl (by omega) ⟨rfl, hlen⟩
  | reset => cases he; exact answers_respond (resetSession_resp s) (by simp) rfl
  | outsz n | updsz n => cases he; exact answers_respond rfl (by simp) ⟨rfl, length_be64 _⟩

/-- R47: `rlen` is the number of data bytes, where they are fewer than 2^64. -/
theorem mkResponse_rlen {code : Status} {d : Bytes} (h : d.length < 2 ^ 64) :
    (mkResponse code d).rlen.toNat = d.length := by
  rw [mkResponse, BitVec.toNat_ofNat, Nat.mod_eq_of_lt h]

/-- Settles O16: `Inv.answers` for the commands; an illegal descriptor is a failure. -/
theorem everyCommandAnswersOnce : Obligations.EveryCommandAnswersOnce := by
  refine ⟨fun i s h => ?_, fun s reason rest hr hdec => ?_⟩
  · obtain ⟨t, he⟩ := exec_next i s
    obtain ⟨code, d, hresp, hlt, hfails, hok⟩ := h.answers he
    have hrlen := mkResponse_rlen (code := code) hlt
    refine ⟨t, mkResponse code d, he, hresp, hrlen, ?_, hfails, fun hcode => ?_⟩
    · rw [responseBytes, hrlen]
      rfl
    · have hdata := hok hcode
      cases i <;> exact hdata
  · exact ⟨_, step_of_fetch_illegal hr hdec, rfl⟩

end Sys2Proof.Machine

/-! PROOFS. Which realisation of the multiplier a core was built with cannot be observed (40_multiplier.md R65): every
operation does the same for the core built with another one. -/

namespace Sys2Proof.Machine

section
variable {s t : State} {data : Bytes} {impl : MultImpl}

/-! What the other build reads and computes. -/

/-- R65: with the tables of the subkey in force, both builds multiply alike. -/
theorem mulH_withMultiplier (hM : s.M = tablesFor s.params.multImpl s.H) :
    mulH (withMultiplier impl s) = mulH s := by
  rw [mulH_eq_gfMul hM, mulH_eq_gfMul (s := withMultiplier impl s) rfl]
  rfl

/-- The invariants ask of the tables only that they are those of the subkey. -/
theorem inv_withMultiplier (h : Inv s) : Inv (withMultiplier impl s) :=
  { h with
    tables := rfl
    ready := fun hs => { h.ready hs with }
    stream := fun hs => { h.stream hs with }
    cleared := fun hs => { h.cleared hs with } }

/-! The associated data (41_ghash.md R72, 43_engine_commands.md R83). -/

theorem aadState_withMultiplier (h : Inv s) :
    aadState data (withMultiplier impl s) = withMultiplier impl (aadState data s) := by
  unfold aadState
  rw [mulH_withMultiplier h.tables]
  rfl

theorem aadIngest_withMultiplier (h : Inv s) :
    aadIngest data (withMultiplier impl s) = withMultiplier impl (aadIngest data s) := by
  rw [aadIngest_eq _ _ (inv_withMultiplier h).atBuf_canonical, aadIngest_eq _ _ h.atBuf_canonical,
    aadState_withMultiplier h]

theorem finalAadHash_withMultiplier (h : Inv s) : finalAadHash (withMultiplier impl s) = finalAadHash s :=
  finalAadHash_congr (mulH_withMultiplier h.tables) rfl rfl rfl

/-- R83: the snapshot is the one register it computes, `finalAadHash`, in two places. -/
theorem snapshot_withMultiplier (h : Inv s) :
    snapshot (withMultiplier impl s) = withMultiplier impl (snapshot s) := by
  have hpre := finalAadHash_withMultiplier (impl := impl) h
  apply State.ext
  case S => exact hpre
  case S_atPre => exact hpre
  all_goals rfl

theorem ensureSnapshot_withMultiplier (h : Inv s) :
    ensureSnapshot (withMultiplier impl s) = withMultiplier impl (ensureSnapshot s) := by
  by_cases hst : s.st = .stream
  · rw [ensureSnapshot_of_stream hst, ensureSnapshot_of_stream (s := withMultiplier impl s) hst]
  · have hst' : (withMultiplier impl s).st ≠ .stream := hst
    rw [ensureSnapshot, if_neg hst', ensureSnapshot, if_neg hst, snapshot_withMultiplier h]

/-! The payload and the tag (R84 to R88). -/

theorem pathState_withMultiplier (h : Inv s) (n : Nat) (x : Bytes) :
    pathState n x (withMultiplier impl s) = withMultiplier impl (pathState n x s) := by
  unfold pathState
  rw [mulH_withMultiplier h.tables, ensureSnapshot_withMultiplier h]
  rfl

theorem procState_withMultiplier (h : Inv s) :
    procState data (withMultiplier impl s) = withMultiplier impl (procState data s) := by
  have hk : blocksReleased (withMultiplier impl s) (pending data (withMultiplier impl s)).length =
      blocksReleased s (pending data s).length := rfl
  by_cases h0 : blocksReleased s (pending data s).length = 0
  · rw [procState_of_none h0, procState_of_none (hk.trans h0)]
    rfl
  · rw [procState_of_some h0, procState_of_some (hk.trans_ne h0), pathState_withMultiplier h]
    rfl

theorem finalTag_withMultiplier (h : Inv s) (x : Bytes) : finalTag x (withMultiplier impl s) = finalTag x s := by
  have hrec : finalReconciled x (withMultiplier impl s) = finalReconciled x s := by
    unfold finalReconciled finalHash
    rw [mulH_withMultiplier h.tables, ensureSnapshot_withMultiplier h, finalAadHash_withMultiplier h]
    rfl
  unfold finalTag
  rw [hrec, mulH_withMultiplier h.tables]
  rfl

/-! The commands (R90 to R97). No check of theirs reads `MULT_IMPL` or the tables. -/

/-- R90: the key step writes the tables of its own build. -/
theorem initKey_withMultiplier (keyv : Bool) (key : Bytes) (s : State) :
    initKey keyv key (withMultiplier impl s) = withMultiplier impl (initKey keyv key s) := by
  by_cases hc : ChangesKey keyv key s
  · rw [initKey_of_changed hc, initKey_of_changed (s := withMultiplier impl s) hc]
    rfl
  · rw [initKey_of_kept hc, initKey_of_kept (s := withMultiplier impl s) hc]

theorem initArmed_withMultiplier (h : Inv s) (dir keyv : Bool) (macbits : BitVec 8) (key nonce : Bytes) :
    initArmed dir keyv macbits key nonce (withMultiplier impl s) =
      withMultiplier impl (initArmed dir keyv macbits key nonce s) := by
  obtain ⟨_, htab⟩ := h.initKey_configured keyv key
  have hM : (initKey keyv key s).M = tablesFor (initKey keyv key s).params.multImpl (initKey keyv key s).H := by
    rw [htab, initKey_params]
  have hJ0 : deriveJ0 (withMultiplier impl (initKey keyv key s)) nonce = deriveJ0 (initKey keyv key s) nonce := by
    rw [deriveJ0, mulH_withMultiplier hM, deriveJ0]
  rw [initArmed_eq, initArmed_eq, initConfigure, initKey_withMultiplier, hJ0]
  rfl

theorem execInit_withMultiplier (h : Inv s) {dir keyv : Bool} {macbits : BitVec 8} {key nonce aad : Bytes}
    (he : execInit dir keyv macbits key nonce aad s = .next t) :
    execInit dir keyv macbits key nonce aad (withMultiplier impl s) = .next (withMultiplier impl t) := by
  have hchk : initFailure dir keyv macbits key nonce aad (withMultiplier impl s) =
      initFailure dir keyv macbits key nonce aad s := rfl
  unfold execInit at he ⊢
  rw [hchk]
  cases hf : initFailure dir keyv macbits key nonce aad s with
  | some code => rw [hf] at he; cases he; rfl
  | none =>
    rw [hf] at he; cases he
    obtain ⟨hlegal, _, _⟩ := initFailure_eq_none hf
    simp only [initCommit_eq, initArmed_withMultiplier h, aadIngest_withMultiplier (h.initArmed hlegal)]
    rfl

theorem execAad_withMultiplier (h : Inv s) (he : execAad data s = .next t) :
    execAad data (withMultiplier impl s) = .next (withMultiplier impl t) := by
  have hchk : aadFailure data (withMultiplier impl s) = aadFailure data s := rfl
  unfold execAad at he ⊢
  rw [hchk]
  cases hf : aadFailure data s with
  | some code => rw [hf] at he; cases he; rfl
  | none =>
    rw [hf] at he; cases he
    simp only [aadIngest_withMultiplier h]
    rfl

theorem execProc_withMultiplier (h : Inv s) (he : execProc data s = .next t) :
    execProc data (withMultiplier impl s) = .next (withMultiplier impl t) := by
  have hchk : payFailure data (withMultiplier impl s) = payFailure data s := rfl
  unfold execProc at he ⊢
  rw [hchk]
  cases hf : payFailure data s with
  | some code => rw [hf] at he; cases he; rfl
  | none =>
    obtain ⟨hs, hfit⟩ := (payFailure_eq_none_iff data s).mp hf
    simp only [hf, h.absorb_eq hs hfit] at he
    cases he
    simp only [(inv_withMultiplier h).absorb_eq hs hfit, procState_withMultiplier h]
    rfl

/-- R93: what FINAL answers once its checks have passed, by what it compares; of all its work the ending keeps the tag
and the calls on the port. -/
theorem Inv.execFinal_eq (h : Inv s) (hs : inSession s) (hfit : payFits s data.length) :
    execFinal data s =
      if s.dir = false ∧ s.bufPos.toNat + data.length < s.macBytes.toNat then .next (fail .authenticationFailed s)
      else if s.dir = true ∨ finalTag (finalPayload data s) s = finalReceived data s then
        .next (Machine.respond .ok (finalOutput data s)
          (endSession (finalTag (finalPayload data s) s) (portCalls (finalEvents (finalPayload data s) s) s)))
      else .next (fail .authenticationFailed (portCalls (finalEvents (finalPayload data s) s) s)) := by
  have hpass : payFailure data s = none := (payFailure_eq_none_iff data s).mpr ⟨hs, hfit⟩
  unfold execFinal finalOutput
  rw [hpass]
  by_cases hshort : s.dir = false ∧ s.bufPos.toNat + data.length < s.macBytes.toNat
  · obtain ⟨hd, hlt⟩ := id hshort
    obtain ⟨b, p, hw⟩ := finalWork_short data s h.buf_canonical h.window h.macBytes_range.2 hd
      (by rwa [h.length_pending])
    rw [hw, if_pos hshort]
    exact congrArg _ (fail_setWindow ..)
  · rw [if_neg hshort, h.finalWork_eq hs hfit fun hd => not_lt.mp fun hlt => hshort ⟨hd, hlt⟩]
    by_cases hd : s.dir = true
    · simp [hd, endSession_finalState]
    · by_cases htag : finalTag (finalPayload data s) s = finalReceived data s
      · simp [hd, htag, endSession_finalState]
      · simp [hd, htag, fail_finalState]

theorem execFinal_withMultiplier (h : Inv s) (he : execFinal data s = .next t) :
    execFinal data (withMultiplier impl s) = .next (withMultiplier impl t) := by
  cases hf : payFailure data s with
  | some code =>
    have hf' : payFailure data (withMultiplier impl s) = some code := hf
    rw [execFinal, hf] at he; cases he
    rw [execFinal, hf']
    rfl
  | none =>
    obtain ⟨hs, hfit⟩ := (payFailure_eq_none_iff data s).mp hf
    have htag : finalTag (finalPayload data (withMultiplier impl s)) (withMultiplier impl s) =
        finalTag (finalPayload data s) s := finalTag_withMultiplier h _
    have hout : finalOutput data (withMultiplier impl s) = finalOutput data s := by
      unfold finalOutput
      rw [htag]
      rfl
    rw [h.execFinal_eq hs hfit] at he
    rw [(inv_withMultiplier h).execFinal_eq hs hfit, htag, hout]
    split_ifs at he with hshort hpass <;> cases he
    · exact if_pos hshort
    · exact (if_neg hshort).trans (if_pos hpass)
    · exact (if_neg hshort).trans (if_neg hpass)

/-- R65: every command, from a state that meets the invariants. -/
theorem exec_withMultiplier {i : Instr} (h : Inv s) (he : exec i s = .next t) :
    exec i (withMultiplier impl s) = .next (withMultiplier impl t) := by
  cases i with
  | init dir keyv macbits key nonce aad => exact execInit_withMultiplier h he
  | aad data => exact execAad_withMultiplier h he
  | proc data => exact execProc_withMultiplier h he
  | final data => exact execFinal_withMultiplier h he
  | reset =>
    cases he
    by_cases hr : s.cfgv = true ∧ s.dir = false
    · obtain ⟨hcfgv, hdir⟩ := hr
      rw [exec, execReset, resetSession_rearm s hcfgv hdir, resetSession_rearm (withMultiplier impl s) hcfgv hdir]
      rfl
    · rw [exec, execReset, resetSession_end s hr, resetSession_end (withMultiplier impl s) hr]
      rfl
  | getmac | outsz len | updsz len => cases he; rfl

end

/-- Settles O40: the product by realisation, then the two builds side by side. -/
theorem multiplierRealisationsAgree : Obligations.MultiplierRealisationsAgree := by
  refine ⟨fun impl h x => ?_, fun _ _ _ _ hinv he => exec_withMultiplier hinv he⟩
  cases impl with
  | bitwise => rfl
  | table4 => exact mulHTable4_eq h x
  | table8 => exact mulHTable8_eq h x

end Sys2Proof.Machine

/-! PROOFS. Multiplication by `x` and the entries of the tables (40_multiplier.md R62, R66, R67). -/

namespace Sys2Proof.Machine

/-! The tables. -/

/-- Bits that are all zero give nothing. -/
theorem bitProduct_eq_zero {x v : Block} {i n : Nat} (h : ∀ k, i ≤ k → k < i + n → gcmBit x k = false) :
    bitProduct x v i n = 0#128 := by
  induction n generalizing i with
  | zero => rfl
  | succ n ih =>
    rw [bitProduct, ih fun k hk hkn => h k (by omega) (by omega), h i le_rfl (by omega), mulX_zero,
      if_neg Bool.false_ne_true, BitVec.xor_zero]

/-- R66, R67: the entry for the `w` bits of `n` is the product with the element that has them as its first
coefficients. -/
theorem xorSelected_eq_gfMul (h : Block) {w n : Nat} (hw : w ≤ 128) (hn : n < 2 ^ w) :
    xorSelected ((List.range w).map fun k => (n.testBit (w - 1 - k), mulXn k h)) =
      gfMul (BitVec.ofNat 128 (n * 2 ^ (128 - w))) h := by
  generalize hx : BitVec.ofNat 128 (n * 2 ^ (128 - w)) = x
  have hxn : x.toNat = n * 2 ^ (128 - w) := by
    have hlt : n * 2 ^ (128 - w) < 2 ^ 128 :=
      calc n * 2 ^ (128 - w) < 2 ^ w * 2 ^ (128 - w) := Nat.mul_lt_mul_of_pos_right hn (Nat.two_pow_pos _)
        _ = 2 ^ 128 := by rw [← pow_add, Nat.add_sub_cancel' hw]
    rw [← hx, BitVec.toNat_ofNat, Nat.mod_eq_of_lt hlt]
  have hindex : (x >>> (128 - w - 0)).toNat % 2 ^ w = n := by
    rw [BitVec.toNat_ushiftRight, hxn, Nat.sub_zero, Nat.shiftRight_eq_div_pow,
      Nat.mul_div_cancel _ (Nat.two_pow_pos _), Nat.mod_eq_of_lt hn]
  have hrest : bitProduct x h w (128 - w) = 0#128 := bitProduct_eq_zero fun k hk hkn => by
    have hlow : ¬128 - w ≤ 127 - k := by omega
    rw [gcmBit, ← BitVec.testBit_toNat, hxn, Nat.testBit_mul_two_pow, decide_eq_false hlow, Bool.false_and]
  have hparts := bitProduct_add x h 0 w (128 - w)
  rw [Nat.add_sub_cancel' hw, Nat.zero_add, hrest, mulXn_zero, BitVec.xor_zero] at hparts
  rw [gfMul_eq_bitProduct, hparts, ← xorSelected_bits x h 0 w (by omega), hindex]

/-- Settles O41: the two tables have the entries of four and of eight bits. -/
theorem tableEntries : Obligations.TableEntries := by
  intro h
  refine ⟨by rw [tables4, List.length_map, List.length_range], fun n hn => ?_,
    by rw [tables8, List.length_map, List.length_range], fun b hb => ?_⟩
  · rw [tables4, getD_map_range _ _ _ _ hn]
    exact xorSelected_eq_gfMul h (w := 4) (by decide) hn
  · rw [tables8, getD_map_range _ _ _ _ hb]
    exact xorSelected_eq_gfMul h (w := 8) (by decide) hb

/-! Multiplication by `x`. -/

/-- R62, on the block's integer: its GCM bit 127 is the lowest binary digit. -/
theorem mulX_toNat (v : Block) :
    (mulX v).toNat = if v.toNat % 2 = 1 then v.toNat / 2 ^^^ 0xE1 * 2 ^ 120 else v.toNat / 2 := by
  have hodd : v.getLsbD 0 = true ↔ v.toNat % 2 = 1 := by
    rw [← BitVec.testBit_toNat, Nat.testBit_zero, decide_eq_true_iff]
  have hhalf : (v >>> 1).toNat = v.toNat / 2 := by
    rw [BitVec.toNat_ushiftRight, Nat.shiftRight_one]
  have hred : reductionBlock.toNat = 0xE1 * 2 ^ 120 := by decide
  unfold mulX
  rw [if_congr hodd rfl rfl]
  split
  · rw [BitVec.toNat_xor, hhalf, hred]
  · exact hhalf

/-- Settles O42. -/
theorem mulXRule : Obligations.MulXRule :=
  ⟨mulX_toNat, mulX_zero, by decide, by decide, by decide⟩

end Sys2Proof.Machine

/-! PROOFS. The field (40_multiplier.md R60 to R63, R68, R69): a block is an element of GF(2)[x] modulo the GCM
polynomial, `gfMul` is the product there, and the laws of the field are those of that ring. -/

namespace Sys2Proof.Machine

open Polynomial

/-! The polynomial of a block (R60) and that of the field (R61). -/

/-- R60: GCM bit `i` of a block is the coefficient of `x^i`. -/
noncomputable def blockPoly (b : Block) : (ZMod 2)[X] :=
  ∑ i ∈ Finset.range 128, if gcmBit b i then X ^ i else 0

/-- R61: `x^128 + x^7 + x^2 + x + 1`. It is irreducible as a definition: unification is not to compute its powers. -/
@[irreducible] noncomputable def gcmPoly : (ZMod 2)[X] := X ^ 128 + X ^ 7 + X ^ 2 + X + 1

theorem gcmPoly_eq : gcmPoly = X ^ 128 + X ^ 7 + X ^ 2 + X + 1 := by unfold gcmPoly; rfl

theorem coeff_blockPoly (b : Block) {i : Nat} (hi : i < 128) :
    (blockPoly b).coeff i = if gcmBit b i then 1 else 0 := by
  have hterm : ∀ k, (if gcmBit b k then (X : (ZMod 2)[X]) ^ k else 0).coeff i =
      if k = i then (if gcmBit b i then 1 else 0) else 0 := by
    intro k
    by_cases hk : k = i
    · subst hk
      cases gcmBit b k <;> simp
    · cases gcmBit b k <;> simp [hk, Ne.symm hk, coeff_X_pow]
  rw [blockPoly, finsetSum_coeff, Finset.sum_congr rfl fun k _ => hterm k, Finset.sum_ite_eq',
    if_pos (Finset.mem_range.mpr hi)]

theorem degree_gcmPoly : gcmPoly.degree = 128 := by
  rw [gcmPoly_eq]
  compute_degree!

theorem degree_blockPoly_lt (b : Block) : (blockPoly b).degree < gcmPoly.degree := by
  rw [degree_gcmPoly]
  refine lt_of_le_of_lt (degree_sum_le _ _) ((Finset.sup_lt_iff (by decide)).mpr fun i hi => ?_)
  split
  · rw [degree_X_pow]
    exact_mod_cast Finset.mem_range.mp hi
  · rw [degree_zero]
    exact bot_lt_iff_ne_bot.mpr (by decide)

/-- A block is determined by its GCM bits. -/
theorem eq_of_gcmBit_eq {a b : Block} (h : ∀ i < 128, gcmBit a i = gcmBit b i) : a = b := by
  refine BitVec.eq_of_getLsbD_eq fun i hi => ?_
  have hbit := h (127 - i) (by omega)
  have hpos : 127 - (127 - i) = i := by omega
  rwa [gcmBit, gcmBit, hpos] at hbit

theorem blockPoly_injective : Function.Injective blockPoly := by
  intro a b hab
  refine eq_of_gcmBit_eq fun i hi => ?_
  have hbit : ∀ c, gcmBit c i = decide ((blockPoly c).coeff i = 1) := by
    intro c
    rw [coeff_blockPoly c hi]
    cases gcmBit c i <;> simp
  rw [hbit a, hbit b, hab]

/-! The operations on blocks as operations on polynomials. -/

theorem gcmBit_xor (a b : Block) (i : Nat) : gcmBit (a ^^^ b) i = (gcmBit a i ^^ gcmBit b i) := BitVec.getLsbD_xor

/-- R60: XOR is addition. -/
theorem blockPoly_xor (a b : Block) : blockPoly (a ^^^ b) = blockPoly a + blockPoly b := by
  rw [blockPoly, blockPoly, blockPoly, ← Finset.sum_add_distrib]
  refine Finset.sum_congr rfl fun i _ => ?_
  rw [gcmBit_xor]
  cases gcmBit a i <;> cases gcmBit b i <;> simp [CharTwo.add_self_eq_zero]

theorem blockPoly_zero : blockPoly 0#128 = 0 := by
  simp [blockPoly, gcmBit]

theorem blockPoly_gfOne : blockPoly gfOne = 1 := by
  have hbit : ∀ i < 128, gcmBit gfOne i = decide (i = 0) := by decide
  rw [blockPoly, Finset.sum_congr rfl fun i hi => by rw [hbit i (Finset.mem_range.mp hi)]]
  simp

/-- R61: the block of the reduction is the polynomial less its leading term. -/
theorem blockPoly_reductionBlock : blockPoly reductionBlock = X ^ 7 + X ^ 2 + X + 1 := by
  have hbits : (Finset.range 128).filter (fun i => gcmBit reductionBlock i = true) = {7, 2, 1, 0} := by decide
  rw [blockPoly, ← Finset.sum_filter, hbits]
  simp [add_assoc]

/-- Shifting one place gives every coefficient to the next power; the last one falls out. -/
theorem X_mul_blockPoly (v : Block) :
    X * blockPoly v = blockPoly (v >>> 1) + if v.getLsbD 0 then X ^ 128 else 0 := by
  have hfirst : gcmBit (v >>> 1) 0 = false := by simp [gcmBit]
  have hnext : ∀ i ∈ Finset.range 127, gcmBit (v >>> 1) (i + 1) = gcmBit v i := by
    intro i hi
    have hpos : 1 + (127 - (i + 1)) = 127 - i := by have := Finset.mem_range.mp hi; omega
    rw [gcmBit, BitVec.getLsbD_ushiftRight, hpos, gcmBit]
  have hlast : gcmBit v 127 = v.getLsbD 0 := rfl
  have hshift : blockPoly (v >>> 1) = ∑ i ∈ Finset.range 127, if gcmBit v i then X ^ (i + 1) else 0 := by
    rw [blockPoly, Finset.sum_range_succ', hfirst, if_neg Bool.false_ne_true, add_zero]
    exact Finset.sum_congr rfl fun i hi => by rw [hnext i hi]
  rw [hshift, blockPoly, Finset.sum_range_succ, mul_add, Finset.mul_sum]
  simp only [mul_ite, mul_zero, ← pow_succ', hlast]

/-- R62: `mulX` is multiplication by `x`, reduced. -/
theorem gcmPoly_dvd_mulX (v : Block) : gcmPoly ∣ X * blockPoly v - blockPoly (mulX v) := by
  rw [X_mul_blockPoly]
  unfold mulX
  split
  · rw [blockPoly_xor, blockPoly_reductionBlock, add_sub_add_left_eq_sub, CharTwo.sub_eq_add, ← add_assoc,
      ← add_assoc, ← add_assoc, gcmPoly_eq]
  · rw [add_zero, sub_self]
    exact dvd_zero gcmPoly

/-! Blocks as elements of the field. -/

/-- R60: the element of GF(2)[x] modulo the GCM polynomial that a block stands for. -/
noncomputable def fieldElement (b : Block) : AdjoinRoot gcmPoly := AdjoinRoot.mk gcmPoly (blockPoly b)

/-- Two blocks that stand for one element differ by a multiple of the GCM polynomial of lower degree, so by nothing. -/
theorem fieldElement_eq_iff (a b : Block) : fieldElement a = fieldElement b ↔ a = b := by
  refine ⟨fun h => ?_, congrArg fieldElement⟩
  have hdvd : gcmPoly ∣ blockPoly a - blockPoly b := AdjoinRoot.mk_eq_mk.mp h
  rw [CharTwo.sub_eq_add, ← blockPoly_xor] at hdvd
  have hzero : blockPoly (a ^^^ b) = 0 := eq_zero_of_dvd_of_degree_lt hdvd (degree_blockPoly_lt _)
  exact BitVec.xor_eq_zero_iff.mp (blockPoly_injective (hzero.trans blockPoly_zero.symm))

@[simp] theorem fieldElement_xor (a b : Block) : fieldElement (a ^^^ b) = fieldElement a + fieldElement b := by
  rw [fieldElement, blockPoly_xor, map_add, fieldElement, fieldElement]

@[simp] theorem fieldElement_zero : fieldElement 0#128 = 0 := by
  rw [fieldElement, blockPoly_zero, map_zero]

@[simp] theorem fieldElement_gfOne : fieldElement gfOne = 1 := by
  rw [fieldElement, blockPoly_gfOne, map_one]

theorem fieldElement_mulX (v : Block) : fieldElement (mulX v) = AdjoinRoot.root gcmPoly * fieldElement v := by
  rw [fieldElement, fieldElement, ← AdjoinRoot.mk_X, ← map_mul]
  exact (AdjoinRoot.mk_eq_mk.mpr (gcmPoly_dvd_mulX v)).symm

/-- Horner's form of the bits `i` to `i + n - 1` of the multiplier is their polynomial at `x`. -/
theorem fieldElement_bitProduct (x v : Block) (i n : Nat) :
    fieldElement (bitProduct x v i n) =
      (∑ k ∈ Finset.range n, if gcmBit x (i + k) then AdjoinRoot.root gcmPoly ^ k else 0) * fieldElement v := by
  induction n generalizing i with
  | zero => simp [bitProduct]
  | succ n ih =>
    have hnext : ∀ k, i + 1 + k = i + (k + 1) := fun k => by omega
    rw [bitProduct, fieldElement_xor, fieldElement_mulX, ih, Finset.sum_range_succ', Nat.add_zero, pow_zero, add_mul,
      add_comm, ← mul_assoc, Finset.mul_sum]
    congr 2
    · exact Finset.sum_congr rfl fun k _ => by rw [hnext, mul_ite, mul_zero, pow_succ']
    · cases gcmBit x i <;> simp

/-- R63: `gfMul` is the product in the field. -/
@[simp] theorem fieldElement_gfMul (a b : Block) : fieldElement (gfMul a b) = fieldElement a * fieldElement b := by
  have ha : fieldElement a =
      ∑ k ∈ Finset.range 128, if gcmBit a (0 + k) then AdjoinRoot.root gcmPoly ^ k else 0 := by
    rw [fieldElement, blockPoly, map_sum]
    refine Finset.sum_congr rfl fun k _ => ?_
    rw [apply_ite (AdjoinRoot.mk gcmPoly), map_pow, AdjoinRoot.mk_X, map_zero, Nat.zero_add]
  rw [gfMul_eq_bitProduct, fieldElement_bitProduct, ← ha]

/-- Settles O44: two polynomials stand for one element of the field when the GCM polynomial divides their difference. -/
theorem gfMulIsPolynomialProduct : Obligations.GfMulIsPolynomialProduct := by
  intro a b
  have hmul : AdjoinRoot.mk gcmPoly (blockPoly (gfMul a b)) = AdjoinRoot.mk gcmPoly (blockPoly a * blockPoly b) := by
    rw [map_mul]
    exact fieldElement_gfMul a b
  rw [← gcmPoly_eq]
  exact AdjoinRoot.mk_eq_mk.mp hmul

/-! The laws of the field (R69). -/

theorem gfMul_comm (a b : Block) : gfMul a b = gfMul b a := by
  rw [← fieldElement_eq_iff, fieldElement_gfMul, fieldElement_gfMul, mul_comm]

theorem gfMul_assoc (a b c : Block) : gfMul (gfMul a b) c = gfMul a (gfMul b c) := by
  simp only [← fieldElement_eq_iff, fieldElement_gfMul, mul_assoc]

theorem gfMul_xor_left (a b c : Block) : gfMul (a ^^^ b) c = gfMul a c ^^^ gfMul b c := by
  simp only [← fieldElement_eq_iff, fieldElement_gfMul, fieldElement_xor, add_mul]

theorem gfMul_gfOne_left (a : Block) : gfMul gfOne a = a := by
  rw [← fieldElement_eq_iff, fieldElement_gfMul, fieldElement_gfOne, one_mul]

theorem gfMul_zero_left (a : Block) : gfMul 0#128 a = 0#128 := by
  rw [← fieldElement_eq_iff, fieldElement_gfMul, fieldElement_zero, zero_mul]

/-- Settles O43. -/
theorem fieldLaws : Obligations.FieldLaws := fun a b c =>
  ⟨gfMul_comm a b, gfMul_assoc a b c, gfMul_xor_left a b c, gfMul_gfOne_left a, gfMul_zero_left a, BitVec.xor_self⟩

/-! The exponentiator (R68). -/

/-- Square and multiply, with a step for each binary digit of the exponent. -/
theorem fieldElement_gfPowLoop (fuel : Nat) (y p : Block) (c : Nat) (hc : c < 2 ^ fuel) :
    fieldElement (gfPowLoop fuel y p c) = fieldElement y * fieldElement p ^ c := by
  induction fuel generalizing y p c with
  | zero =>
    have h0 : c = 0 := by omega
    rw [gfPowLoop, h0, pow_zero, mul_one]
  | succ fuel ih =>
    rw [gfPowLoop]
    by_cases h0 : c = 0
    · rw [if_pos h0, h0, pow_zero, mul_one]
    · have hhalf : c / 2 < 2 ^ fuel := by rw [pow_succ] at hc; omega
      rw [if_neg h0, ih _ _ _ hhalf, fieldElement_gfMul, ← pow_two, ← pow_mul]
      obtain heven | hodd := Nat.mod_two_eq_zero_or_one c
      · have hsplit : 2 * (c / 2) = c := by omega
        rw [if_neg (by omega), hsplit]
      · have hsplit : 2 * (c / 2) + 1 = c := by omega
        rw [if_pos hodd, fieldElement_gfMul, mul_assoc, ← pow_succ', hsplit]

@[simp] theorem fieldElement_gfPow (a : Block) (n : Nat) : fieldElement (gfPow a n) = fieldElement a ^ n := by
  rw [gfPow, fieldElement_gfPowLoop _ _ _ _ Nat.lt_log2_self, fieldElement_gfOne, one_mul]

theorem gfPow_add (a : Block) (m n : Nat) : gfPow a (m + n) = gfMul (gfPow a m) (gfPow a n) := by
  simp only [← fieldElement_eq_iff, fieldElement_gfPow, fieldElement_gfMul, pow_add]

theorem gfPow_zero (a : Block) : gfPow a 0 = gfOne := by
  rw [← fieldElement_eq_iff, fieldElement_gfPow, pow_zero, fieldElement_gfOne]

theorem gfPow_one (a : Block) : gfPow a 1 = a := by
  rw [← fieldElement_eq_iff, fieldElement_gfPow, pow_one]

theorem zero_gfPow {n : Nat} (h : 1 ≤ n) : gfPow 0#128 n = 0#128 := by
  rw [← fieldElement_eq_iff, fieldElement_gfPow, fieldElement_zero, zero_pow (Nat.one_le_iff_ne_zero.mp h)]

/-- Settles O45. -/
theorem powerLaws : Obligations.PowerLaws := fun a m n =>
  ⟨gfPow_zero a, gfPow_one a, zero_gfPow, gfPow_add a m n⟩

end Sys2Proof.Machine

/-! PROOFS. GHASH (41_ghash.md R71, R73, R74): a partial block byte by byte, and the hash of a string as a polynomial in
the subkey. -/

namespace Sys2Proof

/-! XOR with a string shorter than a block (R71). -/

theorem xorBytes_zeros (bs : Bytes) : xorBytes bs (List.replicate bs.length 0#8) = bs := by
  induction bs with
  | nil => rfl
  | cons b bs ih =>
    rw [List.length_cons, List.replicate_succ, xorBytes, List.zipWith_cons_cons, BitVec.xor_zero]
    exact congrArg (b :: ·) ih

theorem xorBytes_append {a b : Bytes} (c d : Bytes) (h : a.length = b.length) :
    xorBytes (a ++ c) (b ++ d) = xorBytes a b ++ xorBytes c d :=
  List.zipWith_append h

/-- R5: `pad16` does not change the block. -/
theorem blockOfBytes_pad {bs : Bytes} (h : bs.length ≤ 16) :
    blockOfBytes (bs ++ List.replicate (16 - bs.length) 0#8) = blockOfBytes bs := by
  rw [← fitBytes_of_le h, blockOfBytes_fit]

theorem bytesOfBlock_blockOfBytes_short {bs : Bytes} (h : bs.length ≤ 16) :
    bytesOfBlock (blockOfBytes bs) = bs ++ List.replicate (16 - bs.length) 0#8 := by
  rw [← blockOfBytes_pad h, bytesOfBlock_blockOfBytes (by simp [h])]

/-- The block of a short string changes the front of a block only: against the padding, XOR keeps the tail. -/
theorem xor_blockOfBytes_short (y : Block) {bs : Bytes} (h : bs.length ≤ 16) :
    y ^^^ blockOfBytes bs =
      blockOfBytes (xorBytes ((bytesOfBlock y).take bs.length) bs ++ (bytesOfBlock y).drop bs.length) := by
  have hfront : ((bytesOfBlock y).take bs.length).length = bs.length := by simp [h]
  have htail : 16 - bs.length = ((bytesOfBlock y).drop bs.length).length := by simp
  have hbytes : bytesOfBlock (y ^^^ blockOfBytes bs) =
      xorBytes ((bytesOfBlock y).take bs.length) bs ++ (bytesOfBlock y).drop bs.length := by
    rw [bytesOfBlock_xor, bytesOfBlock_blockOfBytes_short h]
    conv_lhs => rw [← List.take_append_drop bs.length (bytesOfBlock y)]
    rw [xorBytes_append _ _ hfront, htail, xorBytes_zeros]
  rw [← hbytes, blockOfBytes_bytesOfBlock]

end Sys2Proof

namespace Sys2Proof.Machine

theorem blockOfBytes_0x80 : blockOfBytes [0x80#8] = gfOne := by decide

/-- Settles O46. -/
theorem ghashPartialRule : Obligations.GhashPartialRule := by
  intro s y bs n hinv _ hn hbs
  have hlen : (bs.take n).length = n := by rw [List.length_take, min_eq_left hbs]
  have hle : (bs.take n).length ≤ 16 := by omega
  refine ⟨?front, ?padded, ?one⟩
  case front =>
    have hxor := xor_blockOfBytes_short y hle
    rw [hlen] at hxor
    rw [ghashPartial_eq, ghashBlock_eq, mulH_of_inv hinv, hxor]
  case padded =>
    have hpad := blockOfBytes_pad hle
    rw [hlen] at hpad
    rw [ghashPartial_eq, hpad]
  case one =>
    have htake : [0x80#8].take 1 = [0x80#8] := rfl
    rw [ghashPartial_eq, ghashBlock_eq, mulH_of_inv hinv, BitVec.zero_xor, htake, blockOfBytes_0x80]
    exact gfMul_gfOne_left s.H

/-! The hash of a string, block by block (R73). -/

/-- R73: a partial last block is folded like a whole one, so the hash of a string is one run over its blocks. -/
theorem ghashWith_eq_run (mul : Block → Block) (y : Block) (m : Bytes) :
    ghashWith mul y m = ghashRunWith mul (blocksOf m.length) y m := by
  by_cases hr : m.length % 16 = 0
  · have hk : blocksOf m.length = m.length / 16 := by unfold blocksOf; omega
    rw [ghashWith_of_blocks _ _ _ hr, hk]
  · have hk : blocksOf m.length = m.length / 16 + 1 := by unfold blocksOf; omega
    have hrest : (m.drop (16 * (m.length / 16))).length < 16 := by rw [List.length_drop]; omega
    have hpos : 0 < (m.drop (16 * (m.length / 16))).length := by rw [List.length_drop]; omega
    rw [ghashWith_split _ _ _ (m.length / 16) (by omega), ghashWith_short _ _ _ hpos hrest, hk, ghashRunWith_add,
      ghashRunWith, ghashRunWith, List.take_of_length_le hrest.le]

theorem gfPow_succ (a : Block) (n : Nat) : gfPow a (n + 1) = gfMul a (gfPow a n) := by
  rw [Nat.add_comm, gfPow_add, gfPow_one]

theorem gfMul_gfPow_zero (a b : Block) : gfMul a (gfPow b 0) = a := by
  rw [gfPow_zero, gfMul_comm, gfMul_gfOne_left]

/-- A fold multiplies what it is given by the subkey, one power more. -/
theorem gfMul_gfMul_gfPow (a h : Block) (n : Nat) : gfMul (gfMul a h) (gfPow h n) = gfMul a (gfPow h (n + 1)) := by
  rw [gfMul_assoc, gfPow_succ]

/-- R74, for the first `q` blocks: the blocks cancel, and what the seeds differ by is multiplied by `h` for each. -/
theorem ghashRunWith_xor_seed (h y y' : Block) (q : Nat) (m : Bytes) :
    ghashRunWith (fun x => gfMul x h) q y m ^^^ ghashRunWith (fun x => gfMul x h) q y' m =
      gfMul (y ^^^ y') (gfPow h q) := by
  induction q generalizing y y' m with
  | zero => rw [ghashRunWith, ghashRunWith, gfMul_gfPow_zero]
  | succ q ih =>
    have hcancel : ∀ b : Block, y ^^^ b ^^^ (y' ^^^ b) = y ^^^ y' := by
      intro b
      rw [BitVec.xor_comm y' b, BitVec.xor_assoc, ← BitVec.xor_assoc b, BitVec.xor_self, BitVec.zero_xor]
    rw [ghashRunWith, ghashRunWith, ih, ← gfMul_xor_left, hcancel, gfMul_gfMul_gfPow]

/-- R73's closed form, for the first `q` blocks. -/
theorem ghashRunWith_eq_powers (h y : Block) (q : Nat) (m : Bytes) :
    ghashRunWith (fun x => gfMul x h) q y m =
      (List.range q).foldl
        (fun acc j => acc ^^^ gfMul (blockOfBytes ((m.drop (16 * j)).take 16)) (gfPow h (q - j)))
        (gfMul y (gfPow h q)) := by
  induction q generalizing y m with
  | zero => exact (gfMul_gfPow_zero y h).symm
  | succ q ih =>
    have hdrop : ∀ j, (m.drop 16).drop (16 * j) = m.drop (16 * (j + 1)) := by
      intro j
      rw [List.drop_drop, Nat.mul_succ, Nat.add_comm]
    have hexp : ∀ j, q + 1 - (j + 1) = q - j := fun j => by omega
    rw [ghashRunWith, ih, gfMul_gfMul_gfPow, gfMul_xor_left, List.range_succ_eq_map, List.foldl_cons, List.foldl_map]
    simp only [hdrop, hexp, Nat.mul_zero, List.drop_zero, Nat.sub_zero, Nat.succ_eq_add_one]

/-- Settles O47: both halves are the statements about a run, for all the blocks of the string. -/
theorem ghashLinear : Obligations.GhashLinear := by
  intro h y y' m
  have hrun : ∀ z, ghashRef h z m = ghashRunWith (fun x => gfMul x h) ((m.length + 15) / 16) z m :=
    fun z => ghashWith_eq_run (fun x => gfMul x h) z m
  exact ⟨by rw [hrun, hrun, ghashRunWith_xor_seed], by rw [hrun, ghashRunWith_eq_powers]⟩

end Sys2Proof.Machine

/-! PROOFS. The counter (42_counter.md R75 to R77): one keystream block on the counter's bytes, the block budget, and
the initial counter block of a nonce. -/

namespace Sys2Proof

/-! A big-endian encoding cut in two (R5). -/

theorem beBytes_add (j k n : Nat) : beBytes (j + k) n = beBytes j (n / 256 ^ k) ++ beBytes k n := by
  induction j with
  | zero => rw [Nat.zero_add, beBytes, List.nil_append]
  | succ j ih =>
    rw [Nat.succ_add, beBytes, ih, beBytes, List.cons_append, Nat.div_div_eq_div_mul, ← pow_add, Nat.add_comm k]

/-- Bytes 0 to 11 of a block and the last four are the encodings of the quotient and the remainder modulo 2^32. -/
theorem bytesOfBlock_split (b : Block) : bytesOfBlock b = beBytes 12 (b.toNat / 2 ^ 32) ++ beBytes 4 b.toNat :=
  beBytes_add 12 4 b.toNat

theorem take_twelve_bytesOfBlock (b : Block) : (bytesOfBlock b).take 12 = beBytes 12 (b.toNat / 2 ^ 32) := by
  rw [bytesOfBlock_split, List.take_left' (length_beBytes ..)]

theorem drop_twelve_bytesOfBlock (b : Block) : (bytesOfBlock b).drop 12 = beBytes 4 b.toNat := by
  rw [bytesOfBlock_split, List.drop_left' (length_beBytes ..)]

/-! Strings padded to whole blocks (R73). -/

theorem length_padBlocks_mod (bs : Bytes) : (padBlocks bs).length % 16 = 0 := by
  rw [padBlocks, List.length_append, List.length_replicate]
  omega

/-- The padding follows the last, partial block. -/
theorem padBlocks_append {a : Bytes} (b : Bytes) (h : a.length % 16 = 0) : padBlocks (a ++ b) = a ++ padBlocks b := by
  have hlen : (a ++ b).length % 16 = b.length % 16 := by rw [List.length_append]; omega
  rw [padBlocks, hlen, List.append_assoc, padBlocks]

end Sys2Proof

namespace Sys2Proof.Machine

/-! One keystream block (R76). -/

theorem inc32_toNat (c : Block) : (inc32 c).toNat = c.toNat / 2 ^ 32 * 2 ^ 32 + (c.toNat + 1) % 2 ^ 32 := by
  have hc := c.isLt
  have hlow : (c.extractLsb' 0 32 + 1#32).toNat = (c.toNat + 1) % 2 ^ 32 := by simp
  have hhigh : (c.extractLsb' 32 96).toNat = c.toNat / 2 ^ 32 := by
    rw [BitVec.extractLsb'_toNat, Nat.shiftRight_eq_div_pow]
    exact Nat.mod_eq_of_lt (by omega)
  rw [inc32, BitVec.toNat_append, ← Nat.shiftLeft_add_eq_or_of_lt (BitVec.isLt _), Nat.shiftLeft_eq, hlow, hhigh]

/-- R76: `inc32` on the bytes of the counter. -/
theorem bytesOfBlock_inc32 (c : Block) :
    bytesOfBlock (inc32 c) =
      (bytesOfBlock c).take 12 ++ beBytes 4 ((beNat ((bytesOfBlock c).drop 12) + 1) % 2 ^ 32) := by
  have hhigh : (inc32 c).toNat / 2 ^ 32 = c.toNat / 2 ^ 32 := by rw [inc32_toNat]; omega
  have hlow : (inc32 c).toNat % 256 ^ 4 = (c.toNat % 256 ^ 4 + 1) % 2 ^ 32 := by rw [inc32_toNat]; omega
  rw [take_twelve_bytesOfBlock, drop_twelve_bytesOfBlock, beNat_beBytes, bytesOfBlock_split, hhigh, ← hlow,
    beBytes_mod]

/-- Settles O48: the state is the one `nextKeystreamBlock_eq` gives, and what `inc32` does is said on the bytes. -/
theorem keystreamBlock : Obligations.KeystreamBlock := by
  intro s hbudget
  refine ⟨_, nextKeystreamBlock_eq s hbudget, bytesOfBlock_inc32 s.ctr, rfl, ?_⟩
  rw [setPath_blocksRem]
  bv_omega

/-! The block budget (R77). -/

section
variable {s t : State} {data : Bytes}

/-- R81, R82: in a session PROC and FINAL have one check left, that of the ceiling. -/
theorem payFailure_of_inSession (hs : inSession s) (hfit : ¬payFits s data.length) :
    payFailure data s = some .inputTooLarge := by
  have hlarge : payTooLarge data.length s = true := by
    rw [← Bool.not_eq_false, payTooLarge_eq_false_iff]
    exact hfit
  rw [payFailure, (streamLegal_iff s).mpr hs, hlarge]
  rfl

theorem Inv.execProc_ne_invalidState (h : Inv s) (hs : inSession s) (he : execProc data s = .next t) :
    lastStatus t ≠ some .invalidState := by
  by_cases hfit : payFits s data.length
  · rw [execProc, (payFailure_eq_none_iff data s).mpr ⟨hs, hfit⟩, h.absorb_eq hs hfit] at he
    cases he
    simp
  · rw [execProc, payFailure_of_inSession hs hfit] at he
    cases he
    simp

theorem Inv.execFinal_ne_invalidState (h : Inv s) (hs : inSession s) (he : execFinal data s = .next t) :
    lastStatus t ≠ some .invalidState := by
  by_cases hfit : payFits s data.length
  · rw [h.execFinal_eq hs hfit] at he
    split_ifs at he <;> cases he <;> simp
  · rw [execFinal, payFailure_of_inSession hs hfit] at he
    cases he
    simp

end

/-- Settles O49: within the ceiling the budget lasts for all of a session's work (`Inv.payload_within_budget`), and past
it the commands refuse with another code. -/
theorem budgetNeverRunsOut : Obligations.BudgetNeverRunsOut := by
  refine ⟨nextKeystreamBlock_exhausted, fun data s t h hs he => ?_, fun c j k hjk hk => inc32n_ne c hjk hk⟩
  obtain hproc | hfinal := he
  · exact h.execProc_ne_invalidState hs hproc
  · exact h.execFinal_ne_invalidState hs hfinal

/-! The initial counter block (R75). -/

/-- R73: one whole block. -/
theorem ghashWith_block (mul : Block → Block) (y : Block) (m : Bytes) (h : m.length = 16) :
    ghashWith mul y m = mul (y ^^^ blockOfBytes m) := by
  rw [ghashWith_of_blocks _ _ _ (by omega), h]
  simp [ghashRunWith, List.take_of_length_le h.le]

/-- R73: the partial block of a short string is hashed as its padding is. -/
theorem ghashWith_padBlocks_short (mul : Block → Block) (y : Block) {m : Bytes} (h : m.length < 16) :
    ghashWith mul y (padBlocks m) = ghashWith mul y m := by
  obtain hnil | hpos := m.length.eq_zero_or_pos
  · rw [List.length_eq_zero_iff.mp hnil]
    rfl
  · have hzeros : (16 - m.length % 16) % 16 = 16 - m.length := by omega
    rw [padBlocks, hzeros, ghashWith_block _ _ _ (by simp; omega), blockOfBytes_pad h.le, ghashWith_short _ _ _ hpos h]

/-- R73: padding a string to whole blocks does not change its hash. -/
theorem ghashWith_padBlocks (mul : Block → Block) (y : Block) (m : Bytes) :
    ghashWith mul y (padBlocks m) = ghashWith mul y m := by
  have hfront : (m.take (16 * (m.length / 16))).length % 16 = 0 := by rw [List.length_take]; omega
  have hrest : (m.drop (16 * (m.length / 16))).length < 16 := by rw [List.length_drop]; omega
  rw [← List.take_append_drop (16 * (m.length / 16)) m, padBlocks_append _ hfront, ghashWith_append _ _ _ _ hfront,
    ghashWith_padBlocks_short _ _ hrest, ghashWith_append _ _ _ _ hfront]

theorem length_nonceLengthBytes (n : Nat) : (List.replicate 8 0#8 ++ be64 (8 * n)).length = 16 := by simp

theorem be32_one : be32 1#32 = [0x00#8, 0x00#8, 0x00#8, 0x01#8] := by decide

/-- R75: a 12-byte nonce is followed by the counter value 1. -/
theorem bytesOfBlock_deriveJ0_of_length (s : State) {nonce : Bytes} (h : nonce.length = 12) :
    bytesOfBlock (deriveJ0 s nonce) = nonce ++ be32 1#32 := by
  rw [deriveJ0, deriveJ0With, if_pos h, bytesOfBlock_blockOfBytes (by simp [h])]

/-- R75: the fold of the length block is the last step of one hash. -/
theorem deriveJ0With_eq_ghashWith (mul : Block → Block) {nonce : Bytes} (h : nonce.length ≠ 12) :
    deriveJ0With mul nonce =
      ghashWith mul 0#128 (padBlocks nonce ++ List.replicate 8 0#8 ++ be64 (8 * nonce.length)) := by
  rw [deriveJ0With, if_neg h, List.append_assoc, ghashWith_append _ _ _ _ (length_padBlocks_mod nonce),
    ghashWith_padBlocks, ghashWith_block _ _ _ (length_nonceLengthBytes _), nonceLengthBlock]

/-- Settles O50: the core's multiplier is the product with its subkey (`mulH_of_inv`). -/
theorem deriveJ0Rule : Obligations.DeriveJ0Rule := by
  refine fun s nonce hinv => ⟨fun h => be32_one ▸ bytesOfBlock_deriveJ0_of_length s h, fun h => ?_⟩
  rw [deriveJ0, mulH_of_inv hinv]
  exact deriveJ0With_eq_ghashWith _ h

end Sys2Proof.Machine

/-! PROOFS. The commands answer by answer (43_engine_commands.md R81, R90 to R97): which status each gives, and on OK the whole
of the state after it. -/

namespace Sys2Proof.Machine

/-! The refusals (R81, R82, R90, R113). -/

section
variable {s : State} {data : Bytes}

theorem aadFailure_of_not_takesAad (h : ¬takesAad s) : aadFailure data s = some .invalidState := by
  have hlegal : aadLegal s = false := by rwa [← Bool.not_eq_true, aadLegal_iff]
  rw [aadFailure, hlegal]
  rfl

theorem aadFailure_of_takesAad (hs : takesAad s) (hfit : ¬aadFits s data.length) :
    aadFailure data s = some .inputTooLarge := by
  have hlarge : aadTooLarge data.length s = true := by rwa [← Bool.not_eq_false, aadTooLarge_eq_false_iff]
  rw [aadFailure, (aadLegal_iff s).mpr hs, hlarge]
  rfl

theorem payFailure_of_not_inSession (h : ¬inSession s) : payFailure data s = some .invalidState := by
  have hlegal : streamLegal s = false := by rwa [← Bool.not_eq_true, streamLegal_iff]
  rw [payFailure, hlegal]
  rfl

theorem execAad_of_failure {code : Status} (h : aadFailure data s = some code) :
    execAad data s = .next (fail code s) := by
  rw [execAad, h]

theorem execProc_of_failure {code : Status} (h : payFailure data s = some code) :
    execProc data s = .next (fail code s) := by
  rw [execProc, h]

theorem execFinal_of_failure {code : Status} (h : payFailure data s = some code) :
    execFinal data s = .next (fail code s) := by
  rw [execFinal, h]

/-- R90: each of INIT's first four checks that fails gives `InvalidParameter`. -/
theorem initFailure_of_illegal {dir keyv : Bool} {macbits : BitVec 8} {key nonce aad : Bytes}
    (h : ¬InitParametersLegal keyv macbits nonce s) :
    initFailure dir keyv macbits key nonce aad s = some .invalidParameter := by
  by_contra hne
  refine h ⟨?cbs, ?mac, ?nonce, ?key⟩
  case cbs => exact by_contra fun hc => hne (by simp [initFailure, hc])
  case mac => exact by_contra fun hm => hne (initFailure_of_bad_parameters (.inl (decide_eq_false hm)))
  case nonce => exact by_contra fun hn => hne (initFailure_of_bad_parameters (.inr (decide_eq_false hn)))
  case key =>
    refine by_contra fun hk => hne ?_
    rw [not_or, Bool.not_eq_true, Bool.not_eq_true] at hk
    simp [initFailure, hk]

end

/-- Settles O27: the checks come before any work, in R113's order. -/
theorem streamingRefused : Obligations.StreamingRefused := by
  refine fun data s => ⟨fun hs => ?_, fun hs hfit => ?_, fun hs => ?_, fun hs hfit => ?_⟩
  · exact execAad_of_failure (aadFailure_of_not_takesAad hs)
  · exact execAad_of_failure (aadFailure_of_takesAad hs hfit)
  · exact ⟨execProc_of_failure (payFailure_of_not_inSession hs), execFinal_of_failure (payFailure_of_not_inSession hs)⟩
  · exact ⟨execProc_of_failure (payFailure_of_inSession hs hfit), execFinal_of_failure (payFailure_of_inSession hs hfit)⟩

/-- Settles O22: the four clauses are the branches of `initFailure`. -/
theorem initStatus : Obligations.InitStatus := by
  intro dir keyv macbits key nonce aad s
  refine ⟨fun hbad => ?_, fun hlegal hpair => ?_, fun hlegal hpair hlen => ?_, fun hlegal hpair hlen => ?_⟩
  · rw [exec, execInit, initFailure_of_illegal hbad]
  · rw [exec, execInit, initFailure_of_legal hlegal, if_pos hpair]
  · rw [exec, execInit, initFailure_of_legal hlegal, if_neg hpair, if_pos (show Config.ceil < aad.length from hlen)]
  · rw [exec, execInit, initFailure_of_legal hlegal, if_neg hpair,
      if_neg (show ¬Config.ceil < aad.length from not_lt.mpr hlen)]
    exact ⟨_, rfl, lastStatus_respond ..⟩

/-! INIT (R90). -/

/-- R13 to R15, R90: the key step, register by register; a key that is kept has its own subkey and tables already. -/
theorem Inv.initKey_eq {s : State} (h : Inv s) {keyv : Bool} (key : Bytes) (hkey : keyv = true ∨ s.kv = true) :
    initKey keyv key s =
      { s with
        kv := true
        key := if keyv then key else s.key
        H := if keyChanged keyv key s then encryptWith s.params.cipher key 0#128 else s.H
        M := tablesFor s.params.multImpl (if keyChanged keyv key s then encryptWith s.params.cipher key 0#128 else s.H)
        port := s.port ++ if keyChanged keyv key s then [.load key, .enc 0#128] else [] } := by
  have hkv : (initKey keyv key s).kv = true := initKey_kv hkey
  rw [← initKey_key keyv key s]
  unfold initKey at hkv ⊢
  cases hc : keyChanged keyv key s with
  | true =>
    have hport := loadNewKey_port key s
    simp only [if_true, ← hport]
    rfl
  | false =>
    rw [hc, if_neg Bool.false_ne_true] at hkv
    simp only [Bool.false_eq_true, if_false, List.append_nil, ← h.tables]
    exact congrArg (fun b => { s with kv := b }) hkv

/-- R90: what INIT arms is the state written out register by register. -/
theorem Inv.initArmed_eq_initState {s : State} (h : Inv s) {dir keyv : Bool} {macbits : BitVec 8} {key nonce : Bytes}
    (hl : InitParametersLegal keyv macbits nonce s) :
    Machine.initArmed dir keyv macbits key nonce s = initState dir keyv macbits key nonce s := by
  have hmul : mulH (initKey keyv key s) = fun x => gfMul x (initKey keyv key s).H :=
    mulH_eq_gfMul (by rw [(h.initKey_configured keyv key).2, initKey_params])
  rw [initArmed_eq, initConfigure, deriveJ0, hmul, h.initKey_eq key hl.key]
  rfl

/-- Settles O23: the session INIT arms, and the counts of the associated data it ingests. -/
theorem initStartsSession : Obligations.InitStartsSession := by
  intro dir keyv macbits key nonce aad s h hl hpair hlen
  have harmed : Inv (initState dir keyv macbits key nonce s) := h.initArmed_eq_initState hl ▸ h.initArmed hl
  have hpass : initFailure dir keyv macbits key nonce aad s = none := by
    rw [initFailure_of_legal hl, if_neg hpair, if_neg (show ¬Config.ceil < aad.length from not_lt.mpr hlen)]
  have hempty : aadTotal (initState dir keyv macbits key nonce s) = 0 := rfl
  obtain ⟨hatLen, hatPos⟩ := aadState_counts aad (initState dir keyv macbits key nonce s) (by omega)
  have hnone : (initState dir keyv macbits key nonce s).atLen.toNat = 0 := rfl
  have hstaged : (initState dir keyv macbits key nonce s).atPos.toNat = 0 := rfl
  refine ⟨?_, macBytesOf_toNat hl.mac, by omega, by omega⟩
  rw [exec, execInit, hpass, initCommit_eq, h.initArmed_eq_initState hl, aadIngest_eq _ _ harmed.atBuf_canonical]

/-! AAD and PROC (R91, R92). -/

section
variable {s : State} {data : Bytes}

theorem Inv.execAad_eq (h : Inv s) (hs : takesAad s) (hfit : aadFits s data.length) :
    execAad data s = .next (Machine.respond .ok [] (Machine.aadState data s)) := by
  rw [execAad, (aadFailure_eq_none_iff data s).mpr ⟨hs, hfit⟩, aadIngest_eq _ _ h.atBuf_canonical]

theorem Inv.execProc_eq (h : Inv s) (hs : inSession s) (hfit : payFits s data.length) :
    execProc data s = .next (Machine.respond .ok (procOutput data s) (Machine.procState data s)) := by
  rw [execProc, (payFailure_eq_none_iff data s).mpr ⟨hs, hfit⟩, h.absorb_eq hs hfit]

theorem aadFits.total_lt (hfit : aadFits s data.length) : aadTotal s + data.length < 2 ^ 64 :=
  lt_of_le_of_lt (le_trans (Nat.le_add_right ..) hfit) (by decide)

end

/-- Settles O26: the accumulator is the hash of the full blocks, by the core's multiplier, which is the product. -/
theorem aadResult : Obligations.AadResult := by
  intro data s h hs hfit
  refine ⟨h.execAad_eq hs hfit, aadTotal_aadState data s hfit.total_lt, ?_, stagedBytes_aadState data s⟩
  have hle := Nat.mul_div_le (pendingAad data s).length 16
  have hlen : ((pendingAad data s).take (16 * ((pendingAad data s).length / 16))).length =
      16 * ((pendingAad data s).length / 16) := by rw [List.length_take, min_eq_left hle]
  show ghashRunWith (mulH s) ((pendingAad data s).length / 16) s.S_at (pendingAad data s) =
    ghashWith _ s.S_at ((pendingAad data s).take (16 * ((pendingAad data s).length / 16)))
  rw [mulH_of_inv h, ghashWith_of_blocks _ _ _ (by omega), hlen, Nat.mul_div_cancel_left _ (by decide),
    ghashRunWith_take _ _ _ _ hle]

/-- Settles O28. -/
theorem procResult : Obligations.ProcResult := by
  intro data s h hs hfit
  obtain ⟨hwin, _⟩ := h.procState_window (data := data)
  obtain ⟨hle, _⟩ := blocksReleased_rest s (pending data s).length
  rw [← h.length_pending]
  exact ⟨h.execProc_eq hs hfit, by rw [procOutput, length_gctr, List.length_take, min_eq_left hle], hwin⟩

/-- Settles O33: with no data no byte is ingested and none absorbed. -/
theorem zeroLengthCommands : Obligations.ZeroLengthCommands := by
  refine fun s h => ⟨fun hs => ?_, fun hs => ?_⟩
  · have hpass : aadFailure [] s = none := (aadFailure_eq_none_iff [] s).mpr ⟨hs, h.ceiling hs.inSession⟩
    rw [exec, execAad, hpass]
    rfl
  · have hpass : payFailure [] s = none := (payFailure_eq_none_iff [] s).mpr ⟨hs, h.ceiling hs⟩
    rw [exec, execProc, hpass]
    rfl

/-! FINAL (R93): the three outcomes of `Inv.execFinal_eq`. -/

/-- Settles O29. -/
theorem finalEncrypts : Obligations.FinalEncrypts := by
  intro data s h hs hfit hd
  have hpayload : finalPayload data s = windowBytes s ++ data := by rw [finalPayload, if_pos hd, pending]
  have hlong : ¬(s.dir = false ∧ s.bufPos.toNat + data.length < s.macBytes.toNat) := by simp [hd]
  rw [exec, h.execFinal_eq hs hfit, if_neg hlong, if_pos (.inl hd), finalOutput, if_pos hd, hpayload]

/-- Settles O30. -/
theorem finalDecrypts : Obligations.FinalDecrypts := by
  intro data s h hs hfit hd hlen htag
  have hlong : ¬(s.dir = false ∧ s.bufPos.toNat + data.length < s.macBytes.toNat) := fun hshort => by omega
  rw [exec, h.execFinal_eq hs hfit, if_neg hlong, if_pos (.inr htag), finalOutput, hd, if_neg Bool.false_ne_true,
    List.append_nil, htag]

/-- Settles O31. -/
theorem finalRejects : Obligations.FinalRejects := by
  refine fun data s h hs hfit hd => ⟨fun hshort => ?_, fun hlen htag => ?_⟩
  · rw [exec, h.execFinal_eq hs hfit, if_pos ⟨hd, hshort⟩]
  · have hlong : ¬(s.dir = false ∧ s.bufPos.toNat + data.length < s.macBytes.toNat) := fun hshort => by omega
    rw [exec, h.execFinal_eq hs hfit, if_neg hlong, if_neg (by simp [hd, htag])]

end Sys2Proof.Machine

/-! PROOFS. What an answer of OK says of each command (43_engine_commands.md R90 to R98): the state after it, the size of its
data, the registers it leaves alone, and the state machine. -/

namespace Sys2Proof.Machine

/-! Answers read backwards: from the status to the state. -/

theorem lastStatus_fail_ne_ok {code : Status} (hcode : code ≠ .ok) (s : State) :
    lastStatus (fail code s) ≠ some .ok := by
  rw [lastStatus_fail]
  exact fun hok => hcode (Option.some.inj hok)

section
variable {s t : State} {data : Bytes}

/-- R90. -/
theorem Inv.execInit_ok {dir keyv : Bool} {macbits : BitVec 8} {key nonce aad : Bytes} (h : Inv s)
    (he : execInit dir keyv macbits key nonce aad s = .next t) (hok : lastStatus t = some .ok) :
    InitParametersLegal keyv macbits nonce s ∧ aad.length ≤ 2 ^ 36 - 32 ∧
      t = Machine.respond .ok [] (Machine.aadState aad (Machine.initArmed dir keyv macbits key nonce s)) := by
  obtain ⟨code, hcode, rfl⟩ | ⟨hpass, rfl⟩ := Machine.execInit_outcome he
  · exact absurd hok (lastStatus_fail_ne_ok hcode s)
  · obtain ⟨hlegal, _, hlen⟩ := initFailure_eq_none hpass
    exact ⟨hlegal, hlen, by rw [initCommit_eq, aadIngest_eq _ _ (h.initArmed hlegal).atBuf_canonical]⟩

/-- R91. -/
theorem Inv.execAad_ok (h : Inv s) (he : execAad data s = .next t) (hok : lastStatus t = some .ok) :
    takesAad s ∧ aadFits s data.length ∧ t = Machine.respond .ok [] (Machine.aadState data s) := by
  obtain ⟨code, hcode, rfl⟩ | ⟨hs, hfit, rfl⟩ := Machine.execAad_outcome he
  · exact absurd hok (lastStatus_fail_ne_ok hcode s)
  · exact ⟨hs, hfit, by rw [aadIngest_eq _ _ h.atBuf_canonical]⟩

/-- R92. -/
theorem Inv.execProc_ok (h : Inv s) (he : execProc data s = .next t) (hok : lastStatus t = some .ok) :
    inSession s ∧ payFits s data.length ∧
      t = Machine.respond .ok (procOutput data s) (Machine.procState data s) := by
  obtain ⟨code, hcode, rfl⟩ | hdone := h.execProc_outcome he
  · exact absurd hok (lastStatus_fail_ne_ok hcode s)
  · exact hdone

/-- R93: FINAL has no tag to compare, or the stream ends in the computed one. -/
def FinalPasses (data : Bytes) (s : State) : Prop :=
  s.dir = true ∨ (s.macBytes.toNat ≤ s.bufPos.toNat + data.length ∧
    finalTag (finalPayload data s) s = finalReceived data s)

/-- R93. -/
theorem Inv.execFinal_ok (h : Inv s) (he : execFinal data s = .next t) (hok : lastStatus t = some .ok) :
    inSession s ∧ payFits s data.length ∧ FinalPasses data s ∧
      t = Machine.respond .ok (finalOutput data s)
        (endSession (finalTag (finalPayload data s) s) (portCalls (finalEvents (finalPayload data s) s) s)) := by
  cases hf : payFailure data s with
  | some code =>
    rw [execFinal_of_failure hf] at he; cases he
    exact absurd hok (lastStatus_fail_ne_ok (payFailure_ne_ok hf) s)
  | none =>
    obtain ⟨hs, hfit⟩ := (payFailure_eq_none_iff data s).mp hf
    rw [h.execFinal_eq hs hfit] at he
    split_ifs at he with hshort hpass <;> cases he
    · exact absurd hok (lastStatus_fail_ne_ok (by decide) _)
    · refine ⟨hs, hfit, ?_, rfl⟩
      by_cases hd : s.dir = true
      · exact .inl hd
      · have hlong : s.macBytes.toNat ≤ s.bufPos.toNat + data.length :=
          not_lt.mp fun hlt => hshort ⟨Bool.eq_false_of_not_eq_true hd, hlt⟩
        exact .inr ⟨hlong, hpass.resolve_left hd⟩
    · exact absurd hok (lastStatus_fail_ne_ok (by decide) _)

/-- R112: a command that does not answer OK ends in `Fail`. -/
theorem Inv.exec_fail_or_ok {i : Instr} (h : Inv s) (he : Machine.exec i s = .next t) :
    (∃ s' code, code ≠ .ok ∧ t = fail code s') ∨ lastStatus t = some .ok := by
  cases i with
  | init dir keyv macbits key nonce aad =>
    obtain ⟨code, hfail⟩ | ⟨_, rfl⟩ := Machine.execInit_outcome he
    · exact .inl ⟨s, code, hfail⟩
    · exact .inr (lastStatus_respond ..)
  | aad data =>
    obtain ⟨code, hfail⟩ | ⟨_, _, rfl⟩ := Machine.execAad_outcome he
    · exact .inl ⟨s, code, hfail⟩
    · exact .inr (lastStatus_respond ..)
  | proc data =>
    obtain ⟨code, hfail⟩ | ⟨_, _, rfl⟩ := h.execProc_outcome he
    · exact .inl ⟨s, code, hfail⟩
    · exact .inr (lastStatus_respond ..)
  | final data =>
    obtain ⟨s', code, _, hfail⟩ | ⟨s', out, tag, _, _, rfl⟩ := h.execFinal_outcome he
    · exact .inl ⟨s', code, hfail⟩
    · exact .inr (lastStatus_respond ..)
  | getmac | reset | outsz len | updsz len => cases he; exact .inr (lastStatus_respond ..)

/-- R112: a failure returns no data. -/
theorem Inv.lastData_of_not_ok {i : Instr} (h : Inv s) (he : Machine.exec i s = .next t)
    (hok : lastStatus t ≠ some .ok) : lastData t = [] := by
  obtain ⟨s', code, _, rfl⟩ | hok' := h.exec_fail_or_ok he
  · exact lastData_fail ..
  · exact absurd hok' hok

end

/-! GETMAC (R94). -/

/-- R72: ingesting associated data writes the AAD accumulator and the staging buffer only. -/
theorem aadIngest_frame (data : Bytes) (s : State) :
    aadIngest data s = setAad (aadIngest data s).S_at (aadIngest data s).atLen (aadIngest data s).atBuf
      (aadIngest data s).atPos s := by
  induction data generalizing s with
  | nil => rfl
  | cons b rest ih =>
    have hbyte : ∀ h l v p, setAad h l v p (aadIngestByte s b) = setAad h l v p s := by
      intro h l v p
      unfold aadIngestByte
      dsimp only
      split <;> rfl
    have htail := ih (aadIngestByte s b)
    rwa [hbyte] at htail

/-- R90: an INIT that answers OK leaves the tag length it was given and no tag. -/
theorem execInit_mac {dir keyv : Bool} {macbits : BitVec 8} {key nonce aad : Bytes} {s t : State}
    (he : execInit dir keyv macbits key nonce aad s = .next t) (hok : lastStatus t = some .ok) :
    t.macReg = zeroBuf 16 ∧ t.macBytes.toNat = macbits.toNat / 8 ∧ t.macBytes.toNat ≤ 16 := by
  obtain ⟨code, hcode, rfl⟩ | ⟨hpass, rfl⟩ := execInit_outcome he
  · exact absurd hok (lastStatus_fail_ne_ok hcode s)
  · obtain ⟨hlegal, _, _⟩ := initFailure_eq_none hpass
    obtain ⟨_, hmax, _⟩ := hlegal.mac
    have hbits := macBytesOf_toNat hlegal.mac
    rw [respond_macReg, respond_macBytes, initCommit_eq, aadIngest_frame, setAad_macReg, setAad_macBytes,
      initArmed_macReg, initArmed_macBytes]
    exact ⟨rfl, by omega, by omega⟩

/-- R94: with no tag kept GETMAC returns zero bytes. -/
theorem macOut_of_zero {s : State} (h : s.macReg = zeroBuf 16) (hmac : s.macBytes.toNat ≤ 16) :
    macOut s = List.replicate s.macBytes.toNat 0#8 := by
  rw [macOut, h, toList_zeroBuf, List.take_replicate, min_eq_left hmac]

theorem exec_getmac (s : State) : exec .getmac s = .next (respond .ok (macOut s) s) := rfl

/-- Settles O34. -/
theorem getmacResult : Obligations.GetmacResult := by
  refine ⟨exec_getmac, fun s h hst => ?_, fun data s t h he hok => ?_, fun dir keyv macbits key nonce aad s t he hok => ?_,
    ?_⟩
  · rw [exec_getmac, macOut_of_zero (h.macReg_zero hst) h.macBytes_range.2]
  · obtain ⟨_, _, _, rfl⟩ := h.execFinal_ok he hok
    rw [exec_getmac]
    congr 2
    exact take_fitBytes (h.length_finalTag _) h.macBytes_range.2
  · obtain ⟨hreg, hbytes, hmax⟩ := execInit_mac he hok
    rw [exec_getmac, macOut_of_zero hreg hmax, hbytes]
  · exact exec_getmac State.reset

/-! RESET (R95). -/

/-- R95: in UNINIT everything RESET would clear is clear. -/
theorem Inv.resetSession_of_uninit {s : State} (h : Inv s) (hst : s.st = .uninit) : Machine.resetSession s = s := by
  obtain ⟨hcfgv, hJ0⟩ := h.unconfigured hst
  have hc := h.cleared (.inl hst)
  have herr : s.err = .ok := by
    by_contra herr
    exact absurd (hst.symm.trans (h.err_failed.mp herr)) (by decide)
  rw [resetSession_end s (by simp [hcfgv])]
  apply State.ext
  case st => exact hst.symm
  case err => exact herr.symm
  case cfgv => exact hcfgv.symm
  case J0 => exact hJ0.symm
  case ctr => exact (hc.ctr.trans hJ0).symm
  case blocksRem => exact hc.blocksRem.symm
  case S => exact hc.S.symm
  case S_at => exact hc.S_at.symm
  case S_atPre => exact hc.S_atPre.symm
  case atBuf => exact hc.atBuf.symm
  case atPos => exact hc.atPos.symm
  case atLen => exact hc.atLen.symm
  case atLenPre => exact hc.atLenPre.symm
  case buf => exact hc.buf.symm
  case bufPos => exact hc.bufPos.symm
  case payLen => exact hc.payLen.symm
  case macReg => exact (h.macReg_zero (by simp [hst])).symm
  all_goals rfl

/-- Settles O35. -/
theorem resetResult : Obligations.ResetResult := by
  refine ⟨fun s => ?_, fun s h hst => ?_⟩
  · intro cleared
    rw [exec, execReset]
    by_cases hr : s.cfgv = true ∧ s.dir = false
    · obtain ⟨hcfgv, hdir⟩ := hr
      have hrearm : (s.cfgv && !s.dir) = true := by rw [hcfgv, hdir]; rfl
      rw [resetSession_rearm s hcfgv hdir, if_pos hrearm]
      exact congrArg (fun b => Host.Outcome.next (respond .ok [] (cleared s.J0 .ready b))) hcfgv
    · have hend : ¬(s.cfgv && !s.dir) = true := by simpa using hr
      rw [resetSession_end s hr, if_neg hend]
      rfl
  · rw [exec, execReset, h.resetSession_of_uninit hst]

/-! OUTSZ and UPDSZ (R96, R97). -/

/-- R49: a size fits the eight bytes it is returned in. -/
theorem beNat_be64_of_lt {n : Nat} (h : n < 2 ^ 64) : beNat (be64 n) = n := by
  rw [be64, beNat_beBytes, Nat.mod_eq_of_lt (lt_of_lt_of_eq h (by norm_num))]

theorem outSize_lt (n : Word) (s : State) : outSize n.toNat s < 2 ^ 64 := by
  have hn := n.isLt
  have hpos := s.bufPos.isLt
  have hmac := s.macBytes.isLt
  unfold outSize
  dsimp only
  split_ifs <;> omega

theorem updSize_lt (n : Word) (s : State) : updSize n.toNat s < 2 ^ 64 := by
  have hn := n.isLt
  have hpos := s.bufPos.isLt
  unfold updSize
  dsimp only
  split_ifs <;> omega

/-- Settles O36: the size is that of FINAL's output; a stream too short for a tag does not answer OK. -/
theorem outszResult : Obligations.OutszResult := by
  refine fun n s => ⟨rfl, beNat_be64_of_lt (outSize_lt n s), fun data t h hlen he => ⟨fun hok => ?_, fun hd hshort => ?_⟩⟩
  · obtain ⟨_, _, _, rfl⟩ := h.execFinal_ok he hok
    rw [lastData_respond, h.length_finalOutput, hlen]
    rfl
  · have hfails : lastStatus t ≠ some .ok := by
      intro hok
      obtain ⟨_, _, henc | ⟨hlong, _⟩, _⟩ := h.execFinal_ok he hok
      · rw [hd] at henc; cases henc
      · omega
    exact ⟨hfails, h.lastData_of_not_ok he hfails⟩

/-- Settles O37. -/
theorem updszResult : Obligations.UpdszResult := by
  refine fun n s => ⟨rfl, beNat_be64_of_lt (updSize_lt n s), fun data t h hlen he hok => ?_⟩
  obtain ⟨_, _, rfl⟩ := h.execProc_ok he hok
  rw [lastData_respond, h.length_procOutput.2, hlen]
  rfl

/-! What each command leaves alone. Work that fails does not fail with the code OK, in any state. -/

/-- The code with which work has failed, if it has. -/
@[simp] def Work.failure {α : Type} : Work α → Option Status
  | .done _ _ => none
  | .fails _ code => some code

theorem nextKeystreamBlock_failure_ne_ok (s : State) : (nextKeystreamBlock s).failure ≠ some .ok := by
  by_cases h : s.blocksRem = 0#32
  · rw [nextKeystreamBlock_exhausted s h]; simp
  · rw [nextKeystreamBlock_eq s h]; simp

theorem cipherBlock_failure_ne_ok (b : Block) (s : State) : (cipherBlock b s).failure ≠ some .ok := by
  unfold cipherBlock
  split
  · have h := nextKeystreamBlock_failure_ne_ok s
    cases hk : nextKeystreamBlock s with
    | fails s' code => rwa [hk] at h
    | done s' ks => simp
  · have h := nextKeystreamBlock_failure_ne_ok (setHash (ghashBlock s s.S b) s)
    cases hk : nextKeystreamBlock (setHash (ghashBlock s s.S b) s) with
    | fails s' code => rwa [hk] at h
    | done s' ks => simp

theorem absorbByte_failure_ne_ok (b : Byte) (s : State) : (absorbByte b s).failure ≠ some .ok := by
  unfold absorbByte
  dsimp only
  split
  · have h := cipherBlock_failure_ne_ok (blockOfBytes ((s.buf.setIfInBounds s.bufPos.toNat b).toList.take 16))
      (ensureSnapshot s)
    rw [← processBlock] at h
    cases hp : processBlock (blockOfBytes ((s.buf.setIfInBounds s.bufPos.toNat b).toList.take 16)) s with
    | fails s' code => rwa [hp] at h
    | done s' out => simp
  · simp

theorem absorb_failure_ne_ok (d : Bytes) (s : State) : (absorb d s).failure ≠ some .ok := by
  induction d generalizing s with
  | nil => simp [absorb]
  | cons b rest ih =>
    have h := absorbByte_failure_ne_ok b s
    rw [absorb]
    cases hb : absorbByte b s with
    | fails s' code => rwa [hb] at h
    | done s' out =>
      have h' := ih s'
      cases hr : absorb rest s' with
      | fails s'' code => simpa [hr] using h'
      | done s'' outs => simp [hr]

theorem processPartial_failure_ne_ok (n : Nat) (s : State) : (processPartial n s).failure ≠ some .ok := by
  unfold processPartial cipherPartial
  split
  · simp
  · generalize ensureSnapshot s = u
    dsimp only
    generalize (if u.dir = true then u else setHash (ghashPartial u u.S (u.buf.toList.take n) n) u) = v
    have h := nextKeystreamBlock_failure_ne_ok v
    cases hk : nextKeystreamBlock v with
    | fails s' code => rwa [hk] at h
    | done s' ks => simp

theorem finishPayload_failure_ne_ok (s : State) : (finishPayload s).failure ≠ some .ok := by
  unfold finishPayload
  have h := processPartial_failure_ne_ok (extraBytes s) (ensureSnapshot s)
  cases hp : processPartial (extraBytes s) (ensureSnapshot s) with
  | fails s' code => rwa [hp] at h
  | done s' out =>
    dsimp only
    split
    · simp
    · split <;> simp

theorem finalWork_failure_ne_ok (d : Bytes) (s : State) : (finalWork d s).failure ≠ some .ok := by
  unfold finalWork
  have h := absorb_failure_ne_ok d s
  cases ha : absorb d s with
  | fails s' code => rwa [ha] at h
  | done s' out =>
    dsimp only
    split
    · simp
    · have h' := finishPayload_failure_ne_ok s'
      cases hf : finishPayload s' with
      | fails s'' code => rwa [hf] at h'
      | done s'' r => simp

/-- R92, in every state: PROC answers OK to what it has absorbed. -/
theorem execProc_ok {data : Bytes} {s t : State} (he : execProc data s = .next t) (hok : lastStatus t = some .ok) :
    ∃ s' out, absorb data s = .done s' out ∧ t = respond .ok out s' := by
  have hcode := absorb_failure_ne_ok data s
  obtain ⟨code, hne, rfl⟩ | ⟨_, _, ⟨s', code, hw, rfl⟩ | hdone⟩ := execProc_outcome he
  · exact absurd hok (lastStatus_fail_ne_ok hne s)
  · rw [hw] at hcode
    exact absurd hok (lastStatus_fail_ne_ok (fun h => hcode (congrArg some h)) s')
  · exact hdone

/-- R93, in every state: FINAL answers OK when all its work is done. -/
theorem execFinal_ok {data : Bytes} {s t : State} (he : execFinal data s = .next t) (hok : lastStatus t = some .ok) :
    ∃ s' r, finalWork data s = .done s' r ∧ t = respond .ok r.1 (endSession r.2 s') := by
  have hcode := finalWork_failure_ne_ok data s
  obtain ⟨code, hne, rfl⟩ | ⟨_, _, ⟨s', code, hw, rfl⟩ | hdone⟩ := execFinal_outcome he
  · exact absurd hok (lastStatus_fail_ne_ok hne s)
  · rw [hw] at hcode
    exact absurd hok (lastStatus_fail_ne_ok (fun h => hcode (congrArg some h)) s')
  · exact hdone

/-- Settles O38: an OK answer is the response to the work done, and what the work touches is said by `aadIngest_frame`,
`absorb_frame` and `finalWork_frame`. -/
theorem commandFrames : Obligations.CommandFrames := by
  intro i s t he hok
  cases i with
  | init dir keyv macbits key nonce aad =>
    obtain ⟨hchan, hreset⟩ := exec_keeps_channel he
    have hparams := exec_params he
    apply State.ext
    case params => exact hparams
    case chan => exact hchan
    case resetIn => exact hreset
    all_goals rfl
  | aad data =>
    obtain ⟨code, hcode, rfl⟩ | ⟨_, _, rfl⟩ := execAad_outcome he
    · exact absurd hok (lastStatus_fail_ne_ok hcode s)
    · rw [aadIngest_frame]
      rfl
  | proc data =>
    have hframe := absorb_frame data s
    obtain ⟨s', out, hw, rfl⟩ := execProc_ok he hok
    rw [hw, workState, PathFrame] at hframe
    rw [hframe]
    rfl
  | final data =>
    have hframe := finalWork_frame data s
    obtain ⟨s', r, hw, rfl⟩ := execFinal_ok he hok
    rw [hw, workState, PathFrame] at hframe
    rw [hframe]
    rfl
  | reset =>
    cases he
    by_cases hr : s.cfgv = true ∧ s.dir = false
    · obtain ⟨hcfgv, hdir⟩ := hr
      rw [resetSession_rearm s hcfgv hdir]
      rfl
    · rw [resetSession_end s hr]
      rfl
  | getmac | outsz len | updsz len => cases he; rfl

/-! The state machine (R98) and the snapshot (R83). -/

theorem procOutput_eq_nil_iff {data : Bytes} {s : State} :
    procOutput data s = [] ↔ blocksReleased s (pending data s).length = 0 := by
  obtain ⟨hle, _⟩ := blocksReleased_rest s (pending data s).length
  rw [procOutput, ← List.length_eq_zero_iff, length_gctr, List.length_take, min_eq_left hle]
  omega

/-- R83, R98: PROC goes to STREAM, with the snapshot taken, when it releases a block; else it keeps state and snapshot. -/
theorem procState_of_output (data : Bytes) (s : State) :
    (procOutput data s = [] → (procState data s).st = s.st ∧ (procState data s).S_atPre = s.S_atPre ∧
      (procState data s).atLenPre = s.atLenPre) ∧
    (procOutput data s ≠ [] → (procState data s).st = .stream ∧
      (procState data s).S_atPre = (ensureSnapshot s).S_atPre ∧
      (procState data s).atLenPre = (ensureSnapshot s).atLenPre) := by
  rw [ne_eq, procOutput_eq_nil_iff]
  obtain ⟨hst, hS, hl, hk⟩ | ⟨hst, hS, hl, hk⟩ := procState_snapshot data s
  · exact ⟨fun _ => ⟨hst, hS, hl⟩, fun hne => absurd hk hne⟩
  · exact ⟨fun h0 => absurd h0 hk.ne', fun _ => ⟨hst, hS, hl⟩⟩

theorem ensureSnapshot_of_not_stream {s : State} (h : s.st ≠ .stream) : ensureSnapshot s = snapshot s := if_neg h

theorem ensureSnapshot_of_ready {s : State} (h : s.st = .ready) : ensureSnapshot s = snapshot s :=
  ensureSnapshot_of_not_stream (by simp [h])

/-- Settles O51. -/
theorem snapshotRule : Obligations.SnapshotRule := by
  refine ⟨fun s h => ⟨?_, fun hs => snapshot_atLenPre_toNat s ?_⟩, fun data s t h he hok => ?_⟩
  · have hpre : (snapshot s).S_atPre = ghashRef s.H s.S_at (stagedBytes s) := finalAadHash_eq (mulH_of_inv h)
    apply State.ext
    case S => exact hpre
    case S_atPre => exact hpre
    all_goals rfl
  · exact lt_of_le_of_lt (h.aadTotal_le hs) (by decide)
  · obtain ⟨_, _, rfl⟩ := h.execProc_ok he hok
    obtain ⟨hnone, hsome⟩ := procState_of_output data s
    rw [lastData_respond, respond_S_atPre, respond_atLenPre, respond_st]
    refine ⟨fun hkeep => ?_, fun hready hout => ?_⟩
    · by_cases hout : procOutput data s = []
      · obtain ⟨hst, hS, hl⟩ := hnone hout
        exact ⟨hS, hl, hst⟩
      · have hstream := hkeep.resolve_right hout
        obtain ⟨hst, hS, hl⟩ := hsome hout
        rw [ensureSnapshot_of_stream hstream] at hS hl
        exact ⟨hS, hl, hst.trans hstream.symm⟩
    · obtain ⟨hst, hS, hl⟩ := hsome hout
      rw [ensureSnapshot_of_ready hready] at hS hl
      exact ⟨hS, hl, hst⟩

/-- R95, R98: where RESET leads. -/
theorem resetSession_st (s : State) : (resetSession s).st = if s.cfgv && !s.dir then .ready else .uninit := by
  by_cases hr : s.cfgv = true ∧ s.dir = false
  · obtain ⟨hcfgv, hdir⟩ := hr
    rw [resetSession_rearm s hcfgv hdir, hcfgv, hdir]
    rfl
  · have hend : ¬(s.cfgv && !s.dir) = true := by simpa using hr
    rw [resetSession_end s hr, if_neg hend]

/-- Settles O17: row by row on OK; every failure is `Fail`; RESET and the queries do not fail. -/
theorem stateMachineTable : Obligations.StateMachineTable := by
  refine ⟨fun i s t h he => ⟨fun hfails => ?_, fun hok => ?_, fun hquery => ?_⟩, fun s reason rest hr hdec => ?_⟩
  · obtain ⟨s', code, _, rfl⟩ | hok := h.exec_fail_or_ok he
    · exact fail_st ..
    · exact absurd hok hfails
  · cases i with
    | init dir keyv macbits key nonce aad =>
      obtain ⟨_, _, rfl⟩ := h.execInit_ok he hok
      rfl
    | aad data =>
      obtain ⟨hs, _, rfl⟩ := h.execAad_ok he hok
      exact ⟨hs, rfl⟩
    | proc data =>
      obtain ⟨hs, _, rfl⟩ := h.execProc_ok he hok
      obtain ⟨hnone, hsome⟩ := procState_of_output data s
      dsimp only
      rw [lastData_respond, respond_st]
      by_cases hout : procOutput data s = []
      · rw [(hnone hout).1, if_pos hout]
        exact hs.imp (fun hst => ⟨hst, hst⟩) fun hst => ⟨hst, hst⟩
      · rw [(hsome hout).1, if_neg hout]
        exact hs.imp (fun hst => ⟨hst, rfl⟩) fun hst => ⟨hst, rfl⟩
    | final data =>
      obtain ⟨hs, _, _, rfl⟩ := h.execFinal_ok he hok
      exact ⟨hs, rfl⟩
    | reset =>
      cases he
      dsimp only
      rw [respond_st, resetSession_st]
      refine ⟨fun hst => ?_, fun hst => ?_, fun _ => rfl⟩
      · rw [(h.unconfigured hst).1]
        rfl
      · rw [h.configured hst]
        cases s.dir <;> rfl
    | getmac | outsz len | updsz len => cases he; rfl
  · obtain rfl | rfl | ⟨n, rfl⟩ | ⟨n, rfl⟩ := hquery <;> cases he <;> exact lastStatus_respond ..
  · exact ⟨_, step_of_fetch_illegal hr hdec, fail_st ..⟩

end Sys2Proof.Machine

/-! PROOFS. One command after another within a session (43_engine_commands.md R99): no work reads the response channel, the
work on joined data is the work on the pieces, and the counts of the ceiling add up. -/

namespace Sys2Proof.Machine

/-! The response channel (R30) is written by the answers and read by nothing. -/

section
variable (code : Status) (d : Bytes)

theorem ensureSnapshot_respond (s : State) :
    ensureSnapshot (respond code d s) = respond code d (ensureSnapshot s) := by
  by_cases h : s.st = .stream
  · rw [ensureSnapshot_of_stream h, ensureSnapshot_of_stream (s := respond code d s) h]
  · rw [ensureSnapshot, if_neg (show (respond code d s).st ≠ .stream from h), ensureSnapshot, if_neg h]
    rfl

theorem pathState_respond (n : Nat) (x : Bytes) (s : State) :
    pathState n x (respond code d s) = respond code d (pathState n x s) := by
  unfold pathState
  rw [ensureSnapshot_respond]
  rfl

theorem procState_respond (data : Bytes) (s : State) :
    procState data (respond code d s) = respond code d (procState data s) := by
  have hk : blocksReleased (respond code d s) (pending data (respond code d s)).length =
      blocksReleased s (pending data s).length := rfl
  by_cases h0 : blocksReleased s (pending data s).length = 0
  · rw [procState_of_none h0, procState_of_none (hk.trans h0)]
    rfl
  · rw [procState_of_some h0, procState_of_some (hk.trans_ne h0), pathState_respond]
    rfl

theorem finalReconciled_respond (x : Bytes) (s : State) :
    finalReconciled x (respond code d s) = finalReconciled x s := by
  unfold finalReconciled finalHash
  rw [ensureSnapshot_respond]
  rfl

theorem finalTag_respond (x : Bytes) (s : State) : finalTag x (respond code d s) = finalTag x s := by
  unfold finalTag
  rw [finalReconciled_respond]
  rfl

theorem finalPayload_respond (data : Bytes) (s : State) : finalPayload data (respond code d s) = finalPayload data s := rfl

theorem finalOutput_respond (data : Bytes) (s : State) :
    finalOutput data (respond code d s) = finalOutput data s := by
  unfold finalOutput
  rw [finalTag_respond]
  rfl

theorem finalPasses_respond (data : Bytes) (s : State) :
    FinalPasses data (respond code d s) ↔ FinalPasses data s := by
  unfold FinalPasses
  rw [finalTag_respond]
  rfl

theorem aadState_respond (data : Bytes) (s : State) :
    aadState data (respond code d s) = respond code d (aadState data s) := rfl

theorem finalState_respond (data x : Bytes) (s : State) :
    finalState data x (respond code d s) = respond code d (finalState data x s) := by
  unfold finalState tagState
  rw [pathState_respond, finalReconciled_respond]
  rfl

theorem Inv.finalWork_respond {s : State} {data : Bytes} (h : Inv s) (hs : inSession s)
    (hfit : payFits s data.length) (htag : s.dir = false → s.macBytes.toNat ≤ s.bufPos.toNat + data.length) :
    finalWork data (Machine.respond code d s) = (finalWork data s).mapState (Machine.respond code d) := by
  have hreceived : finalReceived data (Machine.respond code d s) = finalReceived data s := rfl
  have hdir : (Machine.respond code d s).dir = s.dir := rfl
  rw [h.finalWork_eq hs hfit htag, (h.respond code d).finalWork_eq hs hfit htag, finalPayload_respond, hreceived, hdir,
    finalTag_respond, finalState_respond]
  split_ifs <;> rfl

end

/-! Joined data (R99). -/

theorem aadState_sessionFrame (data : Bytes) (s : State) : SessionFrame s (aadState data s) := rfl

section
variable {s t : State} {a b : Bytes}

theorem absorb_append {s' s'' : State} {out out' : Bytes} (ha : absorb a s = .done s' out)
    (hb : absorb b s' = .done s'' out') : absorb (a ++ b) s = .done s'' (out ++ out') := by
  induction a generalizing s out with
  | nil => cases ha; exact hb
  | cons x a ih =>
    rw [absorb] at ha
    rw [List.cons_append, absorb]
    cases hx : absorbByte x s with
    | fails s1 code => rw [hx] at ha; cases ha
    | done s1 out1 =>
      rw [hx] at ha
      cases hr : absorb a s1 with
      | fails s2 code => simp only [hr] at ha; cases ha
      | done s2 out2 =>
        simp only [hr] at ha
        cases ha
        simp only [ih hr, List.append_assoc]

theorem finalWork_append {s' s'' : State} {out : Bytes} {r : Bytes × Bytes} (ha : absorb a s = .done s' out)
    (hb : finalWork b s' = .done s'' r) : finalWork (a ++ b) s = .done s'' (out ++ r.1, r.2) := by
  unfold finalWork at hb ⊢
  cases hw : absorb b s' with
  | fails s1 code => rw [hw] at hb; cases hb
  | done s1 out1 =>
    rw [absorb_append ha hw]
    rw [hw] at hb
    dsimp only at hb ⊢
    split_ifs at hb ⊢
    cases hf : finishPayload s1 with
    | fails s2 code => rw [hf] at hb; cases hb
    | done s2 r2 => rw [hf] at hb; cases hb; simp only [List.append_assoc]

/-- R82: a session may still take `n` bytes of associated data and `m` of payload. -/
def SessionFits (s : State) (n m : Nat) : Prop :=
  aadTotal s + n + payEff s (s.payLen.toNat + s.bufPos.toNat + m) ≤ 2 ^ 36 - 32

theorem sessionFits_zero_aad (m : Nat) : SessionFits s 0 m ↔ payFits s m := Iff.rfl

theorem sessionFits_zero_payload (n : Nat) : SessionFits s n 0 ↔ aadFits s n := Iff.rfl

theorem payEff_mono (s : State) {m m' : Nat} (h : m' ≤ m) : payEff s m' ≤ payEff s m := by
  unfold payEff
  split <;> omega

theorem SessionFits.mono {n n' m m' : Nat} (h : SessionFits s n m) (hn : n' ≤ n) (hm : m' ≤ m) : SessionFits s n' m' :=
  le_trans (Nat.add_le_add (Nat.add_le_add_left hn _) (payEff_mono s (Nat.add_le_add_left hm _))) h

theorem SessionFits.aadFits {n m : Nat} (h : SessionFits s n m) : aadFits s n :=
  (sessionFits_zero_payload n).mp (h.mono le_rfl (Nat.zero_le m))

theorem SessionFits.payFits {n m : Nat} (h : SessionFits s n m) : payFits s m :=
  (sessionFits_zero_aad m).mp (h.mono (Nat.zero_le n) le_rfl)

/-- The ceiling counts what PROC has brought. -/
theorem Inv.sessionFits_procState (h : Inv s) (hs : inSession s) (hfit : payFits s a.length) (n m : Nat) :
    SessionFits (Machine.procState a s) n m ↔ SessionFits s n (a.length + m) := by
  obtain ⟨_, hatLen, _, hatPos, _⟩ := procState_aad a s
  obtain ⟨hpay, _, _⟩ := h.procState_progress hs hfit
  obtain ⟨_, _, hpos⟩ := h.procState_window (data := a)
  obtain ⟨hle, _⟩ := blocksReleased_rest s (pending a s).length
  have hlen := h.length_pending (data := a)
  have hsum : (Machine.procState a s).payLen.toNat + (Machine.procState a s).bufPos.toNat + m =
      s.payLen.toNat + s.bufPos.toNat + (a.length + m) := by omega
  rw [SessionFits, aadTotal_congr hatLen hatPos, (h.procState_sessionFrame hs hfit).payEff_eq, hsum, SessionFits]

/-- The ceiling counts what AAD has brought. -/
theorem sessionFits_aadState (hfit : aadFits s a.length) (n m : Nat) :
    SessionFits (aadState a s) n m ↔ SessionFits s (a.length + n) m := by
  have hpay : payEff (aadState a s) ((aadState a s).payLen.toNat + (aadState a s).bufPos.toNat + m) =
      payEff s (s.payLen.toNat + s.bufPos.toNat + m) := rfl
  rw [SessionFits, aadTotal_aadState a s hfit.total_lt, hpay, SessionFits, Nat.add_assoc (aadTotal s)]

theorem inSession_procState (hs : inSession s) : inSession (procState a s) := by
  obtain ⟨hst, _⟩ | ⟨hst, _⟩ := procState_snapshot a s
  · exact hs.imp hst.trans hst.trans
  · exact .inr hst

/-- R85, R92: the blocks and the window are those of the joined data. -/
theorem Inv.procState_append (h : Inv s) (hs : inSession s) (hfit : SessionFits s 0 (a.length + b.length)) :
    Machine.procState (a ++ b) s = Machine.procState b (Machine.procState a s) ∧
      procOutput (a ++ b) s = procOutput a s ++ procOutput b (Machine.procState a s) := by
  have hfita : payFits s a.length := hfit.mono le_rfl (Nat.le_add_right ..)
  have hfitb := (h.sessionFits_procState hs hfita 0 b.length).mpr hfit
  have hfitab : payFits s (a ++ b).length := by rw [List.length_append]; exact hfit
  have hjoin := absorb_append (h.absorb_eq hs hfita) ((h.procState hs hfita).absorb_eq (inSession_procState hs) hfitb)
  rw [h.absorb_eq hs hfitab] at hjoin
  injection hjoin with hstate hout
  exact ⟨hstate, hout⟩

/-- R72, R91: the accumulator and the staged bytes are those of the joined data. -/
theorem Inv.aadState_append (h : Inv s) (hs : inSession s) (hfit : aadFits s a.length) :
    Machine.aadState (a ++ b) s = Machine.aadState b (Machine.aadState a s) := by
  rw [← aadIngest_eq _ _ h.atBuf_canonical, ← aadIngest_eq _ _ h.atBuf_canonical,
    ← aadIngest_eq _ _ (by rw [aadIngest_eq _ _ h.atBuf_canonical]; exact (h.aadState hs hfit).atBuf_canonical)]
  exact List.foldl_append ..

/-- R93: FINAL answers OK when it does not compare tags, or finds them equal. -/
theorem Inv.execFinal_done {data : Bytes} (h : Inv s) (hs : inSession s) (hfit : payFits s data.length)
    (hpass : FinalPasses data s) :
    execFinal data s = .next (Machine.respond .ok (finalOutput data s)
      (endSession (finalTag (finalPayload data s) s) (portCalls (finalEvents (finalPayload data s) s) s))) := by
  have hlong : ¬(s.dir = false ∧ s.bufPos.toNat + data.length < s.macBytes.toNat) := by
    rintro ⟨hd, hshort⟩
    obtain henc | ⟨hlong, _⟩ := hpass
    · exact absurd (hd.symm.trans henc) Bool.false_ne_true
    · omega
  rw [h.execFinal_eq hs hfit, if_neg hlong, if_pos (hpass.imp id And.right)]

end

/-- Settles O52: the joined command passes the same ceiling test, and its work is that of the two. -/
theorem chunkingInvariance : Obligations.ChunkingInvariance := by
  refine ⟨fun a b s t u h het hokt heu hoku => ?_, fun a b s t u h het hokt heu hoku => ?_,
    fun a b s t u h het hokt heu hoku => ?_⟩
  · have ht := h.exec het
    obtain ⟨hs, hfit, rfl⟩ := h.execProc_ok het hokt
    obtain ⟨_, hfitb, rfl⟩ := ht.execProc_ok heu hoku
    have hfitab := (h.sessionFits_procState hs hfit 0 b.length).mp hfitb
    obtain ⟨hstate, hout⟩ := h.procState_append hs hfitab
    refine ⟨_, h.execProc_eq hs (by rw [List.length_append]; exact hfitab), lastStatus_respond .., ?_, ?_⟩
    · simp only [lastData_respond]
      exact hout
    · rw [procState_respond, hstate]
      rfl
  · have ht := h.exec het
    obtain ⟨hs, hfit, rfl⟩ := h.execProc_ok het hokt
    obtain ⟨hst, hfitb, htag, _⟩ := ht.execFinal_ok heu hoku
    obtain ⟨s'', r, hw, rfl⟩ := execFinal_ok heu hoku
    have hlong : (procState a s).dir = false →
        (procState a s).macBytes.toNat ≤ (procState a s).bufPos.toNat + b.length := by
      intro hd
      obtain henc | ⟨hlong, _⟩ := htag
      · exact absurd (hd.symm.trans henc) Bool.false_ne_true
      · exact hlong
    have hfitab : payFits s (a ++ b).length := by
      rw [List.length_append]
      exact (h.sessionFits_procState hs hfit 0 b.length).mp hfitb
    rw [(h.procState hs hfit).finalWork_respond _ _ hst hfitb hlong] at hw
    cases hwb : finalWork b (procState a s) with
    | fails s2 code => rw [hwb] at hw; cases hw
    | done s2 r2 =>
      rw [hwb] at hw
      cases hw
      have hjoin := finalWork_append (h.absorb_eq hs hfit) hwb
      have hexec : execFinal (a ++ b) s = .next (respond .ok (procOutput a s ++ r.1) (endSession r.2 s2)) := by
        rw [execFinal, (payFailure_eq_none_iff _ s).mpr ⟨hs, hfitab⟩, hjoin]
      exact ⟨_, hexec, lastStatus_respond .., by simp only [lastData_respond], rfl⟩
  · have ht := h.exec het
    obtain ⟨hs, hfit, rfl⟩ := h.execAad_ok het hokt
    obtain ⟨_, hfitb, rfl⟩ := ht.execAad_ok heu hoku
    have hfitab : aadFits s (a ++ b).length := by
      rw [List.length_append]
      exact (sessionFits_aadState hfit b.length 0).mp hfitb
    refine ⟨_, h.execAad_eq hs hfitab, lastStatus_respond .., ?_⟩
    rw [h.aadState_append hs.inSession hfit]
    rfl

end Sys2Proof.Machine

/-! PROOFS. Late associated data (43_engine_commands.md R87): the payload a session's registers hold, the accumulator as one
hash over the ciphertext, and reconciliation as a change of that hash's seed (41_ghash.md R74). -/

namespace Sys2Proof.Machine

/-! The payload stream of a session. -/

/-- R84, R100: the ciphertext of a session's payload from its first byte on. -/
def sessionCiphertext (x : Bytes) (s : State) : Bytes :=
  if s.dir then gctr (cipherE s) s.J0 x else x

/-- The payload registers are those of a session whose payload stream so far is `x` (R20, R23, R24): its first `payLen` bytes
have gone through the cipher path, the rest is in the window, and in STREAM the accumulator is the hash of the ciphertext
from the snapshot on (R84). -/
structure HoldsPayload (x : Bytes) (s : State) : Prop where
  total : s.payLen.toNat + s.bufPos.toNat = x.length
  window : windowBytes s = x.drop s.payLen.toNat
  hash : s.st = .stream → s.S = ghashRef s.H s.S_atPre (sessionCiphertext (x.take s.payLen.toNat) s)

section
variable {s : State} {x : Bytes}

/-- It is the ciphertext of bytes that go through the path from the initial counter block on. -/
theorem sessionCiphertext_eq (x : Bytes) (s : State) : sessionCiphertext x s = ciphertextOf x { s with ctr := s.J0 } := rfl

@[simp] theorem length_sessionCiphertext (x : Bytes) (s : State) : (sessionCiphertext x s).length = x.length := by
  rw [sessionCiphertext_eq, ciphertextOf_length]

theorem sessionCiphertext_nil (s : State) : sessionCiphertext [] s = [] :=
  List.length_eq_zero_iff.mp (by simp)

/-- The session's ciphertext depends on its configuration only. -/
theorem sessionCiphertext_congr {t : State} (hd : t.dir = s.dir) (he : cipherE t = cipherE s) (hj : t.J0 = s.J0)
    (x : Bytes) : sessionCiphertext x t = sessionCiphertext x s := by
  rw [sessionCiphertext, hd, he, hj, sessionCiphertext]

theorem SessionFrame.cipherE_eq {t : State} (h : SessionFrame s t) : cipherE t = cipherE s :=
  cipherE_congr h.params_eq h.key_eq

theorem SessionFrame.sessionCiphertext_eq {t : State} (h : SessionFrame s t) (x : Bytes) :
    sessionCiphertext x t = sessionCiphertext x s :=
  sessionCiphertext_congr h.dir_eq h.cipherE_eq h.J0_eq x

/-- R76, R84: the whole blocks that have gone through the path, then the bytes the counter now stands before. -/
theorem Inv.sessionCiphertext_append (h : Inv s) (hs : inSession s) {y z : Bytes} (hy : y.length = s.payLen.toNat) :
    sessionCiphertext (y ++ z) s = sessionCiphertext y s ++ ciphertextOf z s := by
  obtain ⟨hmod, _, hctr⟩ := h.progress hs
  exact ciphertextOf_append y z (s.payLen.toNat / 16) { s with ctr := s.J0 } s (by omega) rfl rfl hctr

theorem Inv.gctr_session_append (h : Inv s) (hs : inSession s) {y z : Bytes} (hy : y.length = s.payLen.toNat) :
    gctr (cipherE s) s.J0 (y ++ z) = gctr (cipherE s) s.J0 y ++ gctr (cipherE s) s.ctr z := by
  obtain ⟨hmod, _, hctr⟩ := h.progress hs
  rw [hctr]
  exact gctr_append _ _ _ _ (s.payLen.toNat / 16) (by omega)

/-- R83, R84: before the snapshot no payload has been hashed, and the snapshot seeds the accumulator. -/
theorem HoldsPayload.hash_eq (hp : HoldsPayload x s) (h : Inv s) (hs : inSession s) :
    (ensureSnapshot s).S =
      ghashRef s.H (ensureSnapshot s).S_atPre (sessionCiphertext (x.take s.payLen.toNat) s) := by
  obtain hready | hstream := hs
  · have hnone : s.payLen.toNat = 0 := by rw [(h.ready hready).payLen]; rfl
    rw [ensureSnapshot_of_ready hready, hnone, List.take_zero, sessionCiphertext_nil, ghashRef_nil]
    rfl
  · rw [ensureSnapshot_of_stream hstream]
    exact hp.hash hstream

theorem Inv.holdsPayload_of_ready (h : Inv s) (hst : s.st = .ready) : HoldsPayload (windowBytes s) s := by
  have hmac := h.macBytes_range.2
  have hcap := windowCap_le s hmac
  have hwin := h.window
  have hnone : s.payLen.toNat = 0 := by rw [(h.ready hst).payLen]; rfl
  refine ⟨?_, by rw [hnone, List.drop_zero], fun hstream => absurd (hst.symm.trans hstream) (by decide)⟩
  rw [hnone, length_windowBytes s (by omega), Nat.zero_add]

/-- Associated data leaves the payload. -/
theorem HoldsPayload.aadState (hp : HoldsPayload x s) (data : Bytes) : HoldsPayload x (aadState data s) :=
  ⟨hp.total, hp.window, hp.hash⟩

theorem HoldsPayload.respond (hp : HoldsPayload x s) (code : Status) (d : Bytes) : HoldsPayload x (respond code d s) :=
  ⟨hp.total, hp.window, hp.hash⟩

theorem HoldsPayload.payLen_le (hp : HoldsPayload x s) : s.payLen.toNat ≤ x.length :=
  hp.total ▸ Nat.le_add_right ..

/-- The window and the new bytes are the part of the stream that has not gone through the path. -/
theorem HoldsPayload.pending_eq (hp : HoldsPayload x s) (data : Bytes) :
    pending data s = (x ++ data).drop s.payLen.toNat := by
  rw [pending, hp.window, List.drop_append_of_le_length hp.payLen_le]

/-- R85, R92: PROC's bytes join the stream. -/
theorem HoldsPayload.procState (hp : HoldsPayload x s) (h : Inv s) (hs : inSession s) {data : Bytes}
    (hfit : payFits s data.length) : HoldsPayload (x ++ data) (procState data s) := by
  have hframe := h.procState_sessionFrame hs hfit
  obtain ⟨hpay, _, _⟩ := h.procState_progress hs hfit
  obtain ⟨hwin, _, hpos⟩ := h.procState_window (data := data)
  obtain ⟨hle, _⟩ := blocksReleased_rest s (pending data s).length
  have hlen := h.length_pending (data := data)
  have htotal := hp.total
  refine ⟨?_, ?_, fun hstream => ?_⟩
  · rw [hpay, hpos, List.length_append]
    omega
  · rw [hwin, hp.pending_eq, List.drop_drop, hpay, hp.pending_eq]
  · by_cases hk : blocksReleased s (pending data s).length = 0
    · rw [procState_of_none hk] at hstream ⊢
      have hsame := hp.hash hstream
      rw [← List.take_append_of_le_length (l₂ := data) hp.payLen_le] at hsame
      exact hsame
    · have hS : (Machine.procState data s).S = ghashWith (mulH s) (Machine.ensureSnapshot s).S
          (ciphertextOf ((pending data s).take (16 * blocksReleased s (pending data s).length)) s) := by
        rw [procState_of_some hk]; rfl
      have hpre : (Machine.procState data s).S_atPre = (Machine.ensureSnapshot s).S_atPre := by
        rw [procState_of_some hk]; rfl
      have hpassed : (x.take s.payLen.toNat).length = s.payLen.toNat := by
        rw [List.length_take, min_eq_left hp.payLen_le]
      have hblocks : (sessionCiphertext (x.take s.payLen.toNat) s).length % 16 = 0 := by
        rw [length_sessionCiphertext, hpassed]
        exact (h.progress hs).1
      rw [hS, hpre, hp.hash_eq h hs, mulH_of_inv h, hframe.H_eq, hframe.sessionCiphertext_eq, hpay, List.take_add,
        ← hp.pending_eq, List.take_append_of_le_length hp.payLen_le, h.sessionCiphertext_append hs hpassed, ghashRef,
        ghashRef, ghashWith_append _ _ _ _ hblocks]

/-! The tag as one hash (R87, R88). -/

/-- The hash of associated data that the tag rests on: that of all of them where some came after the snapshot (R87), the
snapshot otherwise. -/
def aadSeed (s : State) : Block :=
  if (ensureSnapshot s).atLenPre.toNat < aadTotal s then finalAadHash s else (ensureSnapshot s).S_atPre

/-- R74: another seed for the same string. -/
theorem ghashRef_change_seed (h y y' : Block) (m : Bytes) :
    ghashRef h y m ^^^ gfMul (y' ^^^ y) (gfPow h (blocksOf m.length)) = ghashRef h y' m := by
  have hlinear : ghashRef h y' m ^^^ ghashRef h y m = gfMul (y' ^^^ y) (gfPow h (blocksOf m.length)) :=
    (ghashLinear h y' y m).1
  rw [← hlinear, BitVec.xor_comm (ghashRef h y' m), ← BitVec.xor_assoc, BitVec.xor_self, BitVec.zero_xor]

/-- R87: the reconciled accumulator is the hash of the whole ciphertext, seeded with the associated data. -/
theorem HoldsPayload.finalReconciled_eq (hp : HoldsPayload x s) (h : Inv s) (hs : inSession s) (z : Bytes) :
    finalReconciled z s = ghashRef s.H (aadSeed s) (sessionCiphertext (x.take s.payLen.toNat ++ z) s) := by
  have hpassed : (x.take s.payLen.toNat).length = s.payLen.toNat := by
    rw [List.length_take, min_eq_left hp.payLen_le]
  have hblocks : (sessionCiphertext (x.take s.payLen.toNat) s).length % 16 = 0 := by
    rw [length_sessionCiphertext, hpassed]
    exact (h.progress hs).1
  have hjoin := h.sessionCiphertext_append hs (z := z) hpassed
  have hhash : finalHash z s = ghashRef s.H (Machine.ensureSnapshot s).S_atPre
      (sessionCiphertext (x.take s.payLen.toNat ++ z) s) := by
    rw [finalHash, mulH_of_inv h, hp.hash_eq h hs, hjoin, ghashRef, ghashRef, ghashWith_append _ _ _ _ hblocks]
  have hlen : s.payLen.toNat + z.length = (sessionCiphertext (x.take s.payLen.toNat ++ z) s).length := by
    rw [length_sessionCiphertext, List.length_append, hpassed]
  rw [finalReconciled, hhash, hlen, aadSeed]
  split
  · exact ghashRef_change_seed ..
  · rfl

end

end Sys2Proof.Machine

/-! PROOFS. PROC and AAD in either order (43_engine_commands.md R87, R99): the registers that come to differ, and that the tag
does not. -/

namespace Sys2Proof.Machine

/-! Associated data before or after payload. -/

theorem Inv.aadState_nil {s : State} (h : Inv s) : Machine.aadState [] s = s :=
  (aadIngest_eq [] s h.atBuf_canonical).symm

/-- With the snapshot taken before both, or after both, the order of the two makes no difference. -/
theorem procState_aadState_of_kept {p a : Bytes} {s : State}
    (hk : s.st = .stream ∨ blocksReleased s (pending p s).length = 0) :
    procState p (aadState a s) = aadState a (procState p s) := by
  have hsame : blocksReleased (aadState a s) (pending p (aadState a s)).length =
      blocksReleased s (pending p s).length := rfl
  by_cases h0 : blocksReleased s (pending p s).length = 0
  · rw [procState_of_none h0, procState_of_none (hsame.trans h0)]
    rfl
  · have hst := hk.resolve_right h0
    rw [procState_of_some h0, procState_of_some (hsame.trans_ne h0), pathState, pathState, ensureSnapshot_of_stream hst,
      ensureSnapshot_of_stream (s := aadState a s) hst]
    rfl

/-- R83: otherwise it is the snapshot, and the accumulator it seeds, that differ. -/
theorem procState_aadState_frame (p a : Bytes) (s : State) :
    procState p (aadState a s) =
      { aadState a (procState p s) with
        S := (procState p (aadState a s)).S
        S_atPre := (procState p (aadState a s)).S_atPre
        atLenPre := (procState p (aadState a s)).atLenPre } := by
  by_cases hk : s.st = .stream ∨ blocksReleased s (pending p s).length = 0
  · rw [procState_aadState_of_kept hk]
  · obtain ⟨hst, h0⟩ := not_or.mp hk
    have hsame : blocksReleased (aadState a s) (pending p (aadState a s)).length =
        blocksReleased s (pending p s).length := rfl
    rw [procState_of_some h0, procState_of_some (hsame.trans_ne h0), pathState, pathState,
      ensureSnapshot_of_not_stream hst, ensureSnapshot_of_not_stream (s := aadState a s) hst]
    rfl

theorem SessionFrame.mulH_eq {s t : State} (h : SessionFrame s t) : mulH t = mulH s :=
  mulH_congr h.params_eq h.H_eq h.M_eq

section
variable {s : State} {p a : Bytes}

/-- R83, R87: taken before the associated data the snapshot is reconciled with the hash of all of them; taken after them it
is that hash. -/
theorem aadSeed_late (h : Inv s) (hready : s.st = .ready) (hk : blocksReleased s (pending p s).length ≠ 0)
    (ha : a ≠ []) (hfit : SessionFits s a.length p.length) :
    aadSeed (procState p (aadState a s)) = aadSeed (aadState a (procState p s)) := by
  have hfita : aadFits s a.length := hfit.aadFits
  have hfitp : payFits (aadState a s) p.length := (sessionFits_aadState hfita 0 p.length).mpr hfit
  have hframe := procState_aadState_frame p a s
  -- PROC, first or second, goes to STREAM with the snapshot of the moment
  obtain ⟨_, _, _, h0⟩ | ⟨hst, _, hl, _⟩ := procState_snapshot p s
  · exact absurd h0 hk
  obtain ⟨_, _, _, h0⟩ | ⟨hst', hS', hl', _⟩ := procState_snapshot p (aadState a s)
  · exact absurd h0 hk
  rw [ensureSnapshot_of_ready hready] at hl
  rw [ensureSnapshot_of_ready (s := aadState a s) hready] at hS' hl'
  -- the counts
  have htotal : aadTotal (aadState a s) = aadTotal s + a.length := aadTotal_aadState a s hfita.total_lt
  have hsum := hfita.total_lt
  have hpos : 0 < a.length := List.length_pos_iff.mpr ha
  have hcount : aadTotal (procState p (aadState a s)) = aadTotal (aadState a s) := by
    obtain ⟨_, hatLen, _, hatPos, _⟩ := procState_aad p (aadState a s)
    exact aadTotal_congr hatLen hatPos
  have hcount' : aadTotal (aadState a (procState p s)) = aadTotal (aadState a s) := by
    rw [← hcount, hframe]; rfl
  have hbefore : (aadState a (procState p s)).atLenPre.toNat = aadTotal s := by
    show (procState p s).atLenPre.toNat = aadTotal s
    rw [hl, snapshot_atLenPre_toNat s (by omega)]
  have hafter : (procState p (aadState a s)).atLenPre.toNat = aadTotal (aadState a s) := by
    rw [hl', snapshot_atLenPre_toNat _ (by omega)]
  -- the hash of all associated data
  have hhash : finalAadHash (aadState a (procState p s)) = finalAadHash (aadState a s) := by
    have hsame : finalAadHash (aadState a (procState p s)) = finalAadHash (procState p (aadState a s)) := by
      rw [hframe]; rfl
    obtain ⟨hSat, _, hatBuf, hatPos, _⟩ := procState_aad p (aadState a s)
    rw [hsame]
    exact finalAadHash_congr ((h.aadState (.inl hready) hfita).procState_sessionFrame (.inl hready) hfitp).mulH_eq
      hSat hatBuf hatPos
  rw [aadSeed, aadSeed, ensureSnapshot_of_stream hst',
    ensureSnapshot_of_stream (s := aadState a (procState p s)) hst, if_neg (by omega), if_pos (by omega), hhash, hS']
  rfl

/-- R87: reconciliation is right: the tag does not depend on the order of payload and associated data. -/
theorem finalTag_late (h : Inv s) (hs : inSession s) (hfit : SessionFits s a.length p.length) (z : Bytes) :
    finalTag z (procState p (aadState a s)) = finalTag z (aadState a (procState p s)) := by
  have hfita : aadFits s a.length := hfit.aadFits
  have hfitp : payFits s p.length := hfit.payFits
  have hfita' : aadFits (procState p s) a.length := (h.sessionFits_procState hs hfitp a.length 0).mpr hfit
  have hfitp' : payFits (aadState a s) p.length := (sessionFits_aadState hfita 0 p.length).mpr hfit
  by_cases ha : a = []
  · rw [ha, h.aadState_nil, (h.procState hs hfitp).aadState_nil]
  by_cases hkept : s.st = .stream ∨ blocksReleased s (pending p s).length = 0
  · rw [procState_aadState_of_kept hkept]
  obtain ⟨hst, hk⟩ := not_or.mp hkept
  have hready := hs.resolve_right hst
  have hframe := procState_aadState_frame p a s
  have hwindow := h.holdsPayload_of_ready hready
  have hearly := (hwindow.aadState a).procState (h.aadState hs hfita) hs hfitp'
  have hlate := (hwindow.procState h hs hfitp).aadState a
  have hrec : finalReconciled z (procState p (aadState a s)) = finalReconciled z (aadState a (procState p s)) := by
    rw [hearly.finalReconciled_eq ((h.aadState hs hfita).procState hs hfitp') (inSession_procState hs),
      hlate.finalReconciled_eq ((h.procState hs hfitp).aadState (inSession_procState hs) hfita')
        (inSession_procState hs),
      aadSeed_late h hready hk ha hfit, hframe]
    rfl
  rw [finalTag, hrec, hframe]
  rfl

/-- R93: so FINAL computes the same tag and the same output in both orders, and passes alike. -/
theorem final_late (h : Inv s) (hs : inSession s) (hfit : SessionFits s a.length p.length) (f : Bytes) :
    finalTag (finalPayload f (procState p (aadState a s))) (procState p (aadState a s)) =
        finalTag (finalPayload f (aadState a (procState p s))) (aadState a (procState p s)) ∧
      finalOutput f (procState p (aadState a s)) = finalOutput f (aadState a (procState p s)) ∧
      (FinalPasses f (aadState a (procState p s)) → FinalPasses f (procState p (aadState a s))) := by
  have hframe := procState_aadState_frame p a s
  have hpayload : finalPayload f (procState p (aadState a s)) = finalPayload f (aadState a (procState p s)) := by
    rw [hframe]; rfl
  have hreceived : finalReceived f (procState p (aadState a s)) = finalReceived f (aadState a (procState p s)) := by
    rw [hframe]; rfl
  have htag := finalTag_late h hs hfit
  refine ⟨by rw [hpayload, htag], ?_, fun hpass => ?_⟩
  · rw [finalOutput, htag, hpayload, hframe]
    rfl
  · obtain henc | ⟨hlong, hequal⟩ := hpass
    · exact .inl (by rw [hframe]; exact henc)
    · exact .inr ⟨by rw [hframe]; exact hlong, by rw [htag, hpayload, hreceived, hequal]⟩

/-- R81: where AAD is legal after a PROC it was legal before. -/
theorem takesAad_of_procState (h : Inv s) (hs : inSession s) (hfit : payFits s p.length)
    (ht : takesAad (procState p s)) : takesAad s := by
  have hparams := (h.procState_sessionFrame hs hfit).params_eq
  rw [takesAad, hparams] at ht
  obtain ⟨hst, _⟩ | ⟨hst, _⟩ := procState_snapshot p s
  · rwa [hst] at ht
  · obtain hready | ⟨_, hlate⟩ := ht
    · exact absurd (hst.symm.trans hready) (by decide)
    · exact hs.imp_right fun hstream => ⟨hstream, hlate⟩

end

/-- Settles O53: AAD first takes what the ceiling allows it later, and FINAL then finds the same window, counter and tag. -/
theorem lateAadCommutes : Obligations.LateAadCommutes := by
  intro a p f s t u v h het hokt heu hoku hev hokv
  have ht := h.exec het
  have hu := ht.exec heu
  obtain ⟨hs, hfitp, rfl⟩ := h.execProc_ok het hokt
  obtain ⟨htakes, hfitt, rfl⟩ := ht.execAad_ok heu hoku
  obtain ⟨_, hfitf, hpass, rfl⟩ := hu.execFinal_ok hev hokv
  have hfit : SessionFits s a.length p.length := (h.sessionFits_procState hs hfitp a.length 0).mp hfitt
  have hfita : aadFits s a.length := hfit.aadFits
  have hfitp' : payFits (aadState a s) p.length := (sessionFits_aadState hfita 0 p.length).mpr hfit
  have ht' := (h.aadState hs hfita).respond .ok []
  have hproc := ht'.execProc_eq hs hfitp'
  have hu' := ht'.exec (i := .proc p) hproc
  obtain ⟨htag, hout, hpasses⟩ := final_late h hs hfit f
  rw [aadState_respond, finalPasses_respond, finalPasses_respond] at hpass
  rw [procState_respond] at hproc hu'
  have hfitf' : payFits (procState p (aadState a s)) f.length := by rw [procState_aadState_frame]; exact hfitf
  have hfinal := hu'.execFinal_done (inSession_procState (s := aadState a s) hs) hfitf'
    ((finalPasses_respond ..).mpr ((finalPasses_respond ..).mpr (hpasses hpass)))
  refine ⟨_, _, _, h.execAad_eq (takesAad_of_procState h hs hfitp htakes) hfita, lastStatus_respond .., hproc,
    lastStatus_respond .., ?_, hfinal, lastStatus_respond .., ?_, ?_⟩
  · rw [lastData_respond, lastData_respond]
    rfl
  · rw [lastData_respond, lastData_respond, aadState_respond]
    simp only [finalOutput_respond]
    exact hout
  · rw [aadState_respond]
    simp only [respond_macReg, endSession_macReg, finalTag_respond, finalPayload_respond]
    rw [htag]

end Sys2Proof.Machine

/-! PROOFS. Whole sessions (43_engine_commands.md R99, R100): what the registers hold of a session, kept from INIT through its
AAD and PROC commands, and what FINAL then computes. -/

namespace Sys2Proof.Machine

/-! The session as GCM sees it. -/

/-- A session of R100: the cipher under its key, its nonce, its direction and its tag length in bytes. -/
structure GcmSession where
  cipher : Block → Block
  nonce : Bytes
  encrypts : Bool
  tagLen : Nat

namespace GcmSession

/-- R75. -/
def J0 (g : GcmSession) : Block := gcmJ0 g.cipher g.nonce

/-- The payload of a stream: in decryption the last `tagLen` bytes are the tag (R93). -/
def payload (g : GcmSession) (x : Bytes) : Bytes :=
  if g.encrypts then x else x.take (x.length - g.tagLen)

/-- The ciphertext of a payload. -/
def ciphertext (g : GcmSession) (y : Bytes) : Bytes :=
  if g.encrypts then gctr g.cipher g.J0 y else y

/-- The tag over associated data and payload. -/
def tag (g : GcmSession) (a y : Bytes) : Bytes := gcmTag g.cipher g.J0 a (g.ciphertext y) g.tagLen

end GcmSession

/-- The session that an INIT starts (R90). -/
def initSession (dir keyv : Bool) (macbits : BitVec 8) (key nonce : Bytes) (s : State) : GcmSession :=
  { cipher := encryptWith s.params.cipher (if keyv then key else s.key)
    nonce := nonce
    encrypts := dir
    tagLen := macbits.toNat / 8 }

/-- The state `s` is in the midst of the session `g`, begun after `base`: the associated data so far are `a`, the payload
stream so far is `x`, and what has come out is the stream XORed as far as it has gone through the cipher path. -/
structure GcmSession.Holds (g : GcmSession) (base : State) (a x : Bytes) (s : State) : Prop where
  inv : Inv s
  session : inSession s
  cipher : cipherE s = g.cipher
  counter : s.J0 = g.J0
  dir : s.dir = g.encrypts
  macBytes : s.macBytes.toNat = g.tagLen
  aad : HoldsAad a s
  payload : HoldsPayload x s
  later : base.resp.length ≤ s.resp.length
  output : outputSince base s = gctr g.cipher g.J0 (x.take s.payLen.toNat)

/-- What comes out since `base` grows by the data of each response. -/
theorem outputSince_append {base s t : State} {code : Status} {d : Bytes} (hle : base.resp.length ≤ s.resp.length)
    (h : t.resp = s.resp ++ [mkResponse code d]) : outputSince base t = outputSince base s ++ d := by
  rw [outputSince, h, List.drop_append_of_le_length hle, List.flatMap_append, outputSince]
  exact congrArg _ (List.append_nil d)

/-! INIT begins the session (R90). -/

theorem cipherE_eq_encryptWith (s : State) : cipherE s = encryptWith s.params.cipher s.key := rfl

theorem Inv.subkey_of_inSession {s : State} (h : Inv s) (hs : inSession s) : s.H = cipherE s 0#128 :=
  h.subkey (h.keyed (h.cfgv_of_inSession hs))

section
variable {s t : State} {dir keyv : Bool} {macbits : BitVec 8} {key nonce aad : Bytes}

theorem cipherE_initArmed : cipherE (initArmed dir keyv macbits key nonce s) =
    encryptWith s.params.cipher (if keyv then key else s.key) := by
  rw [cipherE_eq_encryptWith, initArmed_params, initArmed_key]

/-- R75, R90: `J0` is that of the nonce under the subkey in force. -/
theorem Inv.initArmed_gcmJ0 (h : Inv s) (hl : InitParametersLegal keyv macbits nonce s) :
    (Machine.initArmed dir keyv macbits key nonce s).J0 =
      gcmJ0 (encryptWith s.params.cipher (if keyv then key else s.key)) nonce := by
  have harmed : Inv (Machine.initArmed dir keyv macbits key nonce s) := h.initArmed hl
  have hmul : mulH (initKey keyv key s) = mulH (Machine.initArmed dir keyv macbits key nonce s) :=
    mulH_congr (by rw [initKey_params, initArmed_params]) (by rw [initArmed_H]) (by rw [initArmed_M])
  rw [initArmed_J0, deriveJ0, hmul, mulH_of_inv harmed, harmed.subkey_of_inSession (.inl rfl), cipherE_initArmed]
  rfl

theorem Inv.init_holds (h : Inv s) (he : Machine.exec (.init dir keyv macbits key nonce aad) s = .next t)
    (hok : lastStatus t = some .ok) : (initSession dir keyv macbits key nonce s).Holds s aad [] t := by
  have ht := h.exec he
  have haad := h.holdsAad_init he []
  rw [sessionAadAfter_of_ok _ hok] at haad
  obtain ⟨hl, _, rfl⟩ := h.execInit_ok he hok
  have hframe : SessionFrame (Machine.initArmed dir keyv macbits key nonce s)
      (Machine.respond .ok [] (Machine.aadState aad (Machine.initArmed dir keyv macbits key nonce s))) :=
    (aadState_sessionFrame aad _).trans (respond_sessionFrame ..)
  obtain ⟨hpay, hpos⟩ : (Machine.initArmed dir keyv macbits key nonce s).payLen.toNat = 0 ∧
      (Machine.initArmed dir keyv macbits key nonce s).bufPos.toNat = 0 := by
    have hc := initArmed_cleared dir keyv macbits key nonce s
    rw [hc.payLen, hc.bufPos]
    exact ⟨rfl, rfl⟩
  have hresp : (Machine.respond .ok []
      (Machine.aadState aad (Machine.initArmed dir keyv macbits key nonce s))).resp = s.resp ++ [mkResponse .ok []] := by
    obtain ⟨_, _, hresp⟩ := initArmed_channels dir keyv macbits key nonce s
    rw [respond_resp, aadState_resp, hresp]
  have hbits := macBytesOf_toNat hl.mac
  exact
  { inv := ht
    session := .inl rfl
    cipher := by rw [hframe.cipherE_eq, cipherE_initArmed]; rfl
    counter := by rw [hframe.J0_eq, h.initArmed_gcmJ0 hl]; rfl
    dir := by rw [hframe.dir_eq, initArmed_dir]; rfl
    macBytes := by
      show (Machine.initArmed dir keyv macbits key nonce s).macBytes.toNat = macbits.toNat / 8
      rw [initArmed_macBytes]
      omega
    aad := haad
    payload := by
      have hempty : HoldsPayload [] (Machine.initArmed dir keyv macbits key nonce s) :=
        ⟨by rw [hpay, hpos]; rfl, by rw [windowBytes, hpos, List.take_zero, List.drop_nil], fun hst => by cases hst⟩
      exact (hempty.aadState aad).respond .ok []
    later := by rw [hresp, List.length_append]; omega
    output := by
      rw [outputSince_append le_rfl hresp, outputSince, List.drop_length, List.take_nil]
      rfl }

end

/-! AAD and PROC go on with it (R91, R92). -/

section
variable {g : GcmSession} {base s t : State} {a x : Bytes}

theorem GcmSession.Holds.of_frame (hh : g.Holds base a x s) (hf : SessionFrame s t) {a' x' : Bytes} {d : Bytes}
    (hinv : Inv t) (hs : inSession t) (haad : HoldsAad a' t) (hpay : HoldsPayload x' t)
    (hresp : t.resp = s.resp ++ [mkResponse .ok d])
    (hout : gctr g.cipher g.J0 (x.take s.payLen.toNat) ++ d = gctr g.cipher g.J0 (x'.take t.payLen.toNat)) :
    g.Holds base a' x' t where
  inv := hinv
  session := hs
  cipher := hf.cipherE_eq.trans hh.cipher
  counter := hf.J0_eq.trans hh.counter
  dir := hf.dir_eq.trans hh.dir
  macBytes := by rw [hf.macBytes_eq]; exact hh.macBytes
  aad := haad
  payload := hpay
  later := by rw [hresp, List.length_append]; exact le_trans hh.later (Nat.le_add_right ..)
  output := by rw [outputSince_append hh.later hresp, hh.output, hout]

theorem GcmSession.Holds.aad_ok (hh : g.Holds base a x s) {data : Bytes} (he : exec (.aad data) s = .next t)
    (hok : lastStatus t = some .ok) : g.Holds base (a ++ data) x t := by
  obtain ⟨hs, hfit, rfl⟩ := hh.inv.execAad_ok he hok
  exact hh.of_frame (d := []) ((aadState_sessionFrame data s).trans (respond_sessionFrame ..))
    ((hh.inv.aadState hs.inSession hfit).respond _ _) hh.session ((hh.aad.aadState hh.inv hfit).respond _ _)
    ((hh.payload.aadState data).respond _ _) rfl (List.append_nil _)

/-- R92, R100: what PROC returns continues the stream. -/
theorem GcmSession.Holds.proc_ok (hh : g.Holds base a x s) {data : Bytes} (he : exec (.proc data) s = .next t)
    (hok : lastStatus t = some .ok) : g.Holds base a (x ++ data) t := by
  obtain ⟨hs, hfit, rfl⟩ := hh.inv.execProc_ok he hok
  obtain ⟨hpay, _, _⟩ := hh.inv.procState_progress hs hfit
  have hpassed : (x.take s.payLen.toNat).length = s.payLen.toNat := by
    rw [List.length_take, min_eq_left hh.payload.payLen_le]
  refine hh.of_frame (d := procOutput data s) ((hh.inv.procState_sessionFrame hs hfit).trans (respond_sessionFrame ..))
    ((hh.inv.procState hs hfit).respond _ _) (inSession_procState hs) ((hh.aad.procState hh.inv hs hfit).respond _ _)
    ((hh.payload.procState hh.inv hs hfit).respond _ _) ?_ ?_
  · rw [respond_resp, hh.inv.procState_resp hs hfit]
  · rw [respond_payLen, hpay, List.take_add, List.take_append_of_le_length hh.payload.payLen_le,
      ← hh.payload.pending_eq, ← hh.cipher, ← hh.counter, hh.inv.gctr_session_append hs hpassed, procOutput]

theorem GcmSession.Holds.streaming_ok (hh : g.Holds base a x s) {i : Instr} (hi : isStreaming i = true)
    (he : exec i s = .next t) (hok : lastStatus t = some .ok) :
    g.Holds base (a ++ aadOf i) (x ++ payloadOf i) t := by
  cases i with
  | aad data => rw [payloadOf, List.append_nil]; exact hh.aad_ok he hok
  | proc data => rw [aadOf, List.append_nil]; exact hh.proc_ok he hok
  | _ => cases hi

/-- R99: however the session is cut into commands. -/
theorem GcmSession.Holds.run {between : List Instr} (hh : g.Holds base a x s)
    (hb : ∀ i ∈ between, isStreaming i = true) (hrun : runOk between s = some t) :
    g.Holds base (a ++ between.flatMap aadOf) (x ++ between.flatMap payloadOf) t := by
  induction between generalizing a x s with
  | nil => cases hrun; simpa using hh
  | cons i rest ih =>
    obtain ⟨u, he, hok, hrest⟩ := runOk_cons hrun
    have hu := hh.streaming_ok (hb i List.mem_cons_self) he hok
    rw [List.flatMap_cons, List.flatMap_cons, ← List.append_assoc, ← List.append_assoc]
    exact ih hu (fun j hj => hb j (List.mem_cons_of_mem i hj)) hrest

end

end Sys2Proof.Machine

/-! PROOFS. The end of a session (43_engine_commands.md R93, R100): FINAL's payload, tag and output in terms of the whole
session, then the statements about whole sessions. -/

namespace Sys2Proof.Machine

/-! The tag of GCM as the core folds it (R88, R100). -/

/-- R100: padding changes no hash, and the two lengths are one more block. -/
theorem gcmTagBlock_eq (e : Block → Block) (j0 : Block) (a c : Bytes) :
    gcmTagBlock e j0 a c =
      e j0 ^^^ gfMul (ghashRef (e 0#128) (ghashRef (e 0#128) 0#128 a) c ^^^ lengthBlock a.length c.length) (e 0#128) := by
  have hpads : (padBlocks a ++ padBlocks c).length % 16 = 0 := by
    have ha := length_padBlocks_mod a
    have hc := length_padBlocks_mod c
    rw [List.length_append]
    omega
  rw [gcmTagBlock, List.append_assoc, ghashRef, ghashWith_append _ _ _ _ hpads,
    ghashWith_append _ _ _ _ (length_padBlocks_mod a), ghashWith_padBlocks, ghashWith_padBlocks,
    ghashWith_block _ _ _ (by simp)]
  rfl

section
variable {g : GcmSession} {base s u : State} {a x data : Bytes}

theorem GcmSession.length_payload (g : GcmSession) (x : Bytes) :
    (g.payload x).length = if g.encrypts then x.length else x.length - g.tagLen := by
  unfold GcmSession.payload
  split
  · rfl
  · rw [List.length_take, min_eq_left (Nat.sub_le ..)]

@[simp] theorem GcmSession.length_ciphertext (g : GcmSession) (y : Bytes) : (g.ciphertext y).length = y.length := by
  unfold GcmSession.ciphertext
  split
  · exact length_gctr ..
  · rfl

namespace GcmSession.Holds

theorem ciphertext_eq (hh : g.Holds base a x s) (y : Bytes) : sessionCiphertext y s = g.ciphertext y := by
  rw [sessionCiphertext, hh.dir, hh.cipher, hh.counter, GcmSession.ciphertext]

theorem subkey (hh : g.Holds base a x s) : s.H = g.cipher 0#128 := by
  rw [hh.inv.subkey_of_inSession hh.session, hh.cipher]

theorem payEff_eq (hh : g.Holds base a x s) (y : Bytes) : payEff s y.length = (g.payload y).length := by
  rw [payEff, hh.dir, hh.macBytes, g.length_payload]

/-- R93: in decryption, once payload has gone through the path, the window holds the last `tagLen` bytes of the stream. -/
theorem tag_held (hh : g.Holds base a x s) (hdec : g.encrypts = false) :
    s.payLen.toNat = 0 ∨ g.tagLen ≤ s.bufPos.toNat := by
  obtain hready | hstream := hh.session
  · exact .inl (by rw [(hh.inv.ready hready).payLen]; rfl)
  · exact .inr (hh.macBytes ▸ (hh.inv.stream hstream).held (hh.dir.trans hdec))

/-- What has gone through the path is payload, never the tag. -/
theorem payLen_le_payload (hh : g.Holds base a x s) (data : Bytes) :
    s.payLen.toNat ≤ (g.payload (x ++ data)).length := by
  have htotal := hh.payload.total
  rw [g.length_payload, List.length_append]
  cases henc : g.encrypts with
  | true => rw [if_pos rfl]; omega
  | false =>
    have hheld := hh.tag_held henc
    rw [if_neg Bool.false_ne_true]
    omega

theorem take_payload (hh : g.Holds base a x s) (data : Bytes) :
    (g.payload (x ++ data)).take s.payLen.toNat = x.take s.payLen.toNat := by
  have hle := hh.payLen_le_payload data
  rw [g.length_payload] at hle
  unfold GcmSession.payload
  split
  · exact List.take_append_of_le_length hh.payload.payLen_le
  · rename_i henc
    rw [if_neg henc] at hle
    rw [List.take_take, min_eq_left hle, List.take_append_of_le_length hh.payload.payLen_le]

/-- R93: FINAL's payload is what is left of the session's. -/
theorem finalPayload_eq (hh : g.Holds base a x s) (data : Bytes) :
    finalPayload data s = (g.payload (x ++ data)).drop s.payLen.toNat := by
  rw [finalPayload, hh.payload.pending_eq, hh.dir, hh.macBytes, GcmSession.payload]
  split
  · rfl
  · rw [List.drop_take, List.length_drop]
    congr 1
    omega

theorem payload_split (hh : g.Holds base a x s) (data : Bytes) :
    x.take s.payLen.toNat ++ finalPayload data s = g.payload (x ++ data) := by
  rw [← hh.take_payload data, hh.finalPayload_eq, List.take_append_drop]

/-- R27 item 12, R87: the hash the tag rests on is that of all associated data. -/
theorem aadSeed_eq (hh : g.Holds base a x s) : aadSeed s = ghashRef s.H 0#128 a := by
  have hsnap := hh.aad.ensureSnapshot hh.inv hh.session
  obtain ⟨hcovers, _⟩ := hh.inv.ensureSnapshot hh.session
  rw [aadSeed]
  split
  · rw [finalAadHash_eq (mulH_of_inv hh.inv), hh.aad.hash_eq hh.inv.atLen_blocks]
  · have hall : (ensureSnapshot s).atLenPre.toNat = a.length := by
      have := hh.aad.total
      omega
    rw [hsnap.snapshot (ensureSnapshot_st s), hall, List.take_length, ensureSnapshot_H]

/-- R88, R100: FINAL computes the tag of GCM. -/
theorem finalTag_eq (hh : g.Holds base a x s) (data : Bytes) :
    finalTag (finalPayload data s) s = g.tag a (g.payload (x ++ data)) := by
  have hlen : s.payLen.toNat + (finalPayload data s).length = (g.payload (x ++ data)).length := by
    rw [← hh.payload_split data, List.length_append, List.length_take, min_eq_left hh.payload.payLen_le]
  rw [finalTag, hh.payload.finalReconciled_eq hh.inv hh.session, hh.payload_split, hlen, hh.aadSeed_eq, hh.aad.total,
    hh.ciphertext_eq, mulH_of_inv hh.inv, hh.subkey, hh.cipher, hh.counter, hh.macBytes, GcmSession.tag, gcmTag,
    gcmTagBlock_eq, GcmSession.length_ciphertext]

/-- R93: what FINAL takes for the received tag is the end of the stream. -/
theorem finalReceived_eq (hh : g.Holds base a x s) (hlong : g.tagLen ≤ s.bufPos.toNat + data.length) :
    finalReceived data s = (x ++ data).drop ((x ++ data).length - g.tagLen) := by
  have htotal := hh.payload.total
  rw [finalReceived, hh.payload.pending_eq, hh.macBytes, List.drop_drop, List.length_drop, List.length_append]
  congr 1
  omega

/-- R82 in terms of the session. -/
theorem payFits_iff (hh : g.Holds base a x s) (data : Bytes) :
    payFits s data.length ↔ a.length + (g.payload (x ++ data)).length ≤ 2 ^ 36 - 32 := by
  rw [payFits, hh.aad.total, hh.payload.total, ← List.length_append, hh.payEff_eq]

/-- R93: when FINAL of a decryption session finds the tag it expects. -/
theorem finalPasses_iff (hh : g.Holds base a x s) (hdec : g.encrypts = false) :
    FinalPasses data s ↔ g.tagLen ≤ (x ++ data).length ∧
      (x ++ data).drop ((x ++ data).length - g.tagLen) = g.tag a (g.payload (x ++ data)) := by
  have hlong : g.tagLen ≤ s.bufPos.toNat + data.length ↔ g.tagLen ≤ (x ++ data).length := by
    have htotal := hh.payload.total
    have hheld := hh.tag_held hdec
    rw [List.length_append]
    omega
  rw [FinalPasses, hh.dir, hdec, hh.macBytes, hh.finalTag_eq, ← hlong]
  simp only [Bool.false_eq_true, false_or]
  refine and_congr_right fun hle => ?_
  rw [hh.finalReceived_eq hle, eq_comm]

/-- R100: what a session's FINAL leaves behind when it answers OK. -/
theorem final_ok (hh : g.Holds base a x s) (he : exec (.final data) s = .next u) (hok : lastStatus u = some .ok) :
    a.length + (g.payload (x ++ data)).length ≤ 2 ^ 36 - 32 ∧
      outputSince base u = gctr g.cipher g.J0 (g.payload (x ++ data)) ++
        (if g.encrypts then g.tag a (g.payload (x ++ data)) else []) ∧
      u.macReg = vecOfBytes 16 (g.tag a (g.payload (x ++ data))) := by
  obtain ⟨hs, hfit, _, rfl⟩ := hh.inv.execFinal_ok he hok
  have hpassed : (x.take s.payLen.toNat).length = s.payLen.toNat := by
    rw [List.length_take, min_eq_left hh.payload.payLen_le]
  refine ⟨(hh.payFits_iff data).mp hfit, ?_, ?_⟩
  · rw [outputSince_append hh.later rfl, hh.output, finalOutput, hh.finalTag_eq, ← hh.dir, ← hh.cipher, ← hh.counter,
      ← List.append_assoc, ← hh.inv.gctr_session_append hs hpassed, hh.payload_split]
  · rw [respond_macReg, endSession_macReg, hh.finalTag_eq]

end GcmSession.Holds

end

end Sys2Proof.Machine

/-! PROOFS. The statements about whole sessions (43_engine_commands.md R99, R100). -/

namespace Sys2Proof.Machine

section
variable {s t : State} {data : Bytes}

/-- R93, R118: within the ceiling FINAL answers OK, or `AuthenticationFailed` without data. -/
theorem Inv.execFinal_status (h : Inv s) (hs : inSession s) (hfit : payFits s data.length) :
    ∃ u, execFinal data s = .next u ∧ (lastStatus u = some .ok ↔ FinalPasses data s) ∧
      (lastStatus u ≠ some .ok → lastStatus u = some .authenticationFailed ∧ lastData u = []) := by
  by_cases hpass : FinalPasses data s
  · refine ⟨_, h.execFinal_done hs hfit hpass, ?_, fun hne => absurd (lastStatus_respond ..) hne⟩
    simp [hpass]
  · obtain ⟨hdec, hdiffers⟩ := not_or.mp hpass
    rw [h.execFinal_eq hs hfit]
    split_ifs with hshort heq
    · exact ⟨_, rfl, by simp [hpass], fun _ => ⟨lastStatus_fail .., lastData_fail ..⟩⟩
    · have hlong : s.macBytes.toNat ≤ s.bufPos.toNat + data.length :=
        not_lt.mp fun hlt => hshort ⟨Bool.eq_false_of_not_eq_true hdec, hlt⟩
      exact absurd ⟨hlong, heq.resolve_left hdec⟩ hdiffers
    · exact ⟨_, rfl, by simp [hpass], fun _ => ⟨lastStatus_fail .., lastData_fail ..⟩⟩

theorem runOk_append {l l' : List Instr} (h : runOk (l ++ l') s = some t) :
    ∃ u, runOk l s = some u ∧ runOk l' u = some t := by
  induction l generalizing s with
  | nil => exact ⟨s, rfl, h⟩
  | cons i rest ih =>
    obtain ⟨u, he, hok, hrest⟩ := runOk_cons h
    obtain ⟨v, hv, hl'⟩ := ih hrest
    refine ⟨v, ?_, hl'⟩
    rw [runOk, he]
    exact (if_pos hok).trans hv

/-- R99: INIT, then AAD and PROC commands. -/
theorem Inv.session_holds {dir keyv : Bool} {macbits : BitVec 8} {key nonce aad : Bytes} {between : List Instr} (h : Inv s)
    (hb : ∀ i ∈ between, isStreaming i = true)
    (hrun : runOk (.init dir keyv macbits key nonce aad :: between) s = some t) :
    InitParametersLegal keyv macbits nonce s ∧
      (initSession dir keyv macbits key nonce s).Holds s (aad ++ between.flatMap aadOf) (between.flatMap payloadOf) t := by
  obtain ⟨u, he, hok, hrest⟩ := runOk_cons hrun
  obtain ⟨hlegal, _, _⟩ := h.execInit_ok he hok
  exact ⟨hlegal, (h.init_holds he hok).run hb hrest⟩

/-- R100: all that an encryption session has done when its FINAL has answered OK. -/
theorem Inv.encryption_session {keyv : Bool} {macbits : BitVec 8} {key nonce aad : Bytes} {between : List Instr} (h : Inv s)
    (hb : ∀ i ∈ between, isStreaming i = true)
    (hrun : runOk (.init true keyv macbits key nonce aad :: (between ++ [.final data])) s = some t) :
    InitParametersLegal keyv macbits nonce s ∧
      (aad ++ between.flatMap aadOf).length + (between.flatMap payloadOf ++ data).length ≤ 2 ^ 36 - 32 ∧
      outputSince s t = gcmSeal (encryptWith s.params.cipher (if keyv then key else s.key)) nonce
        (aad ++ between.flatMap aadOf) (between.flatMap payloadOf ++ data) (macbits.toNat / 8) ∧
      t.macReg = vecOfBytes 16 ((initSession true keyv macbits key nonce s).tag (aad ++ between.flatMap aadOf)
        (between.flatMap payloadOf ++ data)) := by
  rw [← List.cons_append] at hrun
  obtain ⟨u, hu, hlast⟩ := runOk_append hrun
  obtain ⟨v, he, hok, hend⟩ := runOk_cons hlast
  cases hend
  obtain ⟨hlegal, hh⟩ := h.session_holds hb hu
  obtain ⟨hfit, hout, hmac⟩ := hh.final_ok he hok
  exact ⟨hlegal, hfit, hout, hmac⟩

/-- Settles O54: the registers hold the session (`Inv.session_holds`), and FINAL computes its tag (`final_ok`). -/
theorem encryptionSessionIsGcm : Obligations.EncryptionSessionIsGcm := by
  intro keyv macbits key nonce aad between data s t h hb hrun
  obtain ⟨_, _, hout, hmac⟩ := h.encryption_session hb hrun
  exact ⟨hout, hmac⟩

/-- Settles O55: the ceiling lets FINAL run, and its comparison is with the tag of GCM (`finalPasses_iff`). -/
theorem decryptionSessionIsGcm : Obligations.DecryptionSessionIsGcm := by
  intro keyv macbits key nonce aad between data s t h hb hrun e n a x c hceil
  obtain ⟨_, hh⟩ := h.session_holds hb hrun
  have hlen : ((initSession false keyv macbits key nonce s).payload x).length = x.length - n :=
    GcmSession.length_payload _ x
  have hfit : payFits t data.length := (hh.payFits_iff data).mpr (hlen ▸ hceil)
  obtain ⟨u, he, hstatus, hfails⟩ := hh.inv.execFinal_status hh.session hfit
  refine ⟨u, he, hstatus.trans (hh.finalPasses_iff rfl), fun hok => ?_, hfails⟩
  obtain ⟨_, hout, hmac⟩ := hh.final_ok he hok
  exact ⟨hout.trans (List.append_nil _), hmac⟩

theorem length_gcmTag (e : Block → Block) (j0 : Block) (a c : Bytes) {n : Nat} (h : n ≤ 16) :
    (gcmTag e j0 a c n).length = n := by
  rw [gcmTag, List.length_take, length_bytesOfBlock, min_eq_left h]

/-- Settles O57: what the encryption session gives out is ciphertext and tag, and the decryption session finds that tag. -/
theorem openAfterSeal : Obligations.OpenAfterSeal := by
  intro keyv keyv' macbits key key' nonce aad aad' data data' between between' s s' t t' h h' hcipher hkey hb hb' hrun hrun'
    haad hstream
  obtain ⟨hlegal, hceil, hout, _⟩ := h.encryption_session hb hrun
  obtain ⟨_, hmax, _⟩ := hlegal.mac
  have hopen := decryptionSessionIsGcm keyv' macbits key' nonce aad' between' data' s' t' h' hb' hrun'
  dsimp only at hopen
  rw [haad, hstream, hout, hcipher, hkey, gcmSeal] at hopen
  generalize hc : gctr _ _ (between.flatMap payloadOf ++ data) = c at hopen
  generalize hT : gcmTag _ _ _ c (macbits.toNat / 8) = T at hopen
  have hTlen : T.length = macbits.toNat / 8 := by rw [← hT, length_gcmTag _ _ _ _ (by omega)]
  have hclen : c.length = (between.flatMap payloadOf ++ data).length := by rw [← hc, length_gctr]
  have hcut : (c ++ T).length - macbits.toNat / 8 = c.length := by
    rw [List.length_append, hTlen, Nat.add_sub_cancel]
  rw [hcut, List.take_left, List.drop_left] at hopen
  obtain ⟨u, he, hstatus, hdata, _⟩ := hopen (hclen ▸ hceil)
  have hok : lastStatus u = some .ok := hstatus.mpr ⟨by rw [List.length_append]; omega, hT.symm⟩
  obtain ⟨hplain, _⟩ := hdata hok
  exact ⟨u, he, hok, by rw [hplain, ← hc, gctr_gctr]⟩

/-! Sessions within the ceiling (R82). -/

/-- R91, R92: a streaming command within the ceiling answers OK, and the ceiling then counts what it has brought. -/
theorem Inv.streaming_within (h : Inv s) (hs : inSession s) (hlate : s.params.lateAad = true) {i : Instr}
    (hi : isStreaming i = true) {n m : Nat} (hfit : SessionFits s ((aadOf i).length + n) ((payloadOf i).length + m)) :
    ∃ u, Machine.exec i s = .next u ∧ lastStatus u = some .ok ∧ inSession u ∧ SessionFits u n m ∧ u.dir = s.dir := by
  cases i with
  | aad data =>
    have htakes : takesAad s := hs.imp_right fun hstream => ⟨hstream, hlate⟩
    have hfita : aadFits s data.length := (hfit.mono (Nat.le_add_right ..) le_rfl).aadFits
    have hrest : SessionFits s (data.length + n) m := hfit.mono le_rfl (Nat.le_add_left ..)
    exact ⟨_, h.execAad_eq htakes hfita, lastStatus_respond .., hs, (sessionFits_aadState hfita n m).mpr hrest, rfl⟩
  | proc data =>
    have hfitp : payFits s data.length := (hfit.mono le_rfl (Nat.le_add_right ..)).payFits
    have hrest : SessionFits s n (data.length + m) := hfit.mono (Nat.le_add_left ..) le_rfl
    exact ⟨_, h.execProc_eq hs hfitp, lastStatus_respond .., inSession_procState hs,
      (h.sessionFits_procState hs hfitp n m).mpr hrest, (h.procState_sessionFrame hs hfitp).dir_eq⟩
  | _ => cases hi

theorem Inv.run_within {between : List Instr} {m : Nat} (h : Inv s) (hs : inSession s) (hlate : s.params.lateAad = true)
    (hb : ∀ i ∈ between, isStreaming i = true)
    (hfit : SessionFits s (between.flatMap aadOf).length ((between.flatMap payloadOf).length + m)) :
    ∃ t, runOk between s = some t ∧ Inv t ∧ inSession t ∧ payFits t m ∧ t.dir = s.dir := by
  induction between generalizing s with
  | nil => exact ⟨s, rfl, h, hs, (hfit.mono le_rfl (Nat.le_add_left ..)).payFits, rfl⟩
  | cons i rest ih =>
    rw [List.flatMap_cons, List.flatMap_cons, List.length_append, List.length_append, Nat.add_assoc] at hfit
    obtain ⟨u, he, hok, hsu, hfitu, hdir⟩ := h.streaming_within hs hlate (hb i List.mem_cons_self) hfit
    obtain ⟨t, hrun, ht, hst, hfitt, hdirt⟩ := ih (h.exec he) hsu (by rw [exec_params he, hlate])
      (fun j hj => hb j (List.mem_cons_of_mem i hj)) hfitu
    exact ⟨t, by rw [runOk, he]; exact (if_pos hok).trans hrun, ht, hst, hfitt, hdirt.trans hdir⟩

/-- Settles O56: INIT's session is empty but for its own associated data, and the totals bound every command after it. -/
theorem sessionsRun : Obligations.SessionsRun := by
  intro dir keyv macbits key nonce aad between data s h hl hpair hlate hb hceil
  have hlen : aad.length ≤ 2 ^ 36 - 32 := by
    rw [List.length_append] at hceil
    omega
  obtain ⟨_, _, _, haccept⟩ := initStatus dir keyv macbits key nonce aad s
  obtain ⟨u, he, hok⟩ := haccept hl hpair hlen
  have hh := h.init_holds he hok
  have hfit : SessionFits u (between.flatMap aadOf).length ((between.flatMap payloadOf).length + data.length) := by
    rw [SessionFits, hh.aad.total, hh.payload.total, List.length_nil, Nat.zero_add, ← List.length_append,
      ← List.length_append, hh.payEff_eq, GcmSession.length_payload]
    refine le_trans (Nat.add_le_add_left ?_ _) hceil
    cases dir <;> exact le_rfl
  obtain ⟨t, hrun, ht, hst, hfitt, hdir⟩ := hh.inv.run_within hh.session (by rw [exec_params he, hlate]) hb hfit
  refine ⟨t, by rw [runOk, he]; exact (if_pos hok).trans hrun, hst, fun henc => ?_⟩
  exact ⟨_, ht.execFinal_done hst hfitt (.inl (hdir.trans (hh.dir.trans henc))), lastStatus_respond ..⟩

end

end Sys2Proof.Machine

/-! PROOFS. Failures (60_exceptions.md R112 to R121): a failing command's state is `Fail` on the state before it, what FAILED
refuses, and the two commands that leave it. -/

namespace Sys2Proof.Machine

/-! What `Fail` forgets (R80, R112): the payload path, and what is clear already. -/

/-- R112: of the work a command did before it failed only its calls on the port are left. -/
theorem PathFrame.fail_eq {s s' : State} (h : PathFrame s s') (code : Status) :
    fail code s' = fail code { s with port := s'.port } := by
  unfold PathFrame at h
  rw [h]
  rfl

/-- R80: clearing a session that is clear changes nothing. -/
theorem SessionCleared.clearSession_eq {s : State} (h : SessionCleared s) (hmac : s.macReg = zeroBuf 16) :
    clearSession s = s := by
  rw [State.ext_iff]
  simp [h.ctr, h.blocksRem, h.S, h.S_at, h.S_atPre, h.atBuf, h.atPos, h.atLen, h.atLenPre, h.buf, h.bufPos, h.payLen, hmac]

/-- R121: in FAILED everything `Fail` would clear is clear. -/
theorem Inv.fail_of_failed {s : State} (h : Inv s) (hst : s.st = .failed) (code : Status) :
    fail code s = { s with err := code, resp := s.resp ++ [mkResponse code []] } := by
  have hclear : clearSession s = s :=
    (h.cleared (.inr (.inr hst))).clearSession_eq (h.macReg_zero (by simp [hst]))
  rw [fail, hclear, ← hst]
  rfl

/-! A failing command (R112). -/

section
variable {i : Instr} {s t : State} {code : Status}

/-- R112, in every state: a command that does not answer OK ends in `Fail`, and before that its work has touched the payload
path only. -/
theorem exec_not_ok (he : exec i s = .next t) (hfails : lastStatus t ≠ some .ok) :
    ∃ s' code, PathFrame s s' ∧ t = fail code s' := by
  cases i with
  | init dir keyv macbits key nonce aad =>
    obtain ⟨code, _, hfail⟩ | ⟨_, rfl⟩ := execInit_outcome he
    · exact ⟨s, code, .refl s, hfail⟩
    · exact absurd (lastStatus_respond ..) hfails
  | aad data =>
    obtain ⟨code, _, hfail⟩ | ⟨_, _, rfl⟩ := execAad_outcome he
    · exact ⟨s, code, .refl s, hfail⟩
    · exact absurd (lastStatus_respond ..) hfails
  | proc data =>
    have hframe := absorb_frame data s
    obtain ⟨code, _, hfail⟩ | ⟨_, _, ⟨s', code, hw, hfail⟩ | ⟨s', out, _, rfl⟩⟩ := execProc_outcome he
    · exact ⟨s, code, .refl s, hfail⟩
    · rw [hw] at hframe
      exact ⟨s', code, hframe, hfail⟩
    · exact absurd (lastStatus_respond ..) hfails
  | final data =>
    have hframe := finalWork_frame data s
    obtain ⟨code, _, hfail⟩ | ⟨_, _, ⟨s', code, hw, hfail⟩ | ⟨s', r, _, rfl⟩⟩ := execFinal_outcome he
    · exact ⟨s, code, .refl s, hfail⟩
    · rw [hw] at hframe
      exact ⟨s', code, hframe, hfail⟩
    · exact absurd (lastStatus_respond ..) hfails
  | getmac | reset | outsz len | updsz len => cases he; exact absurd (lastStatus_respond ..) hfails

/-- R112: a failing command's state is `Fail` on the state before it, the calls on the port apart. -/
theorem exec_failure_eq (he : exec i s = .next t) (hcode : lastStatus t = some code) (hne : code ≠ .ok) :
    t = fail code { s with port := t.port } := by
  obtain ⟨s', code', hframe, rfl⟩ := exec_not_ok he (by simpa [hcode] using hne)
  obtain rfl : code' = code := Option.some.inj ((lastStatus_fail code' s').symm.trans hcode)
  exact hframe.fail_eq code'

/-- R33, R112: FINAL alone makes calls on the port before it fails. -/
theorem Inv.port_of_failure (h : Inv s) (he : Machine.exec i s = .next t) (hfails : lastStatus t ≠ some .ok)
    (hi : ∀ data, i ≠ .final data) : t.port = s.port := by
  cases i with
  | init dir keyv macbits key nonce aad =>
    obtain ⟨_, hkept⟩ := execInit_port he
    exact hkept (.inl hfails)
  | aad data => exact execAad_port he
  | proc data =>
    obtain ⟨_, hkept⟩ := h.execProc_port he
    exact hkept hfails
  | final data => exact absurd rfl (hi data)
  | getmac | reset | outsz len | updsz len => cases he; exact absurd (lastStatus_respond ..) hfails

/-! In FAILED (R81, R121). -/

theorem not_inSession_of_failed (hst : s.st = .failed) : ¬inSession s := by
  simp [inSession, hst]

/-- R81, R112: in FAILED the streaming commands fail with `InvalidState`. -/
theorem streaming_of_failed (hst : s.st = .failed) (data : Bytes) :
    exec (.aad data) s = .next (fail .invalidState s) ∧ exec (.proc data) s = .next (fail .invalidState s) ∧
      exec (.final data) s = .next (fail .invalidState s) := by
  have hs := not_inSession_of_failed hst
  obtain ⟨haad, _, hpay, _⟩ := streamingRefused data s
  exact ⟨haad fun htakes => hs htakes.inSession, hpay hs⟩

/-- R121: a command that fails in FAILED does nothing before it fails. -/
theorem Inv.failure_of_failed (h : Inv s) (hst : s.st = .failed) (he : Machine.exec i s = .next t)
    (hcode : lastStatus t = some code) (hne : code ≠ .ok) : t = fail code s := by
  have hport : t.port = s.port := by
    by_cases hi : ∃ data, i = .final data
    · obtain ⟨data, rfl⟩ := hi
      rw [exec_final_of_failed data hst] at he
      cases he
      exact fail_port ..
    · exact h.port_of_failure he (by simpa [hcode] using hne) (not_exists.mp hi)
  have ht := exec_failure_eq he hcode hne
  rwa [hport] at ht

end

/-- Settles O18: the registers are those of `Fail`, by `exec_failure_eq`. -/
theorem failureEffects : Obligations.FailureEffects := by
  intro i s t code he hcode hne
  have hport : Inv s → (∀ data, i ≠ .final data) → t.port = s.port :=
    fun h hi => h.port_of_failure he (by simpa [hcode] using hne) hi
  obtain ⟨p, rfl⟩ : ∃ p, t = fail code { s with port := p } := ⟨t.port, exec_failure_eq he hcode hne⟩
  exact ⟨rfl, fail_st .., fail_err .., fail_cleared .., fail_macReg .., fail_resp .., rfl, rfl, rfl, rfl, rfl, rfl, rfl, rfl,
    rfl, rfl, rfl, streaming_of_failed (fail_st ..), hport⟩

/-- Settles O21. -/
theorem failureWhileFailed : Obligations.FailureWhileFailed := by
  refine ⟨fun i s t code h hst he hcode hne => ?_, fun s reason rest h hst hr hdec => ?_⟩
  · exact (h.failure_of_failed hst he hcode hne).trans (h.fail_of_failed hst code)
  · rw [step_of_fetch_illegal hr hdec, (h.of_channels rest s.resp s.port s.resetIn).fail_of_failed hst]
    rfl

/-! INIT fails before it writes (R115). -/

/-- R115: INIT's checks read nothing that a failure writes. -/
theorem initFailure_fail (dir keyv : Bool) (macbits : BitVec 8) (key nonce aad : Bytes) (code : Status) (s : State) :
    initFailure dir keyv macbits key nonce aad (fail code s) = initFailure dir keyv macbits key nonce aad s := rfl

/-- R90: an INIT that fails is one whose checks fail. -/
theorem execInit_failure {dir keyv : Bool} {macbits : BitVec 8} {key nonce aad : Bytes} {s t : State} {code : Status}
    (he : execInit dir keyv macbits key nonce aad s = .next t) (hcode : lastStatus t = some code) (hne : code ≠ .ok) :
    initFailure dir keyv macbits key nonce aad s = some code ∧ t = fail code s := by
  unfold execInit at he
  cases hf : initFailure dir keyv macbits key nonce aad s with
  | some code' =>
    rw [hf] at he; cases he
    obtain rfl : code' = code := Option.some.inj ((lastStatus_fail code' s).symm.trans hcode)
    exact ⟨rfl, rfl⟩
  | none =>
    rw [hf] at he; cases he
    exact absurd (Option.some.inj ((lastStatus_respond ..).symm.trans hcode)).symm hne

theorem execInit_of_failure {dir keyv : Bool} {macbits : BitVec 8} {key nonce aad : Bytes} {s : State} {code : Status}
    (h : initFailure dir keyv macbits key nonce aad s = some code) :
    execInit dir keyv macbits key nonce aad s = .next (fail code s) := by
  rw [execInit, h]

/-- Settles O19: after the failure INIT's checks are what they were, and the same illegal descriptor is still one. -/
theorem failedInitKeepsConfiguration : Obligations.FailedInitKeepsConfiguration := by
  refine ⟨fun dir keyv macbits key nonce aad s t code he hcode hne => ?_, fun s t d reason rest hr hd hchan he => ?_⟩
  · obtain ⟨hf, rfl⟩ := execInit_failure he hcode hne
    have hagain := execInit_of_failure ((initFailure_fail dir keyv macbits key nonce aad code s).trans hf)
    exact ⟨rfl, rfl, rfl, rfl, rfl, rfl, rfl, rfl, rfl, rfl, rfl, rfl, fail_cleared code s, rfl, _, hagain,
      lastStatus_fail ..⟩
  · have hfirst : fetch s = .illegal reason (descriptorBytes d ++ rest) := by rw [fetch, hchan, decode_illegal hd]
    rw [step_of_fetch_illegal hr hfirst] at he
    cases he
    exact ⟨lastStatus_fail .., _, step_of_fetch_illegal hr (decode_illegal hd rest), lastStatus_fail ..⟩

/-! Leaving FAILED (R120). -/

theorem resetSession_err (s : State) : (resetSession s).err = .ok := by
  unfold resetSession
  split <;> rfl

theorem resetSession_macReg (s : State) : (resetSession s).macReg = zeroBuf 16 := by
  unfold resetSession
  split <;> rfl

/-- What is left of a session that was ended or is about to begin: nothing of the payload, and no tag. -/
theorem SessionCleared.payload_cleared {s : State} (h : SessionCleared s) (hmac : s.macReg = zeroBuf 16) :
    s.ctr = s.J0 ∧ s.blocksRem = 0xFFFFFFFE#32 ∧ s.S = 0#128 ∧ s.S_atPre = 0#128 ∧ s.atLenPre = 0#64 ∧ s.bufPos = 0#6 ∧
      s.buf = zeroBuf 32 ∧ s.payLen = 0#64 ∧ s.macReg = zeroBuf 16 :=
  ⟨h.ctr, h.blocksRem, h.S, h.S_atPre, h.atLenPre, h.bufPos, h.buf, h.payLen, hmac⟩

/-- Settles O20: a failure stays in FAILED, as the queries do, and the streaming commands fail there; RESET and INIT leave a
cleared session. -/
theorem returnFromFailure : Obligations.ReturnFromFailure := by
  intro i s t h hst he
  have hout := not_inSession_of_failed hst
  by_cases hok : lastStatus t = some .ok
  · cases i with
    | init dir keyv macbits key nonce aad =>
      obtain ⟨_, _, rfl⟩ := h.execInit_ok he hok
      have hclear := (initArmed_cleared dir keyv macbits key nonce s).payload_cleared (initArmed_macReg ..)
      have hleft : FsmState.ready ≠ .failed := by decide
      exact ⟨iff_of_true hleft ⟨hok, .inr ⟨dir, keyv, macbits, key, nonce, aad, rfl⟩⟩,
        fun _ => ⟨initArmed_err .., fun hreset => absurd hreset (by simp), fun _ => rfl, hclear⟩⟩
    | reset =>
      cases he
      have hclear := (resetSession_cleared s).payload_cleared (resetSession_macReg s)
      have hleft : (resetSession s).st ≠ .failed := by rw [resetSession_st]; split <;> decide
      exact ⟨iff_of_true hleft ⟨hok, .inl rfl⟩,
        fun _ => ⟨resetSession_err s, fun _ => resetSession_st s, fun hne => absurd rfl hne, hclear⟩⟩
    | aad data =>
      obtain ⟨hs, _⟩ := h.execAad_ok he hok
      exact absurd hs.inSession hout
    | proc data =>
      obtain ⟨hs, _⟩ := h.execProc_ok he hok
      exact absurd hs hout
    | final data =>
      obtain ⟨hs, _⟩ := h.execFinal_ok he hok
      exact absurd hs hout
    | getmac | outsz len | updsz len =>
      cases he
      exact ⟨iff_of_false (fun hne => hne hst) (by simp), fun hne => absurd hst hne⟩
  · obtain ⟨s', code, _, rfl⟩ := exec_not_ok he hok
    exact ⟨iff_of_false (fun hne => hne (fail_st ..)) (fun ⟨hans, _⟩ => hok hans),
      fun hne => absurd (fail_st ..) hne⟩

end Sys2Proof.Machine

/-! PROOFS. Several cores (60_exceptions.md R125, 20_memory.md R37): a step of one core is no step of another. -/

namespace Sys2Proof.Machine

/-- What a step of core `i` can do: there is no such core, or its state alone is replaced. -/
theorem stepCore_outcome {i : Nat} {cores cores' : List State} (h : stepCore i cores = .next cores') :
    (cores[i]? = none ∧ cores' = cores) ∨
    ∃ s s', cores[i]? = some s ∧ step s = .next s' ∧ cores' = cores.set i s' := by
  unfold stepCore at h
  cases hi : cores[i]? with
  | none => rw [hi] at h; cases h; exact .inl ⟨rfl, rfl⟩
  | some s =>
    rw [hi] at h
    cases hstep : step s with
    | next s' => simp only [hstep] at h; cases h; exact .inr ⟨s, s', rfl, hstep, rfl⟩
    | fault reason => simp only [hstep] at h; cases h
    | refused reason => simp only [hstep] at h; cases h

theorem stepCore_length {i : Nat} {cores cores' : List State} (h : stepCore i cores = .next cores') :
    cores'.length = cores.length := by
  obtain ⟨_, rfl⟩ | ⟨_, s', _, _, rfl⟩ := stepCore_outcome h
  · rfl
  · exact List.length_set

/-- R37: the other cores keep their states. -/
theorem stepCore_getElem?_of_ne {i k : Nat} {cores cores' : List State} (h : stepCore i cores = .next cores')
    (hk : i ≠ k) :
    cores'[k]? = cores[k]? := by
  obtain ⟨_, rfl⟩ | ⟨_, s', _, _, rfl⟩ := stepCore_outcome h
  · rfl
  · exact List.getElem?_set_ne hk

theorem stepCore_getElem?_self {i : Nat} {cores cores' : List State} {s : State} (h : stepCore i cores = .next cores')
    (hs : cores[i]? = some s) : ∃ s', step s = .next s' ∧ cores'[i]? = some s' := by
  obtain ⟨hnone, _⟩ | ⟨u, s', hu, hstep, rfl⟩ := stepCore_outcome h
  · rw [hs] at hnone; cases hnone
  · rw [hs] at hu; cases hu
    obtain ⟨hlt, _⟩ := List.getElem?_eq_some_iff.mp hs
    exact ⟨s', hstep, List.getElem?_set_self hlt⟩

theorem runCores_cons {i : Nat} {schedule : List Nat} {cores cores' : List State}
    (h : runCores (i :: schedule) cores = some cores') :
    ∃ mid, stepCore i cores = .next mid ∧ runCores schedule mid = some cores' := by
  rw [runCores] at h
  cases hstep : stepCore i cores with
  | next mid => rw [hstep] at h; exact ⟨mid, rfl, h⟩
  | fault reason => rw [hstep] at h; cases h
  | refused reason => rw [hstep] at h; cases h

theorem runCore_succ {n : Nat} {s s' : State} (h : step s = .next s') : runCore (n + 1) s = runCore n s' := by
  rw [runCore, h]

/-- R125, for one core: its own entries in the schedule are the steps it takes. -/
theorem runCores_getElem? {schedule : List Nat} {cores cores' : List State} (h : runCores schedule cores = some cores')
    {k : Nat} {s : State} (hs : cores[k]? = some s) :
    ∃ s', cores'[k]? = some s' ∧ runCore (schedule.count k) s = some s' := by
  induction schedule generalizing cores s with
  | nil => cases h; exact ⟨s, hs, rfl⟩
  | cons i schedule ih =>
    obtain ⟨mid, hstep, hrun⟩ := runCores_cons h
    by_cases hik : i = k
    · subst hik
      obtain ⟨s₁, hs₁, hmid⟩ := stepCore_getElem?_self hstep hs
      rw [List.count_cons_self, runCore_succ hs₁]
      exact ih hrun hmid
    · rw [List.count_cons_of_ne hik]
      exact ih hrun ((stepCore_getElem?_of_ne hstep hik).trans hs)

theorem runCores_length {schedule : List Nat} {cores cores' : List State} (h : runCores schedule cores = some cores') :
    cores'.length = cores.length := by
  induction schedule generalizing cores with
  | nil => cases h; rfl
  | cons i schedule ih =>
    obtain ⟨mid, hstep, hrun⟩ := runCores_cons h
    exact (ih hrun).trans (stepCore_length hstep)

/-- Settles O58, by induction on the schedule. -/
theorem coresAreIndependent : Obligations.CoresAreIndependent :=
  fun _ _ _ h => ⟨runCores_length h, fun _ _ hs => runCores_getElem? h hs⟩

end Sys2Proof.Machine

/-! PROOFS. What ends or stops a step short of a command (70_reset_and_hazards.md R130, R139), and what a rejected tag lets the
host see (R137). -/

namespace Sys2Proof

/-! A channel that holds no whole command (R29, R139). -/

theorem decode_shortDescriptor {bs : Bytes} (hpos : 0 < bs.length) (hlt : bs.length < 16) :
    decode bs = .shortDescriptor := by
  have hempty : bs.isEmpty = false := List.isEmpty_eq_false_iff.mpr (List.length_pos_iff.mp hpos)
  rw [decode, hempty, if_neg Bool.false_ne_true, if_pos hlt]

/-- R139: a legal descriptor that announces more data than is there. -/
theorem decode_shortData {d : Descriptor} {header : Header} {data : Bytes} (hd : decodeDescriptor d = .ok header)
    (hlt : data.length < headerDlen header) : decode (descriptorBytes d ++ data) = .shortData header := by
  have hlen : (descriptorBytes d ++ data).length = 16 + data.length := by simp
  have hempty : (descriptorBytes d ++ data).isEmpty = false := by
    rw [List.isEmpty_eq_false_iff, ← List.length_pos_iff]
    omega
  rw [decode, hempty, if_neg Bool.false_ne_true, if_neg (by omega), parseDescriptor_append, hd]
  exact if_pos (by omega)

end Sys2Proof

namespace Sys2Proof.Machine

theorem step_eq_runFetched {s : State} (hr : s.resetIn = false) : step s = runFetched (decode s.chan) s := by
  rw [step, runNext, hr, if_neg Bool.false_ne_true, fetch]

/-- Settles O11: each case is what `decode` finds on such a channel. -/
theorem stepOutsideCommands : Obligations.StepOutsideCommands := by
  intro s hr
  rw [step_eq_runFetched hr]
  refine ⟨fun hchan => ?_, fun hpos hlt => ?_, fun d header data hd hchan hlt => ?_⟩
  · rw [hchan]; rfl
  · rw [decode_shortDescriptor hpos hlt]; rfl
  · rw [hchan, decode_shortData hd hlt]; rfl

/-- Settles O12: the tables at reset are those of the zero subkey (`zeroTables_eq`); R29's table gives the rest. -/
theorem hardwareReset_registers : Obligations.HardwareReset := by
  intro s hr
  refine ⟨hardwareReset s, step_hardwareReset hr, ?_⟩
  simp [hardwareReset, State.resetWith, zeroTables_eq]

/-! A decryption FINAL whose tag is rejected (R89, R137). -/

section
variable {data r : Bytes} {s t : State}

/-- R93, decryption: behind the received tag, the payload is all that came before it. -/
theorem finalPayload_append_tag (hd : s.dir = false) (hr : r.length = s.macBytes.toNat) :
    finalPayload (data ++ r) s = pending data s := by
  have hsplit : pending (data ++ r) s = pending data s ++ r := (List.append_assoc ..).symm
  rw [finalPayload, hd, if_neg Bool.false_ne_true, hsplit, List.length_append, hr, Nat.add_sub_cancel, List.take_left]

/-- R137: what FINAL leaves when it rejects a tag of full length is a function of the state and the payload before it. -/
theorem Inv.final_rejected_eq (h : Inv s) (hd : s.dir = false) (hr : r.length = s.macBytes.toNat)
    (he : Machine.exec (.final (data ++ r)) s = .next t) (hcode : lastStatus t = some .authenticationFailed) :
    t = fail .authenticationFailed (portCalls (finalEvents (pending data s) s) s) := by
  obtain ⟨code, hcheck, rfl⟩ | ⟨_, hshort, _⟩ | ⟨out, tag, rfl⟩ | ⟨_, _, hfail⟩ := h.execFinal_answer he
  · obtain rfl | rfl := hcheck <;> simp at hcode
  · rw [List.length_append] at hshort
    omega
  · simp at hcode
  · rwa [finalPayload_append_tag hd hr] at hfail

end

/-- Settles O32: neither outcome depends on the received tag. -/
theorem mismatchPositionHidden : Obligations.MismatchPositionHidden :=
  fun _ _ _ _ _ _ h hd hr hr' he hcode he' hcode' =>
    (h.final_rejected_eq hd hr he hcode).trans (h.final_rejected_eq hd hr' he' hcode').symm

end Sys2Proof.Machine
